-- ==== Sys2Proof/Word.lean ====
section
/-! DEFINITION. The plain types of CORE: words, cells, bytes, register numbers, and the fourteen conditions. -/

namespace Sys2Proof

/-- A register value or an address (00_scope.md R6, R7: 32 bits, arithmetic modulo 2^32). -/
abbrev Word := BitVec 32

/-- A memory cell or an opcode (20_memory.md R51, 30_encoding.md R90: 16 bits). -/
abbrev Half := BitVec 16

/-- A byte (46_load_store.md R217). -/
abbrev Byte := BitVec 8

/-- A register number, 0 to 15 (10_state.md R20, R22: `n` is masked to 4 bits). -/
abbrev RegNo := BitVec 4

/-- A low register number, 0 to 7 (30_encoding.md R93: 3-bit register fields). -/
abbrev LowReg := BitVec 3

/-- The fourteen conditions of a conditional branch (40_step_and_alu.md R118), in the order of their codes 0 to 13.
Codes 14 and 15 are not conditions and have no constructor. -/
inductive Cond where
  | eq | ne | cs | cc | mi | pl | vs | vc | hi | ls | ge | lt | gt | le
deriving DecidableEq, Repr

end Sys2Proof
end

