-- ==== Sys2Proof/Syntax.lean ====
section
/-! DEFINITION. The instructions of CORE: one constructor per row of the opcode table (30_encoding.md R96), named by
the spec's variant numbers. Fields are the row's operand fields; bits that a row ignores (SETEND's E, CPS's x bits,
the immediates of BKPT, SWI and the BLX(1) suffix) are kept as fields, so that no bit of an opcode is lost (log 12). -/

namespace Sys2Proof

/-- An instruction of CORE. -/
inductive Instr where
  -- ALU format: rows 1 to 16
  | and (rd rm : LowReg)
  | eor (rd rm : LowReg)
  | lsl2 (rd rs : LowReg)
  | lsr2 (rd rs : LowReg)
  | asr2 (rd rs : LowReg)
  | adc (rd rm : LowReg)
  | sbc (rd rm : LowReg)
  | ror (rd rs : LowReg)
  | tst (rn rm : LowReg)
  | neg (rd rm : LowReg)
  | cmp2 (rn rm : LowReg)
  | cmn (rn rm : LowReg)
  | orr (rd rm : LowReg)
  | mul (rd rm : LowReg)
  | bic (rd rm : LowReg)
  | mvn (rd rm : LowReg)
  -- SHIFT_IMM format: rows 17 to 19
  | lsl1 (rd rm : LowReg) (imm5 : BitVec 5)
  | lsr1 (rd rm : LowReg) (imm5 : BitVec 5)
  | asr1 (rd rm : LowReg) (imm5 : BitVec 5)
  -- ADDSUB_REG and ADDSUB_IMM3 formats: rows 20 to 24
  | add3 (rd rn rm : LowReg)
  | sub3 (rd rn rm : LowReg)
  | mov2 (rd rn : LowReg)
  | add1 (rd rn : LowReg) (imm3 : BitVec 3)
  | sub1 (rd rn : LowReg) (imm3 : BitVec 3)
  -- IMM8 format: rows 25 to 28
  | mov1 (rd : LowReg) (imm8 : BitVec 8)
  | cmp1 (rn : LowReg) (imm8 : BitVec 8)
  | add2 (rd : LowReg) (imm8 : BitVec 8)
  | sub2 (rd : LowReg) (imm8 : BitVec 8)
  -- HIREG and BXREG formats: rows 29 to 34
  | add4 (rd rm : RegNo)
  | cmp3 (rn rm : RegNo)
  | cpy (rd rm : LowReg)
  | mov3 (rd rm : RegNo)
  | bx (rm : RegNo)
  | blx2 (rm : RegNo)
  -- LDR_PC and LS_REG formats: rows 35 to 43
  | ldr3 (rd : LowReg) (imm8 : BitVec 8)
  | str2 (rd rn rm : LowReg)
  | strh2 (rd rn rm : LowReg)
  | strb2 (rd rn rm : LowReg)
  | ldrsb (rd rn rm : LowReg)
  | ldr2 (rd rn rm : LowReg)
  | ldrh2 (rd rn rm : LowReg)
  | ldrb2 (rd rn rm : LowReg)
  | ldrsh (rd rn rm : LowReg)
  -- LS_IMM and LS_SP formats: rows 44 to 51
  | str1 (rd rn : LowReg) (imm5 : BitVec 5)
  | ldr1 (rd rn : LowReg) (imm5 : BitVec 5)
  | strb1 (rd rn : LowReg) (imm5 : BitVec 5)
  | ldrb1 (rd rn : LowReg) (imm5 : BitVec 5)
  | strh1 (rd rn : LowReg) (imm5 : BitVec 5)
  | ldrh1 (rd rn : LowReg) (imm5 : BitVec 5)
  | str3 (rd : LowReg) (imm8 : BitVec 8)
  | ldr4 (rd : LowReg) (imm8 : BitVec 8)
  -- ADR and SP_ADJ formats: rows 52 to 55
  | add5 (rd : LowReg) (imm8 : BitVec 8)
  | add6 (rd : LowReg) (imm8 : BitVec 8)
  | add7 (imm7 : BitVec 7)
  | sub4 (imm7 : BitVec 7)
  -- EXTEND format: rows 56 to 59
  | sxth (rd rm : LowReg)
  | sxtb (rd rm : LowReg)
  | uxth (rd rm : LowReg)
  | uxtb (rd rm : LowReg)
  -- PUSHPOP, SETEND, CPS and REVERSE formats: rows 60 to 67
  | push (r : Bool) (list : BitVec 8)
  | setend (e : Bool)
  | cps (imod a i f : Bool)
  | rev (rd rm : LowReg)
  | rev16 (rd rm : LowReg)
  | revsh (rd rm : LowReg)
  | pop (r : Bool) (list : BitVec 8)
  | bkpt (imm8 : BitVec 8)
  -- LDMSTM format and the branches: rows 68 to 75
  | stmia (rn : LowReg) (list : BitVec 8)
  | ldmia (rn : LowReg) (list : BitVec 8)
  | swi (imm8 : BitVec 8)
  | b1 (cond : Cond) (imm8 : BitVec 8)
  | b2 (imm11 : BitVec 11)
  | blx1Suffix (imm11 : BitVec 11)
  | blPrefix (imm11 : BitVec 11)
  | blSuffix (imm11 : BitVec 11)
deriving DecidableEq, Repr

end Sys2Proof
end

