-- ==== Sys2Proof/WellFormed.lean ====
section
/-! DEFINITION. Well-formed instructions: the terms of `Instr` that are the reading of some opcode. Three rows carry a
constraint beside their mask (30_encoding.md R96, R97); every other term is well formed. -/

namespace Sys2Proof

/-- Row 23: ADD(1) needs `imm3 != 0`, since `imm3 = 0` is MOV(2) (30_encoding.md R97 (a), 41_arithmetic.md R131). -/
def add1Proper (imm3 : BitVec 3) : Bool := imm3 != 0#3

/-- Row 32: MOV(3) needs `inst[7:6] != 0`, a high register, since two low registers are CPY (30_encoding.md R97 (b)). -/
def mov3Proper (rd rm : RegNo) : Bool := rd.getLsbD 3 || rm.getLsbD 3

/-- The well-formed instructions; row 14 is there only if `HAS_MUL` (30_encoding.md R96, 41_arithmetic.md R148). -/
def Instr.wellFormed (hasMul : Bool) : Instr → Bool
  | .and _ _ => true
  | .eor _ _ => true
  | .lsl2 _ _ => true
  | .lsr2 _ _ => true
  | .asr2 _ _ => true
  | .adc _ _ => true
  | .sbc _ _ => true
  | .ror _ _ => true
  | .tst _ _ => true
  | .neg _ _ => true
  | .cmp2 _ _ => true
  | .cmn _ _ => true
  | .orr _ _ => true
  | .mul _ _ => hasMul
  | .bic _ _ => true
  | .mvn _ _ => true
  | .lsl1 _ _ _ => true
  | .lsr1 _ _ _ => true
  | .asr1 _ _ _ => true
  | .add3 _ _ _ => true
  | .sub3 _ _ _ => true
  | .mov2 _ _ => true
  | .add1 _ _ imm3 => add1Proper imm3
  | .sub1 _ _ _ => true
  | .mov1 _ _ => true
  | .cmp1 _ _ => true
  | .add2 _ _ => true
  | .sub2 _ _ => true
  | .add4 _ _ => true
  | .cmp3 _ _ => true
  | .cpy _ _ => true
  | .mov3 rd rm => mov3Proper rd rm
  | .bx _ => true
  | .blx2 _ => true
  | .ldr3 _ _ => true
  | .str2 _ _ _ => true
  | .strh2 _ _ _ => true
  | .strb2 _ _ _ => true
  | .ldrsb _ _ _ => true
  | .ldr2 _ _ _ => true
  | .ldrh2 _ _ _ => true
  | .ldrb2 _ _ _ => true
  | .ldrsh _ _ _ => true
  | .str1 _ _ _ => true
  | .ldr1 _ _ _ => true
  | .strb1 _ _ _ => true
  | .ldrb1 _ _ _ => true
  | .strh1 _ _ _ => true
  | .ldrh1 _ _ _ => true
  | .str3 _ _ => true
  | .ldr4 _ _ => true
  | .add5 _ _ => true
  | .add6 _ _ => true
  | .add7 _ => true
  | .sub4 _ => true
  | .sxth _ _ => true
  | .sxtb _ _ => true
  | .uxth _ _ => true
  | .uxtb _ _ => true
  | .push _ _ => true
  | .setend _ => true
  | .cps _ _ _ _ => true
  | .rev _ _ => true
  | .rev16 _ _ => true
  | .revsh _ _ => true
  | .pop _ _ => true
  | .bkpt _ => true
  | .stmia _ _ => true
  | .ldmia _ _ => true
  | .swi _ => true
  | .b1 _ _ => true
  | .b2 _ => true
  | .blx1Suffix _ => true
  | .blPrefix _ => true
  | .blSuffix _ => true

end Sys2Proof
end

