-- ==== Sys2Proof/Decode.lean ====
section
/-! DEFINITION. Decoding and encoding. The decoder is the spec's first-match search through its ordered table of
(mask, match) pairs with constraints (30_encoding.md R91, R96); the encoder is written from the formats of R93. -/

namespace Sys2Proof

/-- The code of a condition (40_step_and_alu.md R118). -/
def Cond.code : Cond → BitVec 4
  | .eq => 0 | .ne => 1 | .cs => 2 | .cc => 3 | .mi => 4 | .pl => 5 | .vs => 6
  | .vc => 7 | .hi => 8 | .ls => 9 | .ge => 10 | .lt => 11 | .gt => 12 | .le => 13

/-- The condition of a code; codes 14 and 15 are not conditions (40_step_and_alu.md R118). -/
def Cond.ofCode (code : BitVec 4) : Option Cond :=
  [.eq, .ne, .cs, .cc, .mi, .pl, .vs, .vc, .hi, .ls, .ge, .lt, .gt, .le][code.toNat]?

/-- The destination (or first operand) of the HIREG format: `inst[7] ++ inst[2:0]` (30_encoding.md R93, R94). -/
def highField (w : Half) : RegNo := w.extractLsb 7 7 ++ w.extractLsb 2 0

/-- One row of the opcode table (30_encoding.md R96). -/
structure Row where
  /-- the row's mnemonic, as spec/opcode_table.json spells it -/
  mnemonic : String
  mask : Half
  value : Half
  /-- the row's extra constraint, on `HAS_MUL` and the opcode -/
  constraint : Bool → Half → Bool
  /-- the row's instruction, its fields taken from the opcode -/
  build : Half → Option Instr

/-- A row without a constraint. -/
def noConstraint (_ : Bool) (_ : Half) : Bool := true

/-- An opcode satisfies a row when `(inst & mask) == match` and the row's constraint holds (30_encoding.md R91). -/
def Row.accepts (row : Row) (hasMul : Bool) (w : Half) : Bool :=
  (w &&& row.mask == row.value) && row.constraint hasMul w

/-- Rows 1 to 16 of 30_encoding.md R96: the ALU format. -/
def aluRows : List Row :=
  [ ⟨"AND", 0xFFC0#16, 0x4000#16, noConstraint, (fun w => some (.and (w.extractLsb 2 0) (w.extractLsb 5 3)))⟩
  , ⟨"EOR", 0xFFC0#16, 0x4040#16, noConstraint, (fun w => some (.eor (w.extractLsb 2 0) (w.extractLsb 5 3)))⟩
  , ⟨"LSL(2)", 0xFFC0#16, 0x4080#16, noConstraint, (fun w => some (.lsl2 (w.extractLsb 2 0) (w.extractLsb 5 3)))⟩
  , ⟨"LSR(2)", 0xFFC0#16, 0x40C0#16, noConstraint, (fun w => some (.lsr2 (w.extractLsb 2 0) (w.extractLsb 5 3)))⟩
  , ⟨"ASR(2)", 0xFFC0#16, 0x4100#16, noConstraint, (fun w => some (.asr2 (w.extractLsb 2 0) (w.extractLsb 5 3)))⟩
  , ⟨"ADC", 0xFFC0#16, 0x4140#16, noConstraint, (fun w => some (.adc (w.extractLsb 2 0) (w.extractLsb 5 3)))⟩
  , ⟨"SBC", 0xFFC0#16, 0x4180#16, noConstraint, (fun w => some (.sbc (w.extractLsb 2 0) (w.extractLsb 5 3)))⟩
  , ⟨"ROR", 0xFFC0#16, 0x41C0#16, noConstraint, (fun w => some (.ror (w.extractLsb 2 0) (w.extractLsb 5 3)))⟩
  , ⟨"TST", 0xFFC0#16, 0x4200#16, noConstraint, (fun w => some (.tst (w.extractLsb 2 0) (w.extractLsb 5 3)))⟩
  , ⟨"NEG", 0xFFC0#16, 0x4240#16, noConstraint, (fun w => some (.neg (w.extractLsb 2 0) (w.extractLsb 5 3)))⟩
  , ⟨"CMP(2)", 0xFFC0#16, 0x4280#16, noConstraint, (fun w => some (.cmp2 (w.extractLsb 2 0) (w.extractLsb 5 3)))⟩
  , ⟨"CMN", 0xFFC0#16, 0x42C0#16, noConstraint, (fun w => some (.cmn (w.extractLsb 2 0) (w.extractLsb 5 3)))⟩
  , ⟨"ORR", 0xFFC0#16, 0x4300#16, noConstraint, (fun w => some (.orr (w.extractLsb 2 0) (w.extractLsb 5 3)))⟩
  , ⟨"MUL", 0xFFC0#16, 0x4340#16, (fun hasMul _ => hasMul), (fun w => some (.mul (w.extractLsb 2 0) (w.extractLsb 5 3)))⟩
  , ⟨"BIC", 0xFFC0#16, 0x4380#16, noConstraint, (fun w => some (.bic (w.extractLsb 2 0) (w.extractLsb 5 3)))⟩
  , ⟨"MVN", 0xFFC0#16, 0x43C0#16, noConstraint, (fun w => some (.mvn (w.extractLsb 2 0) (w.extractLsb 5 3)))⟩ ]

/-- Rows 17 to 19 of 30_encoding.md R96: the SHIFT_IMM format. -/
def shiftImmRows : List Row :=
  [ ⟨"LSL(1)", 0xF800#16, 0x0000#16, noConstraint, (fun w => some (.lsl1 (w.extractLsb 2 0) (w.extractLsb 5 3) (w.extractLsb 10 6)))⟩
  , ⟨"LSR(1)", 0xF800#16, 0x0800#16, noConstraint, (fun w => some (.lsr1 (w.extractLsb 2 0) (w.extractLsb 5 3) (w.extractLsb 10 6)))⟩
  , ⟨"ASR(1)", 0xF800#16, 0x1000#16, noConstraint, (fun w => some (.asr1 (w.extractLsb 2 0) (w.extractLsb 5 3) (w.extractLsb 10 6)))⟩ ]

/-- Rows 20 to 24 of 30_encoding.md R96: the ADDSUB_REG and ADDSUB_IMM3 formats. -/
def addSubRows : List Row :=
  [ ⟨"ADD(3)", 0xFE00#16, 0x1800#16, noConstraint, (fun w => some (.add3 (w.extractLsb 2 0) (w.extractLsb 5 3) (w.extractLsb 8 6)))⟩
  , ⟨"SUB(3)", 0xFE00#16, 0x1A00#16, noConstraint, (fun w => some (.sub3 (w.extractLsb 2 0) (w.extractLsb 5 3) (w.extractLsb 8 6)))⟩
  , ⟨"MOV(2)", 0xFFC0#16, 0x1C00#16, noConstraint, (fun w => some (.mov2 (w.extractLsb 2 0) (w.extractLsb 5 3)))⟩
  , ⟨"ADD(1)", 0xFE00#16, 0x1C00#16, (fun _ w => w.extractLsb 8 6 != 0#3), (fun w => some (.add1 (w.extractLsb 2 0) (w.extractLsb 5 3) (w.extractLsb 8 6)))⟩
  , ⟨"SUB(1)", 0xFE00#16, 0x1E00#16, noConstraint, (fun w => some (.sub1 (w.extractLsb 2 0) (w.extractLsb 5 3) (w.extractLsb 8 6)))⟩ ]

/-- Rows 25 to 28 of 30_encoding.md R96: the IMM8 format. -/
def imm8Rows : List Row :=
  [ ⟨"MOV(1)", 0xF800#16, 0x2000#16, noConstraint, (fun w => some (.mov1 (w.extractLsb 10 8) (w.extractLsb 7 0)))⟩
  , ⟨"CMP(1)", 0xF800#16, 0x2800#16, noConstraint, (fun w => some (.cmp1 (w.extractLsb 10 8) (w.extractLsb 7 0)))⟩
  , ⟨"ADD(2)", 0xF800#16, 0x3000#16, noConstraint, (fun w => some (.add2 (w.extractLsb 10 8) (w.extractLsb 7 0)))⟩
  , ⟨"SUB(2)", 0xF800#16, 0x3800#16, noConstraint, (fun w => some (.sub2 (w.extractLsb 10 8) (w.extractLsb 7 0)))⟩ ]

/-- Rows 29 to 34 of 30_encoding.md R96: the HIREG and BXREG formats. -/
def hiRegRows : List Row :=
  [ ⟨"ADD(4)", 0xFF00#16, 0x4400#16, noConstraint, (fun w => some (.add4 (highField w) (w.extractLsb 6 3)))⟩
  , ⟨"CMP(3)", 0xFF00#16, 0x4500#16, noConstraint, (fun w => some (.cmp3 (highField w) (w.extractLsb 6 3)))⟩
  , ⟨"CPY", 0xFFC0#16, 0x4600#16, noConstraint, (fun w => some (.cpy (w.extractLsb 2 0) (w.extractLsb 5 3)))⟩
  , ⟨"MOV(3)", 0xFF00#16, 0x4600#16, (fun _ w => w.extractLsb 7 6 != 0#2), (fun w => some (.mov3 (highField w) (w.extractLsb 6 3)))⟩
  , ⟨"BX", 0xFF87#16, 0x4700#16, noConstraint, (fun w => some (.bx (w.extractLsb 6 3)))⟩
  , ⟨"BLX(2)", 0xFF87#16, 0x4780#16, noConstraint, (fun w => some (.blx2 (w.extractLsb 6 3)))⟩ ]

/-- Rows 35 to 43 of 30_encoding.md R96: the LDR_PC and LS_REG formats. -/
def loadStoreRegRows : List Row :=
  [ ⟨"LDR(3)", 0xF800#16, 0x4800#16, noConstraint, (fun w => some (.ldr3 (w.extractLsb 10 8) (w.extractLsb 7 0)))⟩
  , ⟨"STR(2)", 0xFE00#16, 0x5000#16, noConstraint, (fun w => some (.str2 (w.extractLsb 2 0) (w.extractLsb 5 3) (w.extractLsb 8 6)))⟩
  , ⟨"STRH(2)", 0xFE00#16, 0x5200#16, noConstraint, (fun w => some (.strh2 (w.extractLsb 2 0) (w.extractLsb 5 3) (w.extractLsb 8 6)))⟩
  , ⟨"STRB(2)", 0xFE00#16, 0x5400#16, noConstraint, (fun w => some (.strb2 (w.extractLsb 2 0) (w.extractLsb 5 3) (w.extractLsb 8 6)))⟩
  , ⟨"LDRSB", 0xFE00#16, 0x5600#16, noConstraint, (fun w => some (.ldrsb (w.extractLsb 2 0) (w.extractLsb 5 3) (w.extractLsb 8 6)))⟩
  , ⟨"LDR(2)", 0xFE00#16, 0x5800#16, noConstraint, (fun w => some (.ldr2 (w.extractLsb 2 0) (w.extractLsb 5 3) (w.extractLsb 8 6)))⟩
  , ⟨"LDRH(2)", 0xFE00#16, 0x5A00#16, noConstraint, (fun w => some (.ldrh2 (w.extractLsb 2 0) (w.extractLsb 5 3) (w.extractLsb 8 6)))⟩
  , ⟨"LDRB(2)", 0xFE00#16, 0x5C00#16, noConstraint, (fun w => some (.ldrb2 (w.extractLsb 2 0) (w.extractLsb 5 3) (w.extractLsb 8 6)))⟩
  , ⟨"LDRSH", 0xFE00#16, 0x5E00#16, noConstraint, (fun w => some (.ldrsh (w.extractLsb 2 0) (w.extractLsb 5 3) (w.extractLsb 8 6)))⟩ ]

/-- Rows 44 to 51 of 30_encoding.md R96: the LS_IMM and LS_SP formats. -/
def loadStoreImmRows : List Row :=
  [ ⟨"STR(1)", 0xF800#16, 0x6000#16, noConstraint, (fun w => some (.str1 (w.extractLsb 2 0) (w.extractLsb 5 3) (w.extractLsb 10 6)))⟩
  , ⟨"LDR(1)", 0xF800#16, 0x6800#16, noConstraint, (fun w => some (.ldr1 (w.extractLsb 2 0) (w.extractLsb 5 3) (w.extractLsb 10 6)))⟩
  , ⟨"STRB(1)", 0xF800#16, 0x7000#16, noConstraint, (fun w => some (.strb1 (w.extractLsb 2 0) (w.extractLsb 5 3) (w.extractLsb 10 6)))⟩
  , ⟨"LDRB(1)", 0xF800#16, 0x7800#16, noConstraint, (fun w => some (.ldrb1 (w.extractLsb 2 0) (w.extractLsb 5 3) (w.extractLsb 10 6)))⟩
  , ⟨"STRH(1)", 0xF800#16, 0x8000#16, noConstraint, (fun w => some (.strh1 (w.extractLsb 2 0) (w.extractLsb 5 3) (w.extractLsb 10 6)))⟩
  , ⟨"LDRH(1)", 0xF800#16, 0x8800#16, noConstraint, (fun w => some (.ldrh1 (w.extractLsb 2 0) (w.extractLsb 5 3) (w.extractLsb 10 6)))⟩
  , ⟨"STR(3)", 0xF800#16, 0x9000#16, noConstraint, (fun w => some (.str3 (w.extractLsb 10 8) (w.extractLsb 7 0)))⟩
  , ⟨"LDR(4)", 0xF800#16, 0x9800#16, noConstraint, (fun w => some (.ldr4 (w.extractLsb 10 8) (w.extractLsb 7 0)))⟩ ]

/-- Rows 52 to 55 of 30_encoding.md R96: the ADR and SP_ADJ formats. -/
def addressRows : List Row :=
  [ ⟨"ADD(5)", 0xF800#16, 0xA000#16, noConstraint, (fun w => some (.add5 (w.extractLsb 10 8) (w.extractLsb 7 0)))⟩
  , ⟨"ADD(6)", 0xF800#16, 0xA800#16, noConstraint, (fun w => some (.add6 (w.extractLsb 10 8) (w.extractLsb 7 0)))⟩
  , ⟨"ADD(7)", 0xFF80#16, 0xB000#16, noConstraint, (fun w => some (.add7 (w.extractLsb 6 0)))⟩
  , ⟨"SUB(4)", 0xFF80#16, 0xB080#16, noConstraint, (fun w => some (.sub4 (w.extractLsb 6 0)))⟩ ]

/-- Rows 56 to 59 of 30_encoding.md R96: the EXTEND format. -/
def extendRows : List Row :=
  [ ⟨"SXTH", 0xFFC0#16, 0xB200#16, noConstraint, (fun w => some (.sxth (w.extractLsb 2 0) (w.extractLsb 5 3)))⟩
  , ⟨"SXTB", 0xFFC0#16, 0xB240#16, noConstraint, (fun w => some (.sxtb (w.extractLsb 2 0) (w.extractLsb 5 3)))⟩
  , ⟨"UXTH", 0xFFC0#16, 0xB280#16, noConstraint, (fun w => some (.uxth (w.extractLsb 2 0) (w.extractLsb 5 3)))⟩
  , ⟨"UXTB", 0xFFC0#16, 0xB2C0#16, noConstraint, (fun w => some (.uxtb (w.extractLsb 2 0) (w.extractLsb 5 3)))⟩ ]

/-- Rows 60 to 67 of 30_encoding.md R96: the PUSHPOP, SETEND, CPS, REVERSE and BKPT rows. -/
def miscRows : List Row :=
  [ ⟨"PUSH", 0xFE00#16, 0xB400#16, noConstraint, (fun w => some (.push (w.getLsbD 8) (w.extractLsb 7 0)))⟩
  , ⟨"SETEND", 0xFFF7#16, 0xB650#16, noConstraint, (fun w => some (.setend (w.getLsbD 3)))⟩
  , ⟨"CPS", 0xFFE8#16, 0xB660#16, noConstraint, (fun w => some (.cps (w.getLsbD 4) (w.getLsbD 2) (w.getLsbD 1) (w.getLsbD 0)))⟩
  , ⟨"REV", 0xFFC0#16, 0xBA00#16, noConstraint, (fun w => some (.rev (w.extractLsb 2 0) (w.extractLsb 5 3)))⟩
  , ⟨"REV16", 0xFFC0#16, 0xBA40#16, noConstraint, (fun w => some (.rev16 (w.extractLsb 2 0) (w.extractLsb 5 3)))⟩
  , ⟨"REVSH", 0xFFC0#16, 0xBAC0#16, noConstraint, (fun w => some (.revsh (w.extractLsb 2 0) (w.extractLsb 5 3)))⟩
  , ⟨"POP", 0xFE00#16, 0xBC00#16, noConstraint, (fun w => some (.pop (w.getLsbD 8) (w.extractLsb 7 0)))⟩
  , ⟨"BKPT", 0xFF00#16, 0xBE00#16, noConstraint, (fun w => some (.bkpt (w.extractLsb 7 0)))⟩ ]

/-- Rows 68 to 75 of 30_encoding.md R96: the LDMSTM, SWI, BCOND, BUNCOND and BL_HALF rows. -/
def blockAndBranchRows : List Row :=
  [ ⟨"STMIA", 0xF800#16, 0xC000#16, noConstraint, (fun w => some (.stmia (w.extractLsb 10 8) (w.extractLsb 7 0)))⟩
  , ⟨"LDMIA", 0xF800#16, 0xC800#16, noConstraint, (fun w => some (.ldmia (w.extractLsb 10 8) (w.extractLsb 7 0)))⟩
  , ⟨"SWI", 0xFF00#16, 0xDF00#16, noConstraint, (fun w => some (.swi (w.extractLsb 7 0)))⟩
  , ⟨"B(1)", 0xF000#16, 0xD000#16, (fun _ w => (w.extractLsb 11 8).toNat < 14), (fun w => (Cond.ofCode (w.extractLsb 11 8)).map (Instr.b1 · (w.extractLsb 7 0)))⟩
  , ⟨"B(2)", 0xF800#16, 0xE000#16, noConstraint, (fun w => some (.b2 (w.extractLsb 10 0)))⟩
  , ⟨"BLX_1__suffix", 0xF800#16, 0xE800#16, noConstraint, (fun w => some (.blx1Suffix (w.extractLsb 10 0)))⟩
  , ⟨"BL_prefix", 0xF800#16, 0xF000#16, noConstraint, (fun w => some (.blPrefix (w.extractLsb 10 0)))⟩
  , ⟨"BL_suffix", 0xF800#16, 0xF800#16, noConstraint, (fun w => some (.blSuffix (w.extractLsb 10 0)))⟩ ]

/-- The opcode table, in the spec's priority order (30_encoding.md R96). -/
def rows : List Row :=
  aluRows ++ shiftImmRows ++ addSubRows ++ imm8Rows ++ hiRegRows ++ loadStoreRegRows ++
    loadStoreImmRows ++ addressRows ++ extendRows ++ miscRows ++ blockAndBranchRows

/-- Why bytes are not an instruction. -/
inductive DecodeError where
  /-- The opcode satisfies no row (30_encoding.md R98); the step then terminates with `Undefined` (49_termination.md R261). -/
  | unmatched (opcode : Half)
  /-- Fewer than two bytes: an instruction is one 16-bit opcode (30_encoding.md R90). A step never meets this. -/
  | truncated
deriving DecidableEq, Repr

/-- Decoding one opcode: the first row it satisfies (30_encoding.md R91, 40_step_and_alu.md R112). -/
def decode (hasMul : Bool) (w : Half) : Except DecodeError Instr :=
  match (rows.find? (·.accepts hasMul w)).bind (·.build w) with
  | some i => .ok i
  | none => .error (.unmatched w)

/-- The opcode of two bytes, the low byte at the lower address (20_memory.md R64). -/
def opcodeOfBytes (lo hi : Byte) : Half := hi ++ lo

/-- Decoding any bytes: the instruction of the first two, with the rest. -/
def decodeBytes (hasMul : Bool) : List Byte → Except DecodeError (Instr × List Byte)
  | lo :: hi :: rest => (decode hasMul (opcodeOfBytes lo hi)).map (·, rest)
  | _ => .error .truncated

/-- The opcode of an instruction (30_encoding.md R93). -/
def encode : Instr → Half
  | .and rd rm => 0b0100000000#10 ++ rm ++ rd
  | .eor rd rm => 0b0100000001#10 ++ rm ++ rd
  | .lsl2 rd rs => 0b0100000010#10 ++ rs ++ rd
  | .lsr2 rd rs => 0b0100000011#10 ++ rs ++ rd
  | .asr2 rd rs => 0b0100000100#10 ++ rs ++ rd
  | .adc rd rm => 0b0100000101#10 ++ rm ++ rd
  | .sbc rd rm => 0b0100000110#10 ++ rm ++ rd
  | .ror rd rs => 0b0100000111#10 ++ rs ++ rd
  | .tst rn rm => 0b0100001000#10 ++ rm ++ rn
  | .neg rd rm => 0b0100001001#10 ++ rm ++ rd
  | .cmp2 rn rm => 0b0100001010#10 ++ rm ++ rn
  | .cmn rn rm => 0b0100001011#10 ++ rm ++ rn
  | .orr rd rm => 0b0100001100#10 ++ rm ++ rd
  | .mul rd rm => 0b0100001101#10 ++ rm ++ rd
  | .bic rd rm => 0b0100001110#10 ++ rm ++ rd
  | .mvn rd rm => 0b0100001111#10 ++ rm ++ rd
  | .lsl1 rd rm imm5 => 0b00000#5 ++ imm5 ++ rm ++ rd
  | .lsr1 rd rm imm5 => 0b00001#5 ++ imm5 ++ rm ++ rd
  | .asr1 rd rm imm5 => 0b00010#5 ++ imm5 ++ rm ++ rd
  | .add3 rd rn rm => 0b0001100#7 ++ rm ++ rn ++ rd
  | .sub3 rd rn rm => 0b0001101#7 ++ rm ++ rn ++ rd
  | .mov2 rd rn => 0b0001110000#10 ++ rn ++ rd
  | .add1 rd rn imm3 => 0b0001110#7 ++ imm3 ++ rn ++ rd
  | .sub1 rd rn imm3 => 0b0001111#7 ++ imm3 ++ rn ++ rd
  | .mov1 rd imm8 => 0b00100#5 ++ rd ++ imm8
  | .cmp1 rn imm8 => 0b00101#5 ++ rn ++ imm8
  | .add2 rd imm8 => 0b00110#5 ++ rd ++ imm8
  | .sub2 rd imm8 => 0b00111#5 ++ rd ++ imm8
  | .add4 rd rm => 0b01000100#8 ++ rd.extractLsb 3 3 ++ rm ++ rd.extractLsb 2 0
  | .cmp3 rn rm => 0b01000101#8 ++ rn.extractLsb 3 3 ++ rm ++ rn.extractLsb 2 0
  | .cpy rd rm => 0b0100011000#10 ++ rm ++ rd
  | .mov3 rd rm => 0b01000110#8 ++ rd.extractLsb 3 3 ++ rm ++ rd.extractLsb 2 0
  | .bx rm => 0b010001110#9 ++ rm ++ 0b000#3
  | .blx2 rm => 0b010001111#9 ++ rm ++ 0b000#3
  | .ldr3 rd imm8 => 0b01001#5 ++ rd ++ imm8
  | .str2 rd rn rm => 0b0101000#7 ++ rm ++ rn ++ rd
  | .strh2 rd rn rm => 0b0101001#7 ++ rm ++ rn ++ rd
  | .strb2 rd rn rm => 0b0101010#7 ++ rm ++ rn ++ rd
  | .ldrsb rd rn rm => 0b0101011#7 ++ rm ++ rn ++ rd
  | .ldr2 rd rn rm => 0b0101100#7 ++ rm ++ rn ++ rd
  | .ldrh2 rd rn rm => 0b0101101#7 ++ rm ++ rn ++ rd
  | .ldrb2 rd rn rm => 0b0101110#7 ++ rm ++ rn ++ rd
  | .ldrsh rd rn rm => 0b0101111#7 ++ rm ++ rn ++ rd
  | .str1 rd rn imm5 => 0b01100#5 ++ imm5 ++ rn ++ rd
  | .ldr1 rd rn imm5 => 0b01101#5 ++ imm5 ++ rn ++ rd
  | .strb1 rd rn imm5 => 0b01110#5 ++ imm5 ++ rn ++ rd
  | .ldrb1 rd rn imm5 => 0b01111#5 ++ imm5 ++ rn ++ rd
  | .strh1 rd rn imm5 => 0b10000#5 ++ imm5 ++ rn ++ rd
  | .ldrh1 rd rn imm5 => 0b10001#5 ++ imm5 ++ rn ++ rd
  | .str3 rd imm8 => 0b10010#5 ++ rd ++ imm8
  | .ldr4 rd imm8 => 0b10011#5 ++ rd ++ imm8
  | .add5 rd imm8 => 0b10100#5 ++ rd ++ imm8
  | .add6 rd imm8 => 0b10101#5 ++ rd ++ imm8
  | .add7 imm7 => 0b101100000#9 ++ imm7
  | .sub4 imm7 => 0b101100001#9 ++ imm7
  | .sxth rd rm => 0b1011001000#10 ++ rm ++ rd
  | .sxtb rd rm => 0b1011001001#10 ++ rm ++ rd
  | .uxth rd rm => 0b1011001010#10 ++ rm ++ rd
  | .uxtb rd rm => 0b1011001011#10 ++ rm ++ rd
  | .push r list => 0b1011010#7 ++ BitVec.ofBool r ++ list
  | .setend e => 0b101101100101#12 ++ BitVec.ofBool e ++ 0b000#3
  | .cps imod a i f => 0b10110110011#11 ++ BitVec.ofBool imod ++ 0b0#1 ++ BitVec.ofBool a ++ BitVec.ofBool i ++ BitVec.ofBool f
  | .rev rd rm => 0b1011101000#10 ++ rm ++ rd
  | .rev16 rd rm => 0b1011101001#10 ++ rm ++ rd
  | .revsh rd rm => 0b1011101011#10 ++ rm ++ rd
  | .pop r list => 0b1011110#7 ++ BitVec.ofBool r ++ list
  | .bkpt imm8 => 0b10111110#8 ++ imm8
  | .stmia rn list => 0b11000#5 ++ rn ++ list
  | .ldmia rn list => 0b11001#5 ++ rn ++ list
  | .swi imm8 => 0b11011111#8 ++ imm8
  | .b1 cond imm8 => 0b1101#4 ++ cond.code ++ imm8
  | .b2 imm11 => 0b11100#5 ++ imm11
  | .blx1Suffix imm11 => 0b11101#5 ++ imm11
  | .blPrefix imm11 => 0b11110#5 ++ imm11
  | .blSuffix imm11 => 0b11111#5 ++ imm11

/-- The two bytes of an instruction, in the order memory holds them (20_memory.md R64). -/
def encodeBytes (i : Instr) : List Byte := [(encode i).extractLsb 7 0, (encode i).extractLsb 15 8]

/-- The instruction the decoder reads from the opcode `w` of `nbits` bits (every row of the table has 16; the bits
above `nbits` are 0), laid out as its two bytes, low byte first. `HAS_MUL` has its default, true (00_scope.md R6). -/
def decodeTableWord (nbits w : Nat) : Option Instr :=
  let opcode := BitVec.ofNat 16 (w % 2 ^ nbits)
  match decodeBytes true [opcode.extractLsb 7 0, opcode.extractLsb 15 8] with
  | .ok (i, _) => some i
  | .error _ => none

end Sys2Proof
end

