-- ==== Sys2Proof/Config.lean ====
section
/-! DEFINITION. The open parameters of CORE (00_scope.md R6): a model takes them as named arguments. Their defaults
stand in Machine/ResetValues.lean. -/

namespace Sys2Proof.Config

/-- The seven open parameters of 00_scope.md R6. CORE's rules hold for every value of them (92_eei_decisions.md,
'Open parameters in one place'); State carries them unchanged (log 1). -/
structure Params where
  /-- `MODE_IMPL`, the one implemented value of the mode field (10_state.md R28, D10). -/
  modeImpl : BitVec 5
  /-- `RESET_SP`, the shadow stack pointer after reset (10_state.md R36, D13). -/
  resetSp : Word
  /-- `RESET_LR`, the shadow link register after reset (10_state.md R36, D13). -/
  resetLr : Word
  /-- `ENTRY_PC`, the program counter after reset (10_state.md R36, D13). -/
  entryPc : Word
  /-- `HAS_MUL`, whether row 14 of the opcode table is present (41_arithmetic.md R148, D9). -/
  hasMul : Bool
  /-- `ADDR_ARITH_SETS_FLAGS`, whether ADD(4) to ADD(7) and SUB(4) write flags (41_arithmetic.md R134, D8). -/
  addrArithSetsFlags : Bool
  /-- `MOV_PC_CLEARS_BIT0`, whether MOV(3) to register 15 clears bit 0 (44_move.md R182, D34). -/
  movPcClearsBit0 : Bool
deriving DecidableEq, Repr

end Sys2Proof.Config
end

