-- ==== Sys2Proof/Machine/ResetValues.lean ====
section
/-! DEFINITION. The values reset gives (10_state.md R36, 70_reset_and_hazards.md R290), and the values the model names
where the spec gives none. -/

namespace Sys2Proof.Machine

/-- The defaults of the open parameters (00_scope.md R6; log 2). -/
def defaultParams : Config.Params where
  modeImpl := 0x13#5
  resetSp := 0x40001FB4#32
  resetLr := 0x00000C00#32
  entryPc := 0x00000C0B#32
  hasMul := true
  addrArithSetsFlags := false
  movPcClearsBit0 := false

/-- CPSR.T, CPSR.I and CPSR.F after reset: "sets the Thumb-mode bit, disables the two interrupt-mask bits", read as
interrupts masked (10_state.md R36, D12). -/
def resetT : Bool := true
@[inherit_doc resetT] def resetI : Bool := true
@[inherit_doc resetT] def resetF : Bool := true

/-- N, Z, C and V after reset (10_state.md R36, D12). -/
def resetFlag : Bool := false

/-- MAMCR after reset (10_state.md R36). -/
def resetMamcr : Word := 0#32

/-- DESIGN CHOICE (log 3), unsafe: what `general[0]` to `general[14]` hold in `State.reset`. The spec gives them no reset
value (70_reset_and_hazards.md R292: launch inputs; "A model that wants a single concrete start state may choose all
zeros"). -/
def launchRegister : Word := 0#32

/-- DESIGN CHOICE (log 4), unsafe: what a byte of ROM or RAM that the memory list does not name reads as. ROM and RAM
contents at launch are the host's (10_state.md R32, R36). -/
def unlistedByte : Byte := 0#8

end Sys2Proof.Machine
end

