-- ==== Sys2Proof/Machine/State.lean ====
section
/-! DEFINITION. The state of CORE as plain data (10_state.md), the reasons a run ends, and reset. -/

namespace Sys2Proof.Machine

/-- ROM and RAM as one list of bytes by address (20_memory.md R64; log 5): byte `b` of the ROM image has key `b`, byte
`b` of the RAM image has key `0x40000000 + b`. Canonical form: see `Memory.wf`. -/
abbrev Memory := List Host.Cell

/-- The canonical form of memory: keys strictly rise, and no listed byte equals what an unlisted one reads as. -/
abbrev Memory.wf (m : Memory) : Prop :=
  m.Pairwise (fun c d => c.1 < d.1) ∧ ∀ c ∈ m, c.2 ≠ unlistedByte

/-- Every listed byte is a byte of ROM (32 KiB) or of RAM (8 KiB) (10_state.md R32, 20_memory.md R51, R52). -/
abbrev Memory.inArrays (m : Memory) : Prop :=
  ∀ c ∈ m, c.1 < 0x8000 ∨ (0x40000000 ≤ c.1 ∧ c.1 < 0x40002000)

/-- The status register (10_state.md R27), its fields kept apart as R27 allows; `Cpsr.word` is its word view. -/
structure Cpsr where
  /-- negative -/
  n : Bool
  /-- zero -/
  z : Bool
  /-- carry, or last bit shifted out -/
  c : Bool
  /-- signed overflow -/
  v : Bool
  /-- interrupt mask: written by reset only, read by nothing -/
  i : Bool
  /-- fast-interrupt mask: written by reset only, read by nothing -/
  f : Bool
  /-- Thumb bit: written by reset only, read by nothing -/
  t : Bool
  /-- the mode field: written by reset only, read by register selection -/
  mode : BitVec 5
deriving DecidableEq, Repr

/-- The instruction that would have left Thumb state. -/
inductive ExitKind where
  | bx | blx
deriving DecidableEq, Repr

/-- The reasons a run ends (60_exceptions.md R271), the payload of the `terminated` interface (10_state.md R35). -/
inductive Termination where
  /-- BKPT, with its immediate (49_termination.md R255) -/
  | bkpt (imm8 : BitVec 8)
  /-- SWI, with its immediate (49_termination.md R256) -/
  | swi (imm8 : BitVec 8)
  /-- CPS (49_termination.md R257) -/
  | cps
  /-- SETEND (49_termination.md R258) -/
  | setend
  /-- the BLX(1) suffix (49_termination.md R259) -/
  | blxSuffix
  /-- BX or BLX(2) to a target with bit 0 clear (48_branch.md R244, R245) -/
  | exitThumb (kind : ExitKind)
  /-- an opcode that no row matches (49_termination.md R260, R261) -/
  | undefined (opcode : Half)
  /-- the run loop's ceiling (70_reset_and_hazards.md R294) -/
  | ceiling
deriving DecidableEq, Repr

/-- The whole state of CORE (10_state.md R20 to R36). -/
structure State where
  /-- the shared bank `general[16]`; entry 15 is the program counter (R20, R24) -/
  general : Vector Word 16
  /-- `shadow[13]`, the stack pointer of the implemented mode (R21) -/
  shadow13 : Word
  /-- `shadow[14]`, the link register of the implemented mode (R21) -/
  shadow14 : Word
  /-- the status register (R27) -/
  cpsr : Cpsr
  /-- the peripheral register (R30) -/
  mamcr : Word
  /-- the pending half-instruction latch: empty, or the opcode of a BL prefix (R33) -/
  latch : Option Half
  /-- the instruction counter (R34) -/
  instructions : Nat
  /-- the fetch counter (R34) -/
  fetches : Nat
  /-- the read counter (R34) -/
  reads : Nat
  /-- the write counter (R34) -/
  writes : Nat
  /-- ROM and RAM (R32) -/
  mem : Memory
  /-- the `terminated` interface (R35): none while the run goes on, else why it ended (log 6) -/
  terminated : Option Termination
  /-- the open parameters of 00_scope.md R6, not state of CORE: no step writes them (R12; log 1) -/
  params : Config.Params
deriving DecidableEq, Repr

/-- Why the machine stops with no next state. -/
inductive Fault where
  /-- Raised by `step` alone, on a state whose run has ended: "no further step is taken from it" (40_step_and_alu.md
  R110). Safe: the spec gives such a state no next state either; only a new run, which begins with reset, goes on
  (60_exceptions.md R275; log 6). -/
  | runEnded
deriving DecidableEq, Repr

/-- Why an instruction is given no meaning. -/
inductive Refusal where
  /-- Raised by an arm of `exec` for an instruction that has no meaning yet. Safe: nothing is claimed of it. -/
  | notModelled (mnemonic : String)
  /-- Raised by a BL suffix that finds the latch empty: "if latch == none: refuse" (48_branch.md R243,
  93_implementation_defined.md U3: "a model must not give it a result"; log 8). Safe: nothing is claimed of such a run. -/
  | blSuffixLatchEmpty
deriving DecidableEq, Repr

/-- What an instruction answers. -/
abbrev Result := Host.Outcome State Fault Refusal

/-- `Reset()` (70_reset_and_hazards.md R290): ROM, RAM, `general[0]` to `general[14]` and the parameters stay. -/
def State.resetAction (s : State) : State :=
  { s with
    cpsr := ⟨resetFlag, resetFlag, resetFlag, resetFlag, resetI, resetF, resetT, s.params.modeImpl⟩
    shadow13 := s.params.resetSp
    shadow14 := s.params.resetLr
    general := s.general.set 15 s.params.entryPc
    mamcr := resetMamcr
    latch := none
    instructions := 0
    fetches := 0
    reads := 0
    writes := 0
    terminated := none }

/-- The launch state before the first reset: nothing in ROM and RAM, every register at the model's choice (log 3, log 4).
Reset overwrites every other field. -/
def State.launch : State where
  general := Vector.replicate 16 launchRegister
  shadow13 := launchRegister
  shadow14 := launchRegister
  cpsr := ⟨resetFlag, resetFlag, resetFlag, resetFlag, resetI, resetF, resetT, defaultParams.modeImpl⟩
  mamcr := resetMamcr
  latch := none
  instructions := 0
  fetches := 0
  reads := 0
  writes := 0
  mem := []
  terminated := none
  params := defaultParams

/-- The machine right after reset (10_state.md R36, 70_reset_and_hazards.md R290), with the default parameters. -/
def State.reset : State := State.launch.resetAction

end Sys2Proof.Machine
end

