-- ==== Sys2Proof/Machine/Ops.lean ====
section
/-! DEFINITION. The named operations over registers and memory: register selection (10_state.md R22, R23), the byte
store behind ROM and RAM, the address bus (20_memory.md), byte lanes (46_load_store.md R217), and termination, which
CORE has in place of exceptions (60_exceptions.md R270, R271). -/

namespace Sys2Proof.Machine

/-! ### Registers -/

/-- Whether the mode field selects the one implemented mode (10_state.md R22). -/
abbrev State.implemented (s : State) : Prop := s.cpsr.mode = s.params.modeImpl

/-- `x[n]`: a register read through the bank selection (10_state.md R22); 0 in an unimplemented mode (R23). -/
def State.readReg (s : State) (n : RegNo) : Word :=
  if s.implemented then
    if n = 13#4 then s.shadow13
    else if n = 14#4 then s.shadow14
    else s.general[n.toNat]'n.isLt
  else 0#32

/-- `x[n] <- v`: a register write through the bank selection (10_state.md R22), the value stored unchanged; dropped in an
unimplemented mode (R23). -/
def State.writeReg (s : State) (n : RegNo) (v : Word) : State :=
  if s.implemented then
    if n = 13#4 then { s with shadow13 := v }
    else if n = 14#4 then { s with shadow14 := v }
    else { s with general := s.general.set n.toNat v n.isLt }
  else s

/-- The number of a low register as a register number. -/
def low (r : LowReg) : RegNo := r.setWidth 4

/-- The stack pointer, the link register and the program counter (10_state.md R20). -/
def spReg : RegNo := 13#4
@[inherit_doc spReg] def lrReg : RegNo := 14#4
@[inherit_doc spReg] def pcReg : RegNo := 15#4

/-! ### The bytes behind ROM and RAM -/

/-- The byte with key `k`. -/
def Memory.byte : Memory → Nat → Byte
  | [], _ => unlistedByte
  | (j, b) :: m, k => if j = k then b else Memory.byte m k

/-- Put `(k, v)` in front of a list whose keys are above `k`, unless `v` is what an unlisted byte reads as. -/
def Memory.cons (k : Nat) (v : Byte) (m : Memory) : Memory :=
  if v = unlistedByte then m else (k, v) :: m

/-- Set the byte with key `k`, keeping the canonical form. -/
def Memory.set : Memory → Nat → Byte → Memory
  | [], k, v => Memory.cons k v []
  | (j, b) :: m, k, v =>
    if k < j then Memory.cons k v ((j, b) :: m)
    else if k = j then Memory.cons k v m
    else (j, b) :: Memory.set m k v

/-- The 16-bit cell whose low byte has key `k` (20_memory.md R64: `B[2i] | (B[2i+1] << 8)`). -/
def Memory.cell (m : Memory) (k : Nat) : Half := m.byte (k + 1) ++ m.byte k

/-- Replace the 16-bit cell whose low byte has key `k`. -/
def Memory.setCell (m : Memory) (k : Nat) (v : Half) : Memory :=
  (m.set k (v.extractLsb 7 0)).set (k + 1) (v.extractLsb 15 8)

/-! ### The fixed numbers of the address map (00_scope.md R6) -/

/-- `ROM_MASK`, the 15-bit address mask. -/
def romMask : Word := 0x7FFF#32
/-- `RAM_MASK`, the 13-bit address mask. -/
def ramMask : Word := 0x1FFF#32
/-- `VECTOR_WINDOW`: a fetch below this ROM offset returns 0. -/
def vectorWindow : Word := 0x50#32
/-- `MAMCR_ADDR`, the one mapped peripheral address. -/
def mamcrAddr : Word := 0xE01FC000#32
/-- `INSN_CEILING`, the most instructions a run executes (70_reset_and_hazards.md R294). -/
def insnCeiling : Nat := 500000
/-- The key of RAM's first byte. -/
def ramBase : Nat := 0x40000000

/-! ### Region decode -/

/-- The regions of the address space (20_memory.md R50). -/
inductive Region where
  | rom | ram | peripheral | halt | debug | none
deriving DecidableEq, Repr

/-- The region of an address: "depends only on the address's top 4 bits" (20_memory.md R50). -/
def region (a : Word) : Region :=
  let top := a.extractLsb 31 28
  if top = 0x0#4 then .rom
  else if top = 0x4#4 then .ram
  else if top = 0xE#4 then .peripheral
  else if top = 0xF#4 then .halt
  else if top = 0xD#4 then .debug
  else .none

/-- The index of the ROM cell of an address, `(addr & 0x7FFF) >> 1` (20_memory.md R51). -/
def romIndex (a : Word) : Nat := ((a &&& romMask) >>> 1).toNat

/-- The index of the RAM cell of an address, `(addr & 0x1FFF) >> 1` (20_memory.md R52). -/
def ramIndex (a : Word) : Nat := ((a &&& ramMask) >>> 1).toNat

/-- The key of the ROM cell of an address. -/
def romKey (a : Word) : Nat := 2 * romIndex a

/-- The key of the RAM cell of an address. -/
def ramKey (a : Word) : Nat := ramBase + 2 * ramIndex a

/-! ### Instruction fetch -/

/-- The key of the cell a fetch reads, or none where it returns 0 (20_memory.md R55): no alignment check, no guard
window, bit 0 of the address dropped. -/
def fetchKey (a : Word) : Option Nat :=
  match region a with
  | .rom => if a &&& romMask < vectorWindow then none else some (romKey a)
  | .ram => some (ramKey a)
  | _ => none

/-- `Fetch(a)`, the source's `fetch16` (20_memory.md R55). -/
def fetch16 (s : State) (a : Word) : Half × State :=
  (match fetchKey a with
    | some k => s.mem.cell k
    | none => 0#16,
   { s with fetches := s.fetches + 1 })

/-! ### Data access -/

/-- `ReadGuarded(a)` (20_memory.md R57); both ends of each window excluded. -/
def readGuarded (a : Word) : Bool :=
  (0x40001FFF#32 < a && a < 0x50000000#32) || (0x00007FFF#32 < a && a < 0x10000000#32)

/-- `WriteGuarded(a)` (20_memory.md R57); both ends of each window excluded. -/
def writeGuarded (a : Word) : Bool :=
  (0x40001FFF#32 < a && a < 0x50000000#32) || (0x40000028#32 < a && a < 0x40000C00#32)

/-- `MemRead(a, 2)`, the source's `read16`, zero-extended (20_memory.md R58). -/
def memRead2 (s : State) (a : Word) : Word × State :=
  if readGuarded a then (0#32, s)
  else if a.getLsbD 0 then (0#32, s)
  else
    (match region a with
      | .rom => (s.mem.cell (romKey a)).setWidth 32
      | .ram => (s.mem.cell (ramKey a)).setWidth 32
      | _ => if a = mamcrAddr then (s.mamcr.extractLsb 15 0).setWidth 32 else 0#32,
     { s with reads := s.reads + 1 })

/-- `MemWrite(a, 2, v)`, the source's `write16` (20_memory.md R59). -/
def memWrite2 (s : State) (a : Word) (v : Half) : State :=
  if writeGuarded a then s
  else if a.getLsbD 0 then s
  else
    let s := { s with writes := s.writes + 1 }
    if region a = .ram then { s with mem := s.mem.setCell (ramKey a) v }
    else if a = mamcrAddr then { s with mamcr := v.setWidth 32 }
    else s

/-- `MemRead(a, 4)`, the source's `read32` (20_memory.md R60): two halves, low first, but for MAMCR, which moves whole. -/
def memRead4 (s : State) (a : Word) : Word × State :=
  if a.extractLsb 1 0 ≠ 0#2 then (0#32, s)
  else if a = mamcrAddr then (s.mamcr, { s with reads := s.reads + 1 })
  else
    let (lo, s) := memRead2 s a
    let (hi, s) := memRead2 s (a + 2#32)
    (hi.extractLsb 15 0 ++ lo.extractLsb 15 0, s)

/-- `MemWrite(a, 4, v)`, the source's `write32` (20_memory.md R61): two halves, low first, but for MAMCR, which moves
whole. -/
def memWrite4 (s : State) (a v : Word) : State :=
  if a.extractLsb 1 0 ≠ 0#2 then s
  else if a = mamcrAddr then { s with writes := s.writes + 1, mamcr := v }
  else memWrite2 (memWrite2 s a (v.extractLsb 15 0)) (a + 2#32) (v.extractLsb 31 16)

/-- `Fetch32(a)`, the source's `fetch32` (20_memory.md R56). No instruction and no step uses it; the read-through of
addresses 0 and 4 is a `MemRead`, and counts as one (log 11). -/
def fetch32 (s : State) (a : Word) : Word × State :=
  if region a = .rom ∧ a &&& romMask < vectorWindow then
    if a = 0x00000000#32 ∨ a = 0x00000004#32 then memRead4 s a else (0#32, s)
  else if region a = .rom ∨ region a = .ram then
    let (hi, s) := fetch16 s (a + 2#32)
    let (lo, s) := fetch16 s a
    (hi ++ lo, s)
  else (0#32, s)

/-! ### Byte lanes -/

/-- An address with bit 0 cleared: `ea & 0xFFFFFFFE`. -/
def evenAddr (a : Word) : Word := a &&& 0xFFFFFFFE#32

/-- `LoadByte(ea)` (46_load_store.md R217): the lane of the cell that bit 0 of the address selects. -/
def loadByte (s : State) (a : Word) : Byte × State :=
  let (h, s) := memRead2 s (evenAddr a)
  (if a.getLsbD 0 then h.extractLsb 15 8 else h.extractLsb 7 0, s)

/-- `StoreByte(ea, b)` (46_load_store.md R217): read the cell, merge the lane, write the cell back. -/
def storeByte (s : State) (a : Word) (b : Byte) : State :=
  let (h, s) := memRead2 s (evenAddr a)
  memWrite2 s (evenAddr a) (if a.getLsbD 0 then b ++ h.extractLsb 7 0 else h.extractLsb 15 8 ++ b)

/-! ### Termination -/

/-- `raise Terminate(reason)` (60_exceptions.md R271, R274): nothing is saved and nothing else changes; the reason goes out
on the `terminated` interface. There is no vector, no saved register and no return (R270, R275). -/
def State.terminate (s : State) (reason : Termination) : State := { s with terminated := some reason }

end Sys2Proof.Machine
end

