-- ==== Sys2Proof/Machine/Flags.lean ====
section
/-! DEFINITION. Condition-flag computation (40_step_and_alu.md R113 to R119) and the conditions. -/

namespace Sys2Proof.Machine

/-- `SetNZ(r)` (40_step_and_alu.md R113). -/
def Cpsr.setNZ (p : Cpsr) (r : Word) : Cpsr := { p with n := r.getLsbD 31, z := decide (r = 0#32) }

/-- `do_cflag_bit` (40_step_and_alu.md R119). -/
def Cpsr.setC (p : Cpsr) (b : Bool) : Cpsr := { p with c := b }

/-- `do_vflag_bit` (40_step_and_alu.md R119). -/
def Cpsr.setV (p : Cpsr) (b : Bool) : Cpsr := { p with v := b }

/-- The word view of the status register (10_state.md R27): N 31, Z 30, C 29, V 28, I 7, F 6, T 5, mode 4:0, all other
bits zero. No instruction reads it. -/
def Cpsr.word (p : Cpsr) : Word :=
  BitVec.ofBool p.n ++ BitVec.ofBool p.z ++ BitVec.ofBool p.c ++ BitVec.ofBool p.v ++ 0#20 ++
    BitVec.ofBool p.i ++ BitVec.ofBool p.f ++ BitVec.ofBool p.t ++ p.mode

/-- `CarryOut(a, b, c)`, step by step as the source computes it (40_step_and_alu.md R114). -/
def carryOut (a b : Word) (c : Bool) : Bool :=
  let t : Word := (a.extractLsb 30 0).setWidth 32 + (b.extractLsb 30 0).setWidth 32 + (BitVec.ofBool c).setWidth 32
  let u : BitVec 2 := (t.extractLsb 31 31).setWidth 2 + (a.extractLsb 31 31).setWidth 2 + (b.extractLsb 31 31).setWidth 2
  u.getLsbD 1

/-- `AddOverflow(a, b, r)` (40_step_and_alu.md R115). -/
def addOverflow (a b r : Word) : Bool := a.getLsbD 31 == b.getLsbD 31 && r.getLsbD 31 != b.getLsbD 31

/-- `SubOverflow(a, b, r)` (40_step_and_alu.md R115): `a` the minuend, `b` the subtrahend, uncomplemented. -/
def subOverflow (a b r : Word) : Bool := a.getLsbD 31 != b.getLsbD 31 && r.getLsbD 31 == b.getLsbD 31

/-- A carry flag as a word, 0 or 1. -/
def carryWord (c : Bool) : Word := (BitVec.ofBool c).setWidth 32

/-- `AddWithFlags(a, b, cin)`: the sum and the status register (40_step_and_alu.md R116). -/
def addWithFlags (p : Cpsr) (a b : Word) (cin : Bool) : Word × Cpsr :=
  let r := a + b + carryWord cin
  (r, ((p.setNZ r).setC (carryOut a b cin)).setV (addOverflow a b r))

/-- `SubWithFlags(a, b, cin)`: the difference and the status register (40_step_and_alu.md R117). -/
def subWithFlags (p : Cpsr) (a b : Word) (cin : Bool) : Word × Cpsr :=
  let r := a - b - (1#32 - carryWord cin)
  (r, ((p.setNZ r).setC (carryOut a (~~~b) cin)).setV (subOverflow a b r))

/-- `CondPassed(c)` (40_step_and_alu.md R118). -/
def condPassed (p : Cpsr) : Cond → Bool
  | .eq => p.z
  | .ne => !p.z
  | .cs => p.c
  | .cc => !p.c
  | .mi => p.n
  | .pl => !p.n
  | .vs => p.v
  | .vc => !p.v
  | .hi => p.c && !p.z
  | .ls => !p.c || p.z
  | .ge => p.n == p.v
  | .lt => p.n != p.v
  | .gt => !p.z && p.n == p.v
  | .le => p.z || p.n != p.v

/-- Write the sum of `AddWithFlags` to a register, and its flags. -/
def State.writeAdd (s : State) (rd : RegNo) (a b : Word) (cin : Bool) : State :=
  let (r, p) := addWithFlags s.cpsr a b cin
  { s with cpsr := p }.writeReg rd r

/-- Write the difference of `SubWithFlags` to a register, and its flags. -/
def State.writeSub (s : State) (rd : RegNo) (a b : Word) (cin : Bool) : State :=
  let (r, p) := subWithFlags s.cpsr a b cin
  { s with cpsr := p }.writeReg rd r

/-- The flags of `AddWithFlags`, the sum discarded. -/
def State.compareAdd (s : State) (a b : Word) : State := { s with cpsr := (addWithFlags s.cpsr a b false).2 }

/-- The flags of a plain subtraction, the difference discarded. -/
def State.compareSub (s : State) (a b : Word) : State := { s with cpsr := (subWithFlags s.cpsr a b true).2 }

/-- Write a result to a register and set N and Z from it. -/
def State.writeNZ (s : State) (rd : RegNo) (r : Word) : State :=
  { s with cpsr := s.cpsr.setNZ r }.writeReg rd r

/-- Write a shifter's result to a register, set N and Z from it and C to the shifter's carry. -/
def State.writeShifted (s : State) (rd : RegNo) (out : Word × Bool) : State :=
  { s with cpsr := (s.cpsr.setNZ out.1).setC out.2 }.writeReg rd out.1

end Sys2Proof.Machine
end

