-- ==== Sys2Proof/Machine/Operands.lean ====
section
/-! DEFINITION. Operand forms: immediates and their scalings (30_encoding.md R94), register lists, effective addresses
(46_load_store.md), field extension and byte reversal, and the shifter (43_shift_rotate.md). -/

namespace Sys2Proof.Machine

/-! ### Immediates (30_encoding.md R94) -/

/-- `zext`, unscaled. -/
def immX1 {n : Nat} (imm : BitVec n) : Word := imm.setWidth 32

/-- `zext << 1`. -/
def immX2 {n : Nat} (imm : BitVec n) : Word := imm.setWidth 32 <<< 1

/-- `zext << 2`. -/
def immX4 {n : Nat} (imm : BitVec n) : Word := imm.setWidth 32 <<< 2

/-- A signed displacement, doubled: `sext << 1`. -/
def displacement {n : Nat} (imm : BitVec n) : Word := imm.signExtend 32 <<< 1

/-- The byte offset of branch-with-link (48_branch.md R243): the latched opcode's low 11 bits, sign-extended, above the
suffix's 11 bits, doubled. -/
def blOffset (prefixOpcode : Half) (imm11 : BitVec 11) : Word :=
  (((prefixOpcode.extractLsb 10 0).signExtend 32 <<< 11) ||| imm11.setWidth 32) <<< 1

/-! ### Register lists -/

/-- The registers of a list, ascending (47_block_transfer.md; 00_scope.md R10). -/
def regList (list : BitVec 8) : List RegNo :=
  ([0, 1, 2, 3, 4, 5, 6, 7].filter (fun i => list.getLsbD i)).map (BitVec.ofNat 4)

/-- `popcount(list)` (47_block_transfer.md). -/
def popcount (list : BitVec 8) : Nat := (regList list).length

/-! ### Effective addresses (46_load_store.md) -/

/-- `pc`, the advanced counter, which is what `x[15]` returns during an instruction (40_step_and_alu.md R111; log 9). -/
def State.pc (s : State) : Word := s.readReg pcReg

/-- `pc & 0xFFFFFFFC` (41_arithmetic.md R135, 46_load_store.md R202). -/
def State.alignedPc (s : State) : Word := s.pc &&& 0xFFFFFFFC#32

/-- Base register plus an offset. -/
def State.eaOffset (s : State) (rn : LowReg) (offset : Word) : Word := s.readReg (low rn) + offset

/-- Base register plus offset register. -/
def State.eaReg (s : State) (rn rm : LowReg) : Word := s.readReg (low rn) + s.readReg (low rm)

/-- PC-relative (46_load_store.md R202). -/
def State.eaPc (s : State) (imm8 : BitVec 8) : Word := s.alignedPc + immX4 imm8

/-- SP-relative (46_load_store.md R203, R212). -/
def State.eaSp (s : State) (imm8 : BitVec 8) : Word := s.readReg spReg + immX4 imm8

/-! ### Field extension and byte reversal (00_scope.md R7, 45_extend_reverse.md) -/

/-- `sext_8` of the low byte. -/
def sext8 (v : Word) : Word := (v.extractLsb 7 0).signExtend 32

/-- `sext_16` of the low halfword. -/
def sext16 (v : Word) : Word := (v.extractLsb 15 0).signExtend 32

/-- `zext_8` of the low byte. -/
def zext8 (v : Word) : Word := (v.extractLsb 7 0).setWidth 32

/-- `zext_16` of the low halfword. -/
def zext16 (v : Word) : Word := (v.extractLsb 15 0).setWidth 32

/-- The four bytes reversed (45_extend_reverse.md R194). -/
def revWord (v : Word) : Word :=
  v.extractLsb 7 0 ++ v.extractLsb 15 8 ++ v.extractLsb 23 16 ++ v.extractLsb 31 24

/-- The two bytes of each halfword swapped (45_extend_reverse.md R195). -/
def revHalves (v : Word) : Word :=
  v.extractLsb 23 16 ++ v.extractLsb 31 24 ++ v.extractLsb 7 0 ++ v.extractLsb 15 8

/-- The bytes of the low halfword swapped, then sign-extended (45_extend_reverse.md R196). -/
def revSigned (v : Word) : Word := (v.extractLsb 7 0 ++ v.extractLsb 15 8 : Half).signExtend 32

/-! ### The shifter: result and carry for every amount (43_shift_rotate.md)

`c` is the carry flag before the instruction. -/

/-- A word filled with bit 31 of `v`. -/
def signFill (v : Word) : Word := if v.getLsbD 31 then 0xFFFFFFFF#32 else 0#32

/-- LSL(1) (43_shift_rotate.md R170). -/
def lslImm (v : Word) (imm5 : BitVec 5) (c : Bool) : Word × Bool :=
  if imm5 = 0#5 then (v, c) else (v <<< imm5.toNat, v.getLsbD (32 - imm5.toNat))

/-- LSR(1) (43_shift_rotate.md R172): immediate 0 is a shift by 32. -/
def lsrImm (v : Word) (imm5 : BitVec 5) : Word × Bool :=
  if imm5 = 0#5 then (0#32, v.getLsbD 31) else (v >>> imm5.toNat, v.getLsbD (imm5.toNat - 1))

/-- ASR(1) (43_shift_rotate.md R174): immediate 0 is a shift by 32. -/
def asrImm (v : Word) (imm5 : BitVec 5) : Word × Bool :=
  if imm5 = 0#5 then (signFill v, v.getLsbD 31) else (v.sshiftRight imm5.toNat, v.getLsbD (imm5.toNat - 1))

/-- The amount of a register shift: the low byte of the amount register (43_shift_rotate.md, conventions). -/
def shiftAmount (amount : Word) : Nat := (amount.extractLsb 7 0).toNat

/-- LSL(2) (43_shift_rotate.md R171). -/
def lslReg (v : Word) (s : Nat) (c : Bool) : Word × Bool :=
  if s = 0 then (v, c)
  else if s < 32 then (v <<< s, v.getLsbD (32 - s))
  else if s = 32 then (0#32, v.getLsbD 0)
  else (0#32, false)

/-- LSR(2) (43_shift_rotate.md R173). -/
def lsrReg (v : Word) (s : Nat) (c : Bool) : Word × Bool :=
  if s = 0 then (v, c)
  else if s < 32 then (v >>> s, v.getLsbD (s - 1))
  else if s = 32 then (0#32, v.getLsbD 31)
  else (0#32, false)

/-- ASR(2) (43_shift_rotate.md R175). -/
def asrReg (v : Word) (s : Nat) (c : Bool) : Word × Bool :=
  if s = 0 then (v, c)
  else if s < 32 then (v.sshiftRight s, v.getLsbD (s - 1))
  else (signFill v, v.getLsbD 31)

/-- ROR (43_shift_rotate.md R176). -/
def rorReg (v : Word) (s : Nat) (c : Bool) : Word × Bool :=
  if s = 0 then (v, c)
  else
    let t := s % 32
    if t = 0 then (v, v.getLsbD 31)
    else ((v >>> t) ||| (v <<< (32 - t)), v.getLsbD (t - 1))

end Sys2Proof.Machine
end

