-- ==== Sys2Proof/Machine/Arithmetic.lean ====
section
/-! DEFINITION. The arithmetic instructions (41_arithmetic.md R130 to R148). -/

namespace Sys2Proof.Machine

/-- ADC (R130): the carry-in is the old C. -/
def execAdc (rd rm : LowReg) (s : State) : Result :=
  .next (s.writeAdd (low rd) (s.readReg (low rd)) (s.readReg (low rm)) s.cpsr.c)

/-- ADD(1) (R131). -/
def execAdd1 (rd rn : LowReg) (imm3 : BitVec 3) (s : State) : Result :=
  .next (s.writeAdd (low rd) (s.readReg (low rn)) (immX1 imm3) false)

/-- ADD(2) (R132). -/
def execAdd2 (rd : LowReg) (imm8 : BitVec 8) (s : State) : Result :=
  .next (s.writeAdd (low rd) (s.readReg (low rd)) (immX1 imm8) false)

/-- ADD(3) (R133). -/
def execAdd3 (rd rn rm : LowReg) (s : State) : Result :=
  .next (s.writeAdd (low rd) (s.readReg (low rn)) (s.readReg (low rm)) false)

/-- The address-forming and stack-adjusting additions: flags only if `ADDR_ARITH_SETS_FLAGS` (R134 to R137, D8). -/
def State.writeAddressAdd (s : State) (rd : RegNo) (a b : Word) : State :=
  if s.params.addrArithSetsFlags then s.writeAdd rd a b false else s.writeReg rd (a + b)

/-- The stack-adjusting subtraction: flags only if `ADDR_ARITH_SETS_FLAGS` (R141, D8). -/
def State.writeAddressSub (s : State) (rd : RegNo) (a b : Word) : State :=
  if s.params.addrArithSetsFlags then s.writeSub rd a b true else s.writeReg rd (a - b)

/-- ADD(4) (R134): any registers; register 15 as destination takes the plain sum. -/
def execAdd4 (rd rm : RegNo) (s : State) : Result :=
  .next (s.writeAddressAdd rd (s.readReg rd) (s.readReg rm))

/-- ADD(5) (R135): the base is the advanced counter with bits 1 and 0 cleared. -/
def execAdd5 (rd : LowReg) (imm8 : BitVec 8) (s : State) : Result :=
  .next (s.writeAddressAdd (low rd) s.alignedPc (immX4 imm8))

/-- ADD(6) (R136). -/
def execAdd6 (rd : LowReg) (imm8 : BitVec 8) (s : State) : Result :=
  .next (s.writeAddressAdd (low rd) (s.readReg spReg) (immX4 imm8))

/-- ADD(7) (R137). -/
def execAdd7 (imm7 : BitVec 7) (s : State) : Result :=
  .next (s.writeAddressAdd spReg (s.readReg spReg) (immX4 imm7))

/-- SUB(1) (R138). -/
def execSub1 (rd rn : LowReg) (imm3 : BitVec 3) (s : State) : Result :=
  .next (s.writeSub (low rd) (s.readReg (low rn)) (immX1 imm3) true)

/-- SUB(2) (R139). -/
def execSub2 (rd : LowReg) (imm8 : BitVec 8) (s : State) : Result :=
  .next (s.writeSub (low rd) (s.readReg (low rd)) (immX1 imm8) true)

/-- SUB(3) (R140). -/
def execSub3 (rd rn rm : LowReg) (s : State) : Result :=
  .next (s.writeSub (low rd) (s.readReg (low rn)) (s.readReg (low rm)) true)

/-- SUB(4) (R141). -/
def execSub4 (imm7 : BitVec 7) (s : State) : Result :=
  .next (s.writeAddressSub spReg (s.readReg spReg) (immX4 imm7))

/-- SBC (R142): the carry-in is the old C. -/
def execSbc (rd rm : LowReg) (s : State) : Result :=
  .next (s.writeSub (low rd) (s.readReg (low rd)) (s.readReg (low rm)) s.cpsr.c)

/-- NEG (R143). -/
def execNeg (rd rm : LowReg) (s : State) : Result :=
  .next (s.writeSub (low rd) 0#32 (s.readReg (low rm)) true)

/-- CMN (R144). -/
def execCmn (rn rm : LowReg) (s : State) : Result :=
  .next (s.compareAdd (s.readReg (low rn)) (s.readReg (low rm)))

/-- CMP(1) (R145). -/
def execCmp1 (rn : LowReg) (imm8 : BitVec 8) (s : State) : Result :=
  .next (s.compareSub (s.readReg (low rn)) (immX1 imm8))

/-- CMP(2) (R146). -/
def execCmp2 (rn rm : LowReg) (s : State) : Result :=
  .next (s.compareSub (s.readReg (low rn)) (s.readReg (low rm)))

/-- CMP(3) (R147): any registers. -/
def execCmp3 (rn rm : RegNo) (s : State) : Result :=
  .next (s.compareSub (s.readReg rn) (s.readReg rm))

/-- MUL (R148): the low 32 bits of the product. Whether the row is there (`HAS_MUL`) is the decoder's to say. -/
def execMul (rd rm : LowReg) (s : State) : Result :=
  .next (s.writeNZ (low rd) (s.readReg (low rd) * s.readReg (low rm)))

end Sys2Proof.Machine
end

