-- ==== Sys2Proof/Machine/Block.lean ====
section
/-! DEFINITION. Block transfer and stack instructions (47_block_transfer.md R230 to R233). -/

namespace Sys2Proof.Machine

/-- Load the listed registers from ascending words at `a`; answers the address after the last word. -/
def loadRegs : List RegNo → Word → State → Word × State
  | [], a, s => (a, s)
  | r :: rs, a, s =>
    let (v, t) := memRead4 s a
    loadRegs rs (a + 4#32) (t.writeReg r v)

/-- Store the listed registers to ascending words at `a`; answers the address after the last word. -/
def storeRegs : List RegNo → Word → State → Word × State
  | [], a, s => (a, s)
  | r :: rs, a, s => storeRegs rs (a + 4#32) (memWrite4 s a (s.readReg r))

/-- LDMIA (R230): the base is written last, always. -/
def execLdmia (rn : LowReg) (list : BitVec 8) (s : State) : Result :=
  let (a, t) := loadRegs (regList list) (s.readReg (low rn)) s
  .next (t.writeReg (low rn) a)

/-- STMIA (R231): the base is written last, always. -/
def execStmia (rn : LowReg) (list : BitVec 8) (s : State) : Result :=
  let (a, t) := storeRegs (regList list) (s.readReg (low rn)) s
  .next (t.writeReg (low rn) a)

/-- The stack pointer after a PUSH: `x[13] - 4#32 * n`, the byte count first (R232). -/
def State.pushedSp (s : State) (r : Bool) (list : BitVec 8) : Word :=
  s.readReg spReg - 4#32 * BitVec.ofNat 32 (popcount list + r.toNat)

/-- PUSH (R232): the link register at the highest address, the stack pointer written last. -/
def execPush (r : Bool) (list : BitVec 8) (s : State) : Result :=
  let sp := s.pushedSp r list
  let (a, t) := storeRegs (regList list) sp s
  let t := if r then memWrite4 t a (t.readReg lrReg) else t
  .next (t.writeReg spReg sp)

/-- POP (R233): the ninth word, advanced by 2, goes to the counter; the stack pointer is written last. -/
def execPop (r : Bool) (list : BitVec 8) (s : State) : Result :=
  let (a, t) := loadRegs (regList list) (s.readReg spReg) s
  if r then
    let (v, u) := memRead4 t a
    .next ((u.writeReg pcReg (v + 2#32)).writeReg spReg (a + 4#32))
  else .next (t.writeReg spReg a)

end Sys2Proof.Machine
end

