-- ==== Sys2Proof/Machine/Branch.lean ====
section
/-! DEFINITION. The branch instructions (48_branch.md R240 to R245). A value `T + 2` written to register 15 makes `T`
the next fetch address. -/

namespace Sys2Proof.Machine

/-- B(1) (R240). -/
def execB1 (cond : Cond) (imm8 : BitVec 8) (s : State) : Result :=
  .next (if condPassed s.cpsr cond then s.writeReg pcReg (s.pc + 2#32 + displacement imm8) else s)

/-- B(2) (R241). -/
def execB2 (imm11 : BitVec 11) (s : State) : Result :=
  .next (s.writeReg pcReg (s.pc + 2#32 + displacement imm11))

/-- The opcode of a BL prefix, which is what the latch holds (R242: "the whole 16-bit opcode"). -/
def blPrefixOpcode (imm11 : BitVec 11) : Half := 0b11110#5 ++ imm11

/-- BL prefix (R242). -/
def execBlPrefix (imm11 : BitVec 11) (s : State) : Result :=
  .next { s with latch := some (blPrefixOpcode imm11) }

/-- BL suffix (R243): refused with the latch empty, as the rule says (93_implementation_defined.md U3; log 8). -/
def execBlSuffix (imm11 : BitVec 11) (s : State) : Result :=
  match s.latch with
  | none => .refused .blSuffixLatchEmpty
  | some prefixOpcode =>
    .next { (s.writeReg lrReg (s.pc - 2#32)).writeReg pcReg (s.pc + blOffset prefixOpcode imm11) with latch := none }

/-- BLX(2) (R244): the target is read before the link register is written. -/
def execBlx2 (rm : RegNo) (s : State) : Result :=
  let t := s.readReg rm
  if t.getLsbD 0 then .next ((s.writeReg lrReg (s.pc - 2#32)).writeReg pcReg (t + 2#32))
  else .next (s.terminate (.exitThumb .blx))

/-- BX (R245). -/
def execBx (rm : RegNo) (s : State) : Result :=
  let t := s.readReg rm
  if t.getLsbD 0 then .next (s.writeReg pcReg (t + 2#32))
  else .next (s.terminate (.exitThumb .bx))

end Sys2Proof.Machine
end

