-- ==== Sys2Proof/Machine/LoadStore.lean ====
section
/-! DEFINITION. The single load and store instructions (46_load_store.md R200 to R217). -/

namespace Sys2Proof.Machine

/-! Loads: the effective address first, then the register. -/

/-- Load the word at `ea` into `rd`. -/
def State.loadWord (s : State) (rd : LowReg) (ea : Word) : State :=
  let (v, s) := memRead4 s ea
  s.writeReg (low rd) v

/-- Load the halfword at `ea` into `rd`, extended by `extend`. -/
def State.loadHalf (s : State) (rd : LowReg) (ea : Word) (extend : Word → Word) : State :=
  let (v, s) := memRead2 s ea
  s.writeReg (low rd) (extend v)

/-- Load the byte at `ea` into `rd`, extended by `extend`. -/
def State.loadByteInto (s : State) (rd : LowReg) (ea : Word) (extend : Byte → Word) : State :=
  let (b, s) := loadByte s ea
  s.writeReg (low rd) (extend b)

/-- LDR(1) (R200). -/
def execLdr1 (rd rn : LowReg) (imm5 : BitVec 5) (s : State) : Result :=
  .next (s.loadWord rd (s.eaOffset rn (immX4 imm5)))

/-- LDR(2) (R201). -/
def execLdr2 (rd rn rm : LowReg) (s : State) : Result :=
  .next (s.loadWord rd (s.eaReg rn rm))

/-- LDR(3) (R202). -/
def execLdr3 (rd : LowReg) (imm8 : BitVec 8) (s : State) : Result :=
  .next (s.loadWord rd (s.eaPc imm8))

/-- LDR(4) (R203). -/
def execLdr4 (rd : LowReg) (imm8 : BitVec 8) (s : State) : Result :=
  .next (s.loadWord rd (s.eaSp imm8))

/-- LDRB(1) (R204). -/
def execLdrb1 (rd rn : LowReg) (imm5 : BitVec 5) (s : State) : Result :=
  .next (s.loadByteInto rd (s.eaOffset rn (immX1 imm5)) (·.setWidth 32))

/-- LDRB(2) (R205). -/
def execLdrb2 (rd rn rm : LowReg) (s : State) : Result :=
  .next (s.loadByteInto rd (s.eaReg rn rm) (·.setWidth 32))

/-- LDRH(1) (R206). -/
def execLdrh1 (rd rn : LowReg) (imm5 : BitVec 5) (s : State) : Result :=
  .next (s.loadHalf rd (s.eaOffset rn (immX2 imm5)) zext16)

/-- LDRH(2) (R207). -/
def execLdrh2 (rd rn rm : LowReg) (s : State) : Result :=
  .next (s.loadHalf rd (s.eaReg rn rm) zext16)

/-- LDRSB (R208). -/
def execLdrsb (rd rn rm : LowReg) (s : State) : Result :=
  .next (s.loadByteInto rd (s.eaReg rn rm) (·.signExtend 32))

/-- LDRSH (R209). -/
def execLdrsh (rd rn rm : LowReg) (s : State) : Result :=
  .next (s.loadHalf rd (s.eaReg rn rm) sext16)

/-! Stores: the value is the register's value before the instruction; nothing is written back. -/

/-- STR(1) (R210). -/
def execStr1 (rd rn : LowReg) (imm5 : BitVec 5) (s : State) : Result :=
  .next (memWrite4 s (s.eaOffset rn (immX4 imm5)) (s.readReg (low rd)))

/-- STR(2) (R211). -/
def execStr2 (rd rn rm : LowReg) (s : State) : Result :=
  .next (memWrite4 s (s.eaReg rn rm) (s.readReg (low rd)))

/-- STR(3) (R212). -/
def execStr3 (rd : LowReg) (imm8 : BitVec 8) (s : State) : Result :=
  .next (memWrite4 s (s.eaSp imm8) (s.readReg (low rd)))

/-- STRB(1) (R213). -/
def execStrb1 (rd rn : LowReg) (imm5 : BitVec 5) (s : State) : Result :=
  .next (storeByte s (s.eaOffset rn (immX1 imm5)) ((s.readReg (low rd)).extractLsb 7 0))

/-- STRB(2) (R214). -/
def execStrb2 (rd rn rm : LowReg) (s : State) : Result :=
  .next (storeByte s (s.eaReg rn rm) ((s.readReg (low rd)).extractLsb 7 0))

/-- STRH(1) (R215). -/
def execStrh1 (rd rn : LowReg) (imm5 : BitVec 5) (s : State) : Result :=
  .next (memWrite2 s (s.eaOffset rn (immX2 imm5)) ((s.readReg (low rd)).extractLsb 15 0))

/-- STRH(2) (R216). -/
def execStrh2 (rd rn rm : LowReg) (s : State) : Result :=
  .next (memWrite2 s (s.eaReg rn rm) ((s.readReg (low rd)).extractLsb 15 0))

end Sys2Proof.Machine
end

