-- ==== Sys2Proof/Machine/Logical.lean ====
section
/-! DEFINITION. The logical instructions (42_logical.md R160 to R165): N and Z written, C and V kept. -/

namespace Sys2Proof.Machine

/-- AND (R160). -/
def execAnd (rd rm : LowReg) (s : State) : Result :=
  .next (s.writeNZ (low rd) (s.readReg (low rd) &&& s.readReg (low rm)))

/-- ORR (R161). -/
def execOrr (rd rm : LowReg) (s : State) : Result :=
  .next (s.writeNZ (low rd) (s.readReg (low rd) ||| s.readReg (low rm)))

/-- EOR (R162). -/
def execEor (rd rm : LowReg) (s : State) : Result :=
  .next (s.writeNZ (low rd) (s.readReg (low rd) ^^^ s.readReg (low rm)))

/-- BIC (R163). -/
def execBic (rd rm : LowReg) (s : State) : Result :=
  .next (s.writeNZ (low rd) (s.readReg (low rd) &&& ~~~s.readReg (low rm)))

/-- MVN (R164). -/
def execMvn (rd rm : LowReg) (s : State) : Result :=
  .next (s.writeNZ (low rd) (~~~s.readReg (low rm)))

/-- TST (R165): the result is discarded. -/
def execTst (rn rm : LowReg) (s : State) : Result :=
  .next { s with cpsr := s.cpsr.setNZ (s.readReg (low rn) &&& s.readReg (low rm)) }

end Sys2Proof.Machine
end

