-- ==== Sys2Proof/Machine/Move.lean ====
section
/-! DEFINITION. The move, extend and byte-reverse instructions (44_move.md R180 to R183, 45_extend_reverse.md R190 to
R196). -/

namespace Sys2Proof.Machine

/-- MOV(1) (R180). -/
def execMov1 (rd : LowReg) (imm8 : BitVec 8) (s : State) : Result :=
  .next (s.writeNZ (low rd) (immX1 imm8))

/-- MOV(2) (R181): C and V are written 0 directly. -/
def execMov2 (rd rn : LowReg) (s : State) : Result :=
  let r := s.readReg (low rn)
  .next ({ s with cpsr := ((s.cpsr.setNZ r).setC false).setV false }.writeReg (low rd) r)

/-- The value MOV(3) writes: advanced by 2 for register 15, bit 0 cleared there if `MOV_PC_CLEARS_BIT0` (R182, D34). -/
def State.mov3Value (s : State) (rd : RegNo) (v : Word) : Word :=
  if rd = pcReg then
    if s.params.movPcClearsBit0 then (v + 2#32) &&& 0xFFFFFFFE#32 else v + 2#32
  else v

/-- MOV(3) (R182). -/
def execMov3 (rd rm : RegNo) (s : State) : Result :=
  .next (s.writeReg rd (s.mov3Value rd (s.readReg rm)))

/-- CPY (R183). -/
def execCpy (rd rm : LowReg) (s : State) : Result :=
  .next (s.writeReg (low rd) (s.readReg (low rm)))

/-- SXTB (R190). -/
def execSxtb (rd rm : LowReg) (s : State) : Result :=
  .next (s.writeReg (low rd) (sext8 (s.readReg (low rm))))

/-- SXTH (R191). -/
def execSxth (rd rm : LowReg) (s : State) : Result :=
  .next (s.writeReg (low rd) (sext16 (s.readReg (low rm))))

/-- UXTB (R192). -/
def execUxtb (rd rm : LowReg) (s : State) : Result :=
  .next (s.writeReg (low rd) (zext8 (s.readReg (low rm))))

/-- UXTH (R193). -/
def execUxth (rd rm : LowReg) (s : State) : Result :=
  .next (s.writeReg (low rd) (zext16 (s.readReg (low rm))))

/-- REV (R194). -/
def execRev (rd rm : LowReg) (s : State) : Result :=
  .next (s.writeReg (low rd) (revWord (s.readReg (low rm))))

/-- REV16 (R195). -/
def execRev16 (rd rm : LowReg) (s : State) : Result :=
  .next (s.writeReg (low rd) (revHalves (s.readReg (low rm))))

/-- REVSH (R196). -/
def execRevsh (rd rm : LowReg) (s : State) : Result :=
  .next (s.writeReg (low rd) (revSigned (s.readReg (low rm))))

end Sys2Proof.Machine
end

