-- ==== Sys2Proof/Machine/Shift.lean ====
section
/-! DEFINITION. The shift and rotate instructions (43_shift_rotate.md R170 to R176): N, Z and the shifter's carry. -/

namespace Sys2Proof.Machine

/-- LSL(1) (R170). -/
def execLsl1 (rd rm : LowReg) (imm5 : BitVec 5) (s : State) : Result :=
  .next (s.writeShifted (low rd) (lslImm (s.readReg (low rm)) imm5 s.cpsr.c))

/-- LSL(2) (R171). -/
def execLsl2 (rd rs : LowReg) (s : State) : Result :=
  .next (s.writeShifted (low rd) (lslReg (s.readReg (low rd)) (shiftAmount (s.readReg (low rs))) s.cpsr.c))

/-- LSR(1) (R172). -/
def execLsr1 (rd rm : LowReg) (imm5 : BitVec 5) (s : State) : Result :=
  .next (s.writeShifted (low rd) (lsrImm (s.readReg (low rm)) imm5))

/-- LSR(2) (R173). -/
def execLsr2 (rd rs : LowReg) (s : State) : Result :=
  .next (s.writeShifted (low rd) (lsrReg (s.readReg (low rd)) (shiftAmount (s.readReg (low rs))) s.cpsr.c))

/-- ASR(1) (R174). -/
def execAsr1 (rd rm : LowReg) (imm5 : BitVec 5) (s : State) : Result :=
  .next (s.writeShifted (low rd) (asrImm (s.readReg (low rm)) imm5))

/-- ASR(2) (R175). -/
def execAsr2 (rd rs : LowReg) (s : State) : Result :=
  .next (s.writeShifted (low rd) (asrReg (s.readReg (low rd)) (shiftAmount (s.readReg (low rs))) s.cpsr.c))

/-- ROR (R176). -/
def execRor (rd rs : LowReg) (s : State) : Result :=
  .next (s.writeShifted (low rd) (rorReg (s.readReg (low rd)) (shiftAmount (s.readReg (low rs))) s.cpsr.c))

end Sys2Proof.Machine
end

