-- ==== Sys2Proof/Machine/Terminating.lean ====
section
/-! DEFINITION. The terminating instructions (49_termination.md R255 to R259) and unmatched opcodes (R260, R261): no
register, flag, latch or memory is written, and the run ends with the reason. -/

namespace Sys2Proof.Machine

/-- BKPT (R255). -/
def execBkpt (imm8 : BitVec 8) (s : State) : Result := .next (s.terminate (.bkpt imm8))

/-- SWI (R256). -/
def execSwi (imm8 : BitVec 8) (s : State) : Result := .next (s.terminate (.swi imm8))

/-- CPS (R257): none of its fields is interpreted. -/
def execCps (_imod _a _i _f : Bool) (s : State) : Result := .next (s.terminate .cps)

/-- SETEND (R258): its field is not interpreted. -/
def execSetend (_e : Bool) (s : State) : Result := .next (s.terminate .setend)

/-- The BLX(1) suffix (R259): the latch is neither read nor cleared. -/
def execBlx1Suffix (_imm11 : BitVec 11) (s : State) : Result := .next (s.terminate .blxSuffix)

/-- An opcode that no row matches (R260, R261). -/
def execUnmatched (opcode : Half) (s : State) : Result := .next (s.terminate (.undefined opcode))

end Sys2Proof.Machine
end

