-- ==== Sys2Proof/Machine/Dispatch.lean ====
section
/-! DEFINITION. Dispatch: one arm per row of the opcode table (40_step_and_alu.md R112). The state is the one after the
step's own actions: the counter advanced, the instruction counted (R111). -/

namespace Sys2Proof.Machine

def exec (i : Instr) (s : State) : Host.Outcome State Fault Refusal :=
  match i with
  | .and rd rm => Sys2Proof.Machine.execAnd rd rm s
  | .eor rd rm => Sys2Proof.Machine.execEor rd rm s
  | .lsl2 rd rs => Sys2Proof.Machine.execLsl2 rd rs s
  | .lsr2 rd rs => Sys2Proof.Machine.execLsr2 rd rs s
  | .asr2 rd rs => Sys2Proof.Machine.execAsr2 rd rs s
  | .adc rd rm => Sys2Proof.Machine.execAdc rd rm s
  | .sbc rd rm => Sys2Proof.Machine.execSbc rd rm s
  | .ror rd rs => Sys2Proof.Machine.execRor rd rs s
  | .tst rn rm => Sys2Proof.Machine.execTst rn rm s
  | .neg rd rm => Sys2Proof.Machine.execNeg rd rm s
  | .cmp2 rn rm => Sys2Proof.Machine.execCmp2 rn rm s
  | .cmn rn rm => Sys2Proof.Machine.execCmn rn rm s
  | .orr rd rm => Sys2Proof.Machine.execOrr rd rm s
  | .mul rd rm => Sys2Proof.Machine.execMul rd rm s
  | .bic rd rm => Sys2Proof.Machine.execBic rd rm s
  | .mvn rd rm => Sys2Proof.Machine.execMvn rd rm s
  | .lsl1 rd rm imm5 => Sys2Proof.Machine.execLsl1 rd rm imm5 s
  | .lsr1 rd rm imm5 => Sys2Proof.Machine.execLsr1 rd rm imm5 s
  | .asr1 rd rm imm5 => Sys2Proof.Machine.execAsr1 rd rm imm5 s
  | .add3 rd rn rm => Sys2Proof.Machine.execAdd3 rd rn rm s
  | .sub3 rd rn rm => Sys2Proof.Machine.execSub3 rd rn rm s
  | .mov2 rd rn => Sys2Proof.Machine.execMov2 rd rn s
  | .add1 rd rn imm3 => Sys2Proof.Machine.execAdd1 rd rn imm3 s
  | .sub1 rd rn imm3 => Sys2Proof.Machine.execSub1 rd rn imm3 s
  | .mov1 rd imm8 => Sys2Proof.Machine.execMov1 rd imm8 s
  | .cmp1 rn imm8 => Sys2Proof.Machine.execCmp1 rn imm8 s
  | .add2 rd imm8 => Sys2Proof.Machine.execAdd2 rd imm8 s
  | .sub2 rd imm8 => Sys2Proof.Machine.execSub2 rd imm8 s
  | .add4 rd rm => Sys2Proof.Machine.execAdd4 rd rm s
  | .cmp3 rn rm => Sys2Proof.Machine.execCmp3 rn rm s
  | .cpy rd rm => Sys2Proof.Machine.execCpy rd rm s
  | .mov3 rd rm => Sys2Proof.Machine.execMov3 rd rm s
  | .bx rm => Sys2Proof.Machine.execBx rm s
  | .blx2 rm => Sys2Proof.Machine.execBlx2 rm s
  | .ldr3 rd imm8 => Sys2Proof.Machine.execLdr3 rd imm8 s
  | .str2 rd rn rm => Sys2Proof.Machine.execStr2 rd rn rm s
  | .strh2 rd rn rm => Sys2Proof.Machine.execStrh2 rd rn rm s
  | .strb2 rd rn rm => Sys2Proof.Machine.execStrb2 rd rn rm s
  | .ldrsb rd rn rm => Sys2Proof.Machine.execLdrsb rd rn rm s
  | .ldr2 rd rn rm => Sys2Proof.Machine.execLdr2 rd rn rm s
  | .ldrh2 rd rn rm => Sys2Proof.Machine.execLdrh2 rd rn rm s
  | .ldrb2 rd rn rm => Sys2Proof.Machine.execLdrb2 rd rn rm s
  | .ldrsh rd rn rm => Sys2Proof.Machine.execLdrsh rd rn rm s
  | .str1 rd rn imm5 => Sys2Proof.Machine.execStr1 rd rn imm5 s
  | .ldr1 rd rn imm5 => Sys2Proof.Machine.execLdr1 rd rn imm5 s
  | .strb1 rd rn imm5 => Sys2Proof.Machine.execStrb1 rd rn imm5 s
  | .ldrb1 rd rn imm5 => Sys2Proof.Machine.execLdrb1 rd rn imm5 s
  | .strh1 rd rn imm5 => Sys2Proof.Machine.execStrh1 rd rn imm5 s
  | .ldrh1 rd rn imm5 => Sys2Proof.Machine.execLdrh1 rd rn imm5 s
  | .str3 rd imm8 => Sys2Proof.Machine.execStr3 rd imm8 s
  | .ldr4 rd imm8 => Sys2Proof.Machine.execLdr4 rd imm8 s
  | .add5 rd imm8 => Sys2Proof.Machine.execAdd5 rd imm8 s
  | .add6 rd imm8 => Sys2Proof.Machine.execAdd6 rd imm8 s
  | .add7 imm7 => Sys2Proof.Machine.execAdd7 imm7 s
  | .sub4 imm7 => Sys2Proof.Machine.execSub4 imm7 s
  | .sxth rd rm => Sys2Proof.Machine.execSxth rd rm s
  | .sxtb rd rm => Sys2Proof.Machine.execSxtb rd rm s
  | .uxth rd rm => Sys2Proof.Machine.execUxth rd rm s
  | .uxtb rd rm => Sys2Proof.Machine.execUxtb rd rm s
  | .push r list => Sys2Proof.Machine.execPush r list s
  | .setend e => Sys2Proof.Machine.execSetend e s
  | .cps imod a irq fiq => Sys2Proof.Machine.execCps imod a irq fiq s
  | .rev rd rm => Sys2Proof.Machine.execRev rd rm s
  | .rev16 rd rm => Sys2Proof.Machine.execRev16 rd rm s
  | .revsh rd rm => Sys2Proof.Machine.execRevsh rd rm s
  | .pop r list => Sys2Proof.Machine.execPop r list s
  | .bkpt imm8 => Sys2Proof.Machine.execBkpt imm8 s
  | .stmia rn list => Sys2Proof.Machine.execStmia rn list s
  | .ldmia rn list => Sys2Proof.Machine.execLdmia rn list s
  | .swi imm8 => Sys2Proof.Machine.execSwi imm8 s
  | .b1 cond imm8 => Sys2Proof.Machine.execB1 cond imm8 s
  | .b2 imm11 => Sys2Proof.Machine.execB2 imm11 s
  | .blx1Suffix imm11 => Sys2Proof.Machine.execBlx1Suffix imm11 s
  | .blPrefix imm11 => Sys2Proof.Machine.execBlPrefix imm11 s
  | .blSuffix imm11 => Sys2Proof.Machine.execBlSuffix imm11 s

end Sys2Proof.Machine
end

