-- ==== Sys2Proof/Machine/Cycle.lean ====
section
/-! DEFINITION. The execution step (40_step_and_alu.md R110 to R112) and one pass of the run loop
(70_reset_and_hazards.md R294). -/

namespace Sys2Proof.Machine

/-- `Dispatch(inst, pc)` (40_step_and_alu.md R112): the row's rule, or termination for an unmatched opcode. -/
def dispatch (opcode : Half) (s : State) : Result :=
  match decode s.params.hasMul opcode with
  | .ok i => exec i s
  | .error _ => execUnmatched opcode s

/-- The step's own actions before dispatch (40_step_and_alu.md R111): fetch at `x[15] - 2`, advance the counter by 2,
count the instruction. Answers the opcode and the state the instruction starts from. -/
def fetchAdvance (s : State) : Half × State :=
  let p := s.readReg pcReg
  let (opcode, t) := fetch16 s (p - 2#32)
  let t := t.writeReg pcReg (p + 2#32)
  (opcode, { t with instructions := t.instructions + 1 })

/-- `Step()` (40_step_and_alu.md R111). -/
def cycle (s : State) : Result :=
  let (opcode, t) := fetchAdvance s
  dispatch opcode t

/-- One pass of the run loop (70_reset_and_hazards.md R294; log 7): no step is taken from a state whose run has ended
(40_step_and_alu.md R110); at the ceiling the run ends; otherwise one `Step()`. -/
def loopPass (s : State) : Result :=
  match s.terminated with
  | some _ => .fault .runEnded
  | none => if insnCeiling ≤ s.instructions then .next (s.terminate .ceiling) else cycle s

/-! ### Placing an instruction for the next step -/

/-- A fetch address that every state can fetch from: the default entry cell (70_reset_and_hazards.md R291). -/
def safeCounter : Word := 0x00000C0B#32

/-- `s`, changed only where the next pass of the loop would not fetch and run the cell at its counter: a run that has
ended goes on, an instruction counter at the ceiling is zeroed, an unimplemented mode becomes the implemented one, and a
counter whose fetch address has no cell becomes the default entry (log 10). -/
def State.readyToFetch (s : State) : State :=
  let s := { s with
    terminated := none
    instructions := if insnCeiling ≤ s.instructions then 0 else s.instructions
    cpsr := { s.cpsr with mode := s.params.modeImpl } }
  match fetchKey (s.readReg pcReg - 2#32) with
  | some _ => s
  | none => s.writeReg pcReg safeCounter

/-- `s` with `opcode` in the cell that the next step fetches. -/
def State.placeOpcode (s : State) (opcode : Half) : State :=
  let s := s.readyToFetch
  match fetchKey (s.readReg pcReg - 2#32) with
  | some k => { s with mem := s.mem.setCell k opcode }
  | none => s

end Sys2Proof.Machine
end

