-- ==== Sys2Proof/Machine/Step.lean ====
section
/-! DEFINITION. The step of the machine, and where a program's instruction is placed. -/

namespace Sys2Proof.Machine

/-- One step of the machine: one pass of the run loop (70_reset_and_hazards.md R294). -/
def step (s : State) : Host.Outcome State Fault Refusal := loopPass s

/-- `s` with the instruction of `nbits` bits `w` stored where the next step fetches (log 10). -/
def State.withFetchWord (s : State) (nbits w : Nat) : State :=
  s.placeOpcode (BitVec.ofNat 16 (w % 2 ^ nbits))

end Sys2Proof.Machine
end

