-- ==== Sys2Proof/Machine/Run.lean ====
section
/-! DEFINITION. `Run()`, the sole externally invoked operation (70_reset_and_hazards.md R294). -/

namespace Sys2Proof.Machine

/-- At most `k` passes of the run loop, ending when the run has ended. -/
def runLoop : Nat → State → Result
  | 0, s => .next s
  | k + 1, s =>
    match s.terminated with
    | some _ => .next s
    | none =>
      match step s with
      | .next t => runLoop k t
      | .fault r => .fault r
      | .refused r => .refused r

/-- `Run()`: reset, then the loop until the run has ended. The ceiling ends every run within `insnCeiling + 1` passes. -/
def run (s : State) : Result := runLoop (insnCeiling + 1) s.resetAction

end Sys2Proof.Machine
end

