-- ==== Sys2Proof/Safety.lean ====
section
/-! DEFINITION. The terms claims use: the invariant of a run, what each instruction may change, and the spec's tables
written again in arithmetic (ranges of addresses, exact sums, bytes), apart from the definitions of the machine. -/

namespace Sys2Proof

open Sys2Proof.Machine

/-! ### What an instruction may change (00_scope.md R9: "state not named is unchanged") -/

/-- The registers of a block transfer list. -/
def listed (list : BitVec 8) : List RegNo :=
  (List.range 8).filterMap fun i => if list.getLsbD i then some (BitVec.ofNat 4 i) else none

/-- The registers that an instruction's rule writes. -/
def Instr.dests : Instr → List RegNo
  | .and rd _ => [low rd]
  | .eor rd _ => [low rd]
  | .lsl2 rd _ => [low rd]
  | .lsr2 rd _ => [low rd]
  | .asr2 rd _ => [low rd]
  | .adc rd _ => [low rd]
  | .sbc rd _ => [low rd]
  | .ror rd _ => [low rd]
  | .tst _ _ => []
  | .neg rd _ => [low rd]
  | .cmp2 _ _ => []
  | .cmn _ _ => []
  | .orr rd _ => [low rd]
  | .mul rd _ => [low rd]
  | .bic rd _ => [low rd]
  | .mvn rd _ => [low rd]
  | .lsl1 rd _ _ => [low rd]
  | .lsr1 rd _ _ => [low rd]
  | .asr1 rd _ _ => [low rd]
  | .add3 rd _ _ => [low rd]
  | .sub3 rd _ _ => [low rd]
  | .mov2 rd _ => [low rd]
  | .add1 rd _ _ => [low rd]
  | .sub1 rd _ _ => [low rd]
  | .mov1 rd _ => [low rd]
  | .cmp1 _ _ => []
  | .add2 rd _ => [low rd]
  | .sub2 rd _ => [low rd]
  | .add4 rd _ => [rd]
  | .cmp3 _ _ => []
  | .cpy rd _ => [low rd]
  | .mov3 rd _ => [rd]
  | .bx _ => [15#4]
  | .blx2 _ => [14#4, 15#4]
  | .ldr3 rd _ => [low rd]
  | .str2 _ _ _ => []
  | .strh2 _ _ _ => []
  | .strb2 _ _ _ => []
  | .ldrsb rd _ _ => [low rd]
  | .ldr2 rd _ _ => [low rd]
  | .ldrh2 rd _ _ => [low rd]
  | .ldrb2 rd _ _ => [low rd]
  | .ldrsh rd _ _ => [low rd]
  | .str1 _ _ _ => []
  | .ldr1 rd _ _ => [low rd]
  | .strb1 _ _ _ => []
  | .ldrb1 rd _ _ => [low rd]
  | .strh1 _ _ _ => []
  | .ldrh1 rd _ _ => [low rd]
  | .str3 _ _ => []
  | .ldr4 rd _ => [low rd]
  | .add5 rd _ => [low rd]
  | .add6 rd _ => [low rd]
  | .add7 _ => [13#4]
  | .sub4 _ => [13#4]
  | .sxth rd _ => [low rd]
  | .sxtb rd _ => [low rd]
  | .uxth rd _ => [low rd]
  | .uxtb rd _ => [low rd]
  | .push _ _ => [13#4]
  | .setend _ => []
  | .cps _ _ _ _ => []
  | .rev rd _ => [low rd]
  | .rev16 rd _ => [low rd]
  | .revsh rd _ => [low rd]
  | .pop r list => 13#4 :: listed list ++ (if r then [15#4] else [])
  | .bkpt _ => []
  | .stmia rn _ => [low rn]
  | .ldmia rn list => low rn :: listed list
  | .swi _ => []
  | .b1 _ _ => [15#4]
  | .b2 _ => [15#4]
  | .blx1Suffix _ => []
  | .blPrefix _ => []
  | .blSuffix _ => [14#4, 15#4]

/-- Whether an instruction writes N and Z (10_state.md R29); `addrArith` is `ADDR_ARITH_SETS_FLAGS`. -/
def Instr.writesNZ (addrArith : Bool) : Instr → Bool
  | .and _ _ => true
  | .eor _ _ => true
  | .lsl2 _ _ => true
  | .lsr2 _ _ => true
  | .asr2 _ _ => true
  | .adc _ _ => true
  | .sbc _ _ => true
  | .ror _ _ => true
  | .tst _ _ => true
  | .neg _ _ => true
  | .cmp2 _ _ => true
  | .cmn _ _ => true
  | .orr _ _ => true
  | .mul _ _ => true
  | .bic _ _ => true
  | .mvn _ _ => true
  | .lsl1 _ _ _ => true
  | .lsr1 _ _ _ => true
  | .asr1 _ _ _ => true
  | .add3 _ _ _ => true
  | .sub3 _ _ _ => true
  | .mov2 _ _ => true
  | .add1 _ _ _ => true
  | .sub1 _ _ _ => true
  | .mov1 _ _ => true
  | .cmp1 _ _ => true
  | .add2 _ _ => true
  | .sub2 _ _ => true
  | .add4 _ _ => addrArith
  | .cmp3 _ _ => true
  | .cpy _ _ => false
  | .mov3 _ _ => false
  | .bx _ => false
  | .blx2 _ => false
  | .ldr3 _ _ => false
  | .str2 _ _ _ => false
  | .strh2 _ _ _ => false
  | .strb2 _ _ _ => false
  | .ldrsb _ _ _ => false
  | .ldr2 _ _ _ => false
  | .ldrh2 _ _ _ => false
  | .ldrb2 _ _ _ => false
  | .ldrsh _ _ _ => false
  | .str1 _ _ _ => false
  | .ldr1 _ _ _ => false
  | .strb1 _ _ _ => false
  | .ldrb1 _ _ _ => false
  | .strh1 _ _ _ => false
  | .ldrh1 _ _ _ => false
  | .str3 _ _ => false
  | .ldr4 _ _ => false
  | .add5 _ _ => addrArith
  | .add6 _ _ => addrArith
  | .add7 _ => addrArith
  | .sub4 _ => addrArith
  | .sxth _ _ => false
  | .sxtb _ _ => false
  | .uxth _ _ => false
  | .uxtb _ _ => false
  | .push _ _ => false
  | .setend _ => false
  | .cps _ _ _ _ => false
  | .rev _ _ => false
  | .rev16 _ _ => false
  | .revsh _ _ => false
  | .pop _ _ => false
  | .bkpt _ => false
  | .stmia _ _ => false
  | .ldmia _ _ => false
  | .swi _ => false
  | .b1 _ _ => false
  | .b2 _ => false
  | .blx1Suffix _ => false
  | .blPrefix _ => false
  | .blSuffix _ => false

/-- Whether an instruction may write C (10_state.md R29). -/
def Instr.writesC (addrArith : Bool) : Instr → Bool
  | .and _ _ => false
  | .eor _ _ => false
  | .lsl2 _ _ => true
  | .lsr2 _ _ => true
  | .asr2 _ _ => true
  | .adc _ _ => true
  | .sbc _ _ => true
  | .ror _ _ => true
  | .tst _ _ => false
  | .neg _ _ => true
  | .cmp2 _ _ => true
  | .cmn _ _ => true
  | .orr _ _ => false
  | .mul _ _ => false
  | .bic _ _ => false
  | .mvn _ _ => false
  | .lsl1 _ _ _ => true
  | .lsr1 _ _ _ => true
  | .asr1 _ _ _ => true
  | .add3 _ _ _ => true
  | .sub3 _ _ _ => true
  | .mov2 _ _ => true
  | .add1 _ _ _ => true
  | .sub1 _ _ _ => true
  | .mov1 _ _ => false
  | .cmp1 _ _ => true
  | .add2 _ _ => true
  | .sub2 _ _ => true
  | .add4 _ _ => addrArith
  | .cmp3 _ _ => true
  | .cpy _ _ => false
  | .mov3 _ _ => false
  | .bx _ => false
  | .blx2 _ => false
  | .ldr3 _ _ => false
  | .str2 _ _ _ => false
  | .strh2 _ _ _ => false
  | .strb2 _ _ _ => false
  | .ldrsb _ _ _ => false
  | .ldr2 _ _ _ => false
  | .ldrh2 _ _ _ => false
  | .ldrb2 _ _ _ => false
  | .ldrsh _ _ _ => false
  | .str1 _ _ _ => false
  | .ldr1 _ _ _ => false
  | .strb1 _ _ _ => false
  | .ldrb1 _ _ _ => false
  | .strh1 _ _ _ => false
  | .ldrh1 _ _ _ => false
  | .str3 _ _ => false
  | .ldr4 _ _ => false
  | .add5 _ _ => addrArith
  | .add6 _ _ => addrArith
  | .add7 _ => addrArith
  | .sub4 _ => addrArith
  | .sxth _ _ => false
  | .sxtb _ _ => false
  | .uxth _ _ => false
  | .uxtb _ _ => false
  | .push _ _ => false
  | .setend _ => false
  | .cps _ _ _ _ => false
  | .rev _ _ => false
  | .rev16 _ _ => false
  | .revsh _ _ => false
  | .pop _ _ => false
  | .bkpt _ => false
  | .stmia _ _ => false
  | .ldmia _ _ => false
  | .swi _ => false
  | .b1 _ _ => false
  | .b2 _ => false
  | .blx1Suffix _ => false
  | .blPrefix _ => false
  | .blSuffix _ => false

/-- Whether an instruction may write V (10_state.md R29). -/
def Instr.writesV (addrArith : Bool) : Instr → Bool
  | .and _ _ => false
  | .eor _ _ => false
  | .lsl2 _ _ => false
  | .lsr2 _ _ => false
  | .asr2 _ _ => false
  | .adc _ _ => true
  | .sbc _ _ => true
  | .ror _ _ => false
  | .tst _ _ => false
  | .neg _ _ => true
  | .cmp2 _ _ => true
  | .cmn _ _ => true
  | .orr _ _ => false
  | .mul _ _ => false
  | .bic _ _ => false
  | .mvn _ _ => false
  | .lsl1 _ _ _ => false
  | .lsr1 _ _ _ => false
  | .asr1 _ _ _ => false
  | .add3 _ _ _ => true
  | .sub3 _ _ _ => true
  | .mov2 _ _ => true
  | .add1 _ _ _ => true
  | .sub1 _ _ _ => true
  | .mov1 _ _ => false
  | .cmp1 _ _ => true
  | .add2 _ _ => true
  | .sub2 _ _ => true
  | .add4 _ _ => addrArith
  | .cmp3 _ _ => true
  | .cpy _ _ => false
  | .mov3 _ _ => false
  | .bx _ => false
  | .blx2 _ => false
  | .ldr3 _ _ => false
  | .str2 _ _ _ => false
  | .strh2 _ _ _ => false
  | .strb2 _ _ _ => false
  | .ldrsb _ _ _ => false
  | .ldr2 _ _ _ => false
  | .ldrh2 _ _ _ => false
  | .ldrb2 _ _ _ => false
  | .ldrsh _ _ _ => false
  | .str1 _ _ _ => false
  | .ldr1 _ _ _ => false
  | .strb1 _ _ _ => false
  | .ldrb1 _ _ _ => false
  | .strh1 _ _ _ => false
  | .ldrh1 _ _ _ => false
  | .str3 _ _ => false
  | .ldr4 _ _ => false
  | .add5 _ _ => addrArith
  | .add6 _ _ => addrArith
  | .add7 _ => addrArith
  | .sub4 _ => addrArith
  | .sxth _ _ => false
  | .sxtb _ _ => false
  | .uxth _ _ => false
  | .uxtb _ _ => false
  | .push _ _ => false
  | .setend _ => false
  | .cps _ _ _ _ => false
  | .rev _ _ => false
  | .rev16 _ _ => false
  | .revsh _ _ => false
  | .pop _ _ => false
  | .bkpt _ => false
  | .stmia _ _ => false
  | .ldmia _ _ => false
  | .swi _ => false
  | .b1 _ _ => false
  | .b2 _ => false
  | .blx1Suffix _ => false
  | .blPrefix _ => false
  | .blSuffix _ => false

/-- Whether an instruction makes data writes on the bus (20_memory.md R63). -/
def Instr.storesData : Instr → Bool
  | .and _ _ => false
  | .eor _ _ => false
  | .lsl2 _ _ => false
  | .lsr2 _ _ => false
  | .asr2 _ _ => false
  | .adc _ _ => false
  | .sbc _ _ => false
  | .ror _ _ => false
  | .tst _ _ => false
  | .neg _ _ => false
  | .cmp2 _ _ => false
  | .cmn _ _ => false
  | .orr _ _ => false
  | .mul _ _ => false
  | .bic _ _ => false
  | .mvn _ _ => false
  | .lsl1 _ _ _ => false
  | .lsr1 _ _ _ => false
  | .asr1 _ _ _ => false
  | .add3 _ _ _ => false
  | .sub3 _ _ _ => false
  | .mov2 _ _ => false
  | .add1 _ _ _ => false
  | .sub1 _ _ _ => false
  | .mov1 _ _ => false
  | .cmp1 _ _ => false
  | .add2 _ _ => false
  | .sub2 _ _ => false
  | .add4 _ _ => false
  | .cmp3 _ _ => false
  | .cpy _ _ => false
  | .mov3 _ _ => false
  | .bx _ => false
  | .blx2 _ => false
  | .ldr3 _ _ => false
  | .str2 _ _ _ => true
  | .strh2 _ _ _ => true
  | .strb2 _ _ _ => true
  | .ldrsb _ _ _ => false
  | .ldr2 _ _ _ => false
  | .ldrh2 _ _ _ => false
  | .ldrb2 _ _ _ => false
  | .ldrsh _ _ _ => false
  | .str1 _ _ _ => true
  | .ldr1 _ _ _ => false
  | .strb1 _ _ _ => true
  | .ldrb1 _ _ _ => false
  | .strh1 _ _ _ => true
  | .ldrh1 _ _ _ => false
  | .str3 _ _ => true
  | .ldr4 _ _ => false
  | .add5 _ _ => false
  | .add6 _ _ => false
  | .add7 _ => false
  | .sub4 _ => false
  | .sxth _ _ => false
  | .sxtb _ _ => false
  | .uxth _ _ => false
  | .uxtb _ _ => false
  | .push _ _ => true
  | .setend _ => false
  | .cps _ _ _ _ => false
  | .rev _ _ => false
  | .rev16 _ _ => false
  | .revsh _ _ => false
  | .pop _ _ => false
  | .bkpt _ => false
  | .stmia _ _ => true
  | .ldmia _ _ => false
  | .swi _ => false
  | .b1 _ _ => false
  | .b2 _ => false
  | .blx1Suffix _ => false
  | .blPrefix _ => false
  | .blSuffix _ => false

/-- Whether an instruction can end the run (60_exceptions.md R272). -/
def Instr.mayTerminate : Instr → Bool
  | .and _ _ => false
  | .eor _ _ => false
  | .lsl2 _ _ => false
  | .lsr2 _ _ => false
  | .asr2 _ _ => false
  | .adc _ _ => false
  | .sbc _ _ => false
  | .ror _ _ => false
  | .tst _ _ => false
  | .neg _ _ => false
  | .cmp2 _ _ => false
  | .cmn _ _ => false
  | .orr _ _ => false
  | .mul _ _ => false
  | .bic _ _ => false
  | .mvn _ _ => false
  | .lsl1 _ _ _ => false
  | .lsr1 _ _ _ => false
  | .asr1 _ _ _ => false
  | .add3 _ _ _ => false
  | .sub3 _ _ _ => false
  | .mov2 _ _ => false
  | .add1 _ _ _ => false
  | .sub1 _ _ _ => false
  | .mov1 _ _ => false
  | .cmp1 _ _ => false
  | .add2 _ _ => false
  | .sub2 _ _ => false
  | .add4 _ _ => false
  | .cmp3 _ _ => false
  | .cpy _ _ => false
  | .mov3 _ _ => false
  | .bx _ => true
  | .blx2 _ => true
  | .ldr3 _ _ => false
  | .str2 _ _ _ => false
  | .strh2 _ _ _ => false
  | .strb2 _ _ _ => false
  | .ldrsb _ _ _ => false
  | .ldr2 _ _ _ => false
  | .ldrh2 _ _ _ => false
  | .ldrb2 _ _ _ => false
  | .ldrsh _ _ _ => false
  | .str1 _ _ _ => false
  | .ldr1 _ _ _ => false
  | .strb1 _ _ _ => false
  | .ldrb1 _ _ _ => false
  | .strh1 _ _ _ => false
  | .ldrh1 _ _ _ => false
  | .str3 _ _ => false
  | .ldr4 _ _ => false
  | .add5 _ _ => false
  | .add6 _ _ => false
  | .add7 _ => false
  | .sub4 _ => false
  | .sxth _ _ => false
  | .sxtb _ _ => false
  | .uxth _ _ => false
  | .uxtb _ _ => false
  | .push _ _ => false
  | .setend _ => true
  | .cps _ _ _ _ => true
  | .rev _ _ => false
  | .rev16 _ _ => false
  | .revsh _ _ => false
  | .pop _ _ => false
  | .bkpt _ => true
  | .stmia _ _ => false
  | .ldmia _ _ => false
  | .swi _ => true
  | .b1 _ _ => false
  | .b2 _ => false
  | .blx1Suffix _ => true
  | .blPrefix _ => false
  | .blSuffix _ => false

/-- The truth table of the conditions (95_test_vectors.md section 9): bit `f` of the word is the column
`f = N*8 + Z*4 + C*2 + V`. -/
def condTruth : Cond → BitVec 16
  | .eq => 0xF0F0#16
  | .ne => 0x0F0F#16
  | .cs => 0xCCCC#16
  | .cc => 0x3333#16
  | .mi => 0xFF00#16
  | .pl => 0x00FF#16
  | .vs => 0xAAAA#16
  | .vc => 0x5555#16
  | .hi => 0x0C0C#16
  | .ls => 0xF3F3#16
  | .ge => 0xAA55#16
  | .lt => 0x55AA#16
  | .gt => 0x0A05#16
  | .le => 0xF5FA#16

namespace Machine

/-! ### The invariant -/

/-- What every step keeps: memory in canonical form, inside ROM and RAM (10_state.md R32); the mode, T, I and F as reset
left them (R27, R28); the latch empty or holding a BL prefix (R33, 48_branch.md R242); the instruction counter within
the ceiling (70_reset_and_hazards.md R294). -/
structure State.Inv (s : State) : Prop where
  memory : s.mem.wf
  arrays : s.mem.inArrays
  mode : s.implemented
  thumb : s.cpsr.t = true
  irqMasked : s.cpsr.i = true
  fiqMasked : s.cpsr.f = true
  latch : ∀ w, s.latch = some w → w.toNat / 2048 = 0b11110
  counted : s.instructions ≤ 500000

/-! ### Two states that differ only in what the spec says has no effect -/

/-- `t` differs from `s` at most in the fetch, read and write counters (10_state.md R34: "observational only"). -/
def sameButCounters (s t : State) : Prop :=
  t = { s with fetches := t.fetches, reads := t.reads, writes := t.writes }

/-- `t` differs from `s` at most in the hidden shared-bank registers 13 and 14 (10_state.md R20). -/
def sameButHidden (s t : State) : Prop :=
  t = { s with general := t.general } ∧
    ∀ (k : Nat) (hk : k < 16), k ≠ 13 → k ≠ 14 → t.general[k]'hk = s.general[k]'hk

/-- Two answers are of one kind, with related next states or the same reason. -/
def answersRelated (R : State → State → Prop) : Result → Result → Prop
  | .next s, .next t => R s t
  | .fault a, .fault b => a = b
  | .refused a, .refused b => a = b
  | _, _ => False

/-! ### Exact arithmetic -/

/-- N and Z from a result (40_step_and_alu.md R113). -/
def nzOf (p : Cpsr) (r : Word) : Cpsr := { p with n := decide (2 ^ 31 ≤ r.toNat), z := decide (r.toNat = 0) }

/-- The 33-bit sum `a + b + cin`, narrowed. -/
def sumOf (a b : Word) (cin : Bool) : Word := BitVec.ofNat 32 (a.toNat + b.toNat + cin.toNat)

/-- The flags of an addition (40_step_and_alu.md R113 to R116): C is the carry out of the 33-bit sum, V by sign bits. -/
def sumFlags (p : Cpsr) (a b : Word) (cin : Bool) : Cpsr :=
  { nzOf p (sumOf a b cin) with
    c := decide (2 ^ 32 ≤ a.toNat + b.toNat + cin.toNat)
    v := a.msb == b.msb && (sumOf a b cin).msb != b.msb }

/-- The difference `a - b - (1 - cin)`, narrowed. -/
def differenceOf (a b : Word) (cin : Bool) : Word := BitVec.ofInt 32 ((a.toNat : Int) - b.toNat - (1 - cin.toNat : Nat))

/-- The flags of a subtraction (40_step_and_alu.md R113 to R115, R117): C = 1 means no borrow, V by sign bits. -/
def differenceFlags (p : Cpsr) (a b : Word) (cin : Bool) : Cpsr :=
  { nzOf p (differenceOf a b cin) with
    c := decide (b.toNat + (1 - cin.toNat) ≤ a.toNat)
    v := a.msb != b.msb && (differenceOf a b cin).msb == b.msb }

/-- A register takes a sum, the flags are the sum's. -/
def State.addInto (s : State) (rd : RegNo) (a b : Word) (cin : Bool) : State :=
  { s.writeReg rd (sumOf a b cin) with cpsr := sumFlags s.cpsr a b cin }

/-- A register takes a difference, the flags are the difference's. -/
def State.subInto (s : State) (rd : RegNo) (a b : Word) (cin : Bool) : State :=
  { s.writeReg rd (differenceOf a b cin) with cpsr := differenceFlags s.cpsr a b cin }

/-- A register takes a result, N and Z are the result's. -/
def State.nzInto (s : State) (rd : RegNo) (r : Word) : State :=
  { s.writeReg rd r with cpsr := nzOf s.cpsr r }

/-- A register takes a shifted value, N and Z are the value's, C is the last bit shifted out. -/
def State.shiftInto (s : State) (rd : RegNo) (r : Word) (c : Bool) : State :=
  { s.writeReg rd r with cpsr := { nzOf s.cpsr r with c := c } }

/-- Byte `j` of a word, byte 0 the least significant. -/
def byteOf (v : Word) (j : Nat) : Byte := BitVec.ofNat 8 (v.toNat / 256 ^ j)

/-! ### The address map by ranges (20_memory.md R67) -/

/-- The address of MAMCR. -/
abbrev mamcrAt : Nat := 0xE01FC000

/-- Whether a data access reads the array byte of its own address: ROM 0 to 0x7FFF, RAM 0x40000000 to 0x40001FFF. -/
abbrev readableKey (k : Nat) : Prop := k ≤ 0x7FFF ∨ (0x40000000 ≤ k ∧ k ≤ 0x40001FFF)

/-- Whether a data access writes the array byte of its own address: the two writable ranges of RAM, as bytes. -/
abbrev writableKey (k : Nat) : Prop :=
  (0x40000000 ≤ k ∧ k ≤ 0x40000029) ∨ (0x40000C00 ≤ k ∧ k ≤ 0x40001FFF)

/-- What a byte load at `a` sees. -/
def State.mapByte (s : State) (a : Word) : Byte :=
  if readableKey a.toNat then s.mem.byte a.toNat
  else if a.toNat = mamcrAt then byteOf s.mamcr 0
  else if a.toNat = mamcrAt + 1 then byteOf s.mamcr 1
  else 0#8

/-- What a 16-bit data read at `a` sees. -/
def State.mapHalf (s : State) (a : Word) : Half :=
  if a.toNat % 2 = 0 then s.mapByte (a + 1#32) ++ s.mapByte a else 0#16

/-- What a 32-bit data read at `a` sees. -/
def State.mapWord (s : State) (a : Word) : Word :=
  if a.toNat % 4 ≠ 0 then 0#32
  else if a.toNat = mamcrAt then s.mamcr
  else s.mapHalf (a + 2#32) ++ s.mapHalf a

/-- What a fetch at `a` sees: ROM and RAM with their mirrors, the vector window 0. -/
def State.mapFetch (s : State) (a : Word) : Half :=
  let cellAt := fun k : Nat => (s.mem.byte (k / 2 * 2 + 1) ++ s.mem.byte (k / 2 * 2) : Half)
  if a.toNat < 0x10000000 then
    if a.toNat % 0x8000 < 0x50 then 0#16 else cellAt (a.toNat % 0x8000)
  else if 0x40000000 ≤ a.toNat ∧ a.toNat < 0x50000000 then cellAt (0x40000000 + a.toNat % 0x2000)
  else 0#16

/-- `t` is `s` after a store of `width` bytes of `v` at `ea`, aligned to `width`: the writable bytes from `ea` on take the
bytes of `v`, MAMCR takes `q` if `ea` is its address, the write counter moves, and nothing else changes. -/
def StoredAt (s : State) (ea : Word) (width : Nat) (v q : Word) (t : State) : Prop :=
  (∃ m w, t = { s with mem := m, mamcr := if ea.toNat = mamcrAt then q else s.mamcr, writes := w }) ∧
    ∀ k, t.mem.byte k =
      if ea.toNat % width = 0 ∧ ea.toNat ≤ k ∧ k < ea.toNat + width ∧ writableKey k then byteOf v (k - ea.toNat)
      else s.mem.byte k

/-- `t` is `s` after a store of the byte `b` at `ea` through the 16-bit bus (46_load_store.md R217): the byte at `ea`, if
writable, takes `b`; a lane of MAMCR takes `b` and MAMCR's upper half is cleared; the read and write counters move, and
nothing else changes. -/
def ByteStoredAt (s : State) (ea : Word) (b : Byte) (t : State) : Prop :=
  (∃ m r w, t =
      { s with
        mem := m
        mamcr :=
          if ea.toNat = mamcrAt then BitVec.ofNat 32 ((byteOf s.mamcr 1).toNat * 256 + b.toNat)
          else if ea.toNat = mamcrAt + 1 then BitVec.ofNat 32 (b.toNat * 256 + (byteOf s.mamcr 0).toNat)
          else s.mamcr
        reads := r
        writes := w }) ∧
    ∀ k, t.mem.byte k = if k = ea.toNat ∧ writableKey k then b else s.mem.byte k

/-- Whether a 16-bit data read at `a` is counted: not odd and outside the read guard windows (20_memory.md R57, R62). -/
abbrev readCounted (a : Nat) : Prop :=
  a % 2 = 0 ∧ ¬ (0x40001FFF < a ∧ a < 0x50000000) ∧ ¬ (0x7FFF < a ∧ a < 0x10000000)

/-- Whether a 16-bit data write at `a` is counted: not odd and outside the write guard windows (20_memory.md R57, R62). -/
abbrev writeCounted (a : Nat) : Prop :=
  a % 2 = 0 ∧ ¬ (0x40001FFF < a ∧ a < 0x50000000) ∧ ¬ (0x40000028 < a ∧ a < 0x40000C00)

/-! ### Block transfers by slots (47_block_transfer.md)

Bit `i` of a nine-bit `slots`, `i` in 0 to 7, lists register `i`; bit 8 is the optional ninth word. -/

/-- The number of slots listed below `i`. -/
def countBelow (slots : BitVec 9) (i : Nat) : Nat := ((List.range i).filter fun j => slots.getLsbD j).length

/-- The address of slot `i`: four bytes for every slot listed below it, from `base` on. -/
def slotAddr (base : Word) (slots : BitVec 9) (i : Nat) : Word := base + BitVec.ofNat 32 (4 * countBelow slots i)

/-- Key `k` is a byte that the word store at `ea` writes. -/
def wordCovers (ea : Word) (k : Nat) : Prop :=
  ea.toNat % 4 = 0 ∧ ea.toNat ≤ k ∧ k < ea.toNat + 4 ∧ writableKey k

/-- `t`'s memory and MAMCR are `s`'s after storing `value i` to the address of every listed slot `i`. -/
def SlotsStored (s : State) (base : Word) (slots : BitVec 9) (value : Nat → Word) (t : State) : Prop :=
  (∀ i k, i < 9 → slots.getLsbD i → wordCovers (slotAddr base slots i) k →
      t.mem.byte k = byteOf (value i) (k - (slotAddr base slots i).toNat)) ∧
    (∀ k, (∀ i, i < 9 → slots.getLsbD i → ¬ wordCovers (slotAddr base slots i) k) → t.mem.byte k = s.mem.byte k) ∧
    (∀ i, i < 9 → slots.getLsbD i → (slotAddr base slots i).toNat = mamcrAt → t.mamcr = value i) ∧
    ((∀ i, i < 9 → slots.getLsbD i → (slotAddr base slots i).toNat ≠ mamcrAt) → t.mamcr = s.mamcr)

end Machine

end Sys2Proof
end

