-- ==== Sys2Proof/Certificates/Slice0/Obligations.lean ====
section
/-! DEFINITION. The statements about the machine, from the numbered rules of the spec. -/

open Sys2Proof Sys2Proof.Machine

/-! ### Encoding (30_encoding.md) -/

/-- Decoding an encoded well-formed instruction gives it back, every field at every value. -/
def Obligations.DecodeOfEncode : Prop :=
  ∀ (hasMul : Bool) (i : Instr), i.wellFormed hasMul = true → decode hasMul (encode i) = .ok i

/-- Whatever an opcode decodes to is well formed, and encodes to that opcode: no bit of an opcode is lost. -/
def Obligations.EncodeOfDecode : Prop :=
  ∀ (hasMul : Bool) (w : Half) (i : Instr), decode hasMul w = .ok i → i.wellFormed hasMul = true ∧ encode i = w

/-- R91: no opcode satisfies two rows, so any order of the rows gives the same decode: the instruction of the one row
that accepts the opcode, and an error where none does. -/
def Obligations.RowsExclusive : Prop :=
  (∀ (hasMul : Bool) (w : Half) (j k : Nat) (q r : Row), rows[j]? = some q → rows[k]? = some r →
      q.accepts hasMul w = true → r.accepts hasMul w = true → j = k) ∧
    (∀ (hasMul : Bool) (w : Half) (i : Instr),
      decode hasMul w = .ok i ↔ ∃ r ∈ rows, r.accepts hasMul w = true ∧ r.build w = some i)

/-- R96: the 75 rows of the opcode table, each pattern with its fields at every value. -/
def Obligations.OpcodeTable : Prop :=
  ∀ (hasMul : Bool) (d n m : LowReg) (h g : RegNo) (imm3 : BitVec 3) (imm5 : BitVec 5) (imm7 : BitVec 7)
    (imm8 : BitVec 8) (imm11 : BitVec 11) (b e f k : Bool) (c : Cond),
    let reads := fun (w : Half) (i : Instr) => decode hasMul w = .ok i
    let bit := fun x : Bool => BitVec.ofBool x
    reads (0b0100000000#10 ++ m ++ d) (.and d m) ∧
    reads (0b0100000001#10 ++ m ++ d) (.eor d m) ∧
    reads (0b0100000010#10 ++ m ++ d) (.lsl2 d m) ∧
    reads (0b0100000011#10 ++ m ++ d) (.lsr2 d m) ∧
    reads (0b0100000100#10 ++ m ++ d) (.asr2 d m) ∧
    reads (0b0100000101#10 ++ m ++ d) (.adc d m) ∧
    reads (0b0100000110#10 ++ m ++ d) (.sbc d m) ∧
    reads (0b0100000111#10 ++ m ++ d) (.ror d m) ∧
    reads (0b0100001000#10 ++ m ++ n) (.tst n m) ∧
    reads (0b0100001001#10 ++ m ++ d) (.neg d m) ∧
    reads (0b0100001010#10 ++ m ++ n) (.cmp2 n m) ∧
    reads (0b0100001011#10 ++ m ++ n) (.cmn n m) ∧
    reads (0b0100001100#10 ++ m ++ d) (.orr d m) ∧
    (hasMul = true → reads (0b0100001101#10 ++ m ++ d) (.mul d m)) ∧
    reads (0b0100001110#10 ++ m ++ d) (.bic d m) ∧
    reads (0b0100001111#10 ++ m ++ d) (.mvn d m) ∧
    reads (0b00000#5 ++ imm5 ++ m ++ d) (.lsl1 d m imm5) ∧
    reads (0b00001#5 ++ imm5 ++ m ++ d) (.lsr1 d m imm5) ∧
    reads (0b00010#5 ++ imm5 ++ m ++ d) (.asr1 d m imm5) ∧
    reads (0b0001100#7 ++ m ++ n ++ d) (.add3 d n m) ∧
    reads (0b0001101#7 ++ m ++ n ++ d) (.sub3 d n m) ∧
    reads (0b0001110000#10 ++ n ++ d) (.mov2 d n) ∧
    (imm3.toNat ≠ 0 → reads (0b0001110#7 ++ imm3 ++ n ++ d) (.add1 d n imm3)) ∧
    reads (0b0001111#7 ++ imm3 ++ n ++ d) (.sub1 d n imm3) ∧
    reads (0b00100#5 ++ d ++ imm8) (.mov1 d imm8) ∧
    reads (0b00101#5 ++ n ++ imm8) (.cmp1 n imm8) ∧
    reads (0b00110#5 ++ d ++ imm8) (.add2 d imm8) ∧
    reads (0b00111#5 ++ d ++ imm8) (.sub2 d imm8) ∧
    reads (0b01000100#8 ++ bit b ++ h ++ d) (.add4 (bit b ++ d) h) ∧
    reads (0b01000101#8 ++ bit b ++ h ++ n) (.cmp3 (bit b ++ n) h) ∧
    reads (0b0100011000#10 ++ m ++ d) (.cpy d m) ∧
    (b = true ∨ 8 ≤ g.toNat → reads (0b01000110#8 ++ bit b ++ g ++ d) (.mov3 (bit b ++ d) g)) ∧
    reads (0b010001110#9 ++ h ++ 0b000#3) (.bx h) ∧
    reads (0b010001111#9 ++ h ++ 0b000#3) (.blx2 h) ∧
    reads (0b01001#5 ++ d ++ imm8) (.ldr3 d imm8) ∧
    reads (0b0101000#7 ++ m ++ n ++ d) (.str2 d n m) ∧
    reads (0b0101001#7 ++ m ++ n ++ d) (.strh2 d n m) ∧
    reads (0b0101010#7 ++ m ++ n ++ d) (.strb2 d n m) ∧
    reads (0b0101011#7 ++ m ++ n ++ d) (.ldrsb d n m) ∧
    reads (0b0101100#7 ++ m ++ n ++ d) (.ldr2 d n m) ∧
    reads (0b0101101#7 ++ m ++ n ++ d) (.ldrh2 d n m) ∧
    reads (0b0101110#7 ++ m ++ n ++ d) (.ldrb2 d n m) ∧
    reads (0b0101111#7 ++ m ++ n ++ d) (.ldrsh d n m) ∧
    reads (0b01100#5 ++ imm5 ++ n ++ d) (.str1 d n imm5) ∧
    reads (0b01101#5 ++ imm5 ++ n ++ d) (.ldr1 d n imm5) ∧
    reads (0b01110#5 ++ imm5 ++ n ++ d) (.strb1 d n imm5) ∧
    reads (0b01111#5 ++ imm5 ++ n ++ d) (.ldrb1 d n imm5) ∧
    reads (0b10000#5 ++ imm5 ++ n ++ d) (.strh1 d n imm5) ∧
    reads (0b10001#5 ++ imm5 ++ n ++ d) (.ldrh1 d n imm5) ∧
    reads (0b10010#5 ++ d ++ imm8) (.str3 d imm8) ∧
    reads (0b10011#5 ++ d ++ imm8) (.ldr4 d imm8) ∧
    reads (0b10100#5 ++ d ++ imm8) (.add5 d imm8) ∧
    reads (0b10101#5 ++ d ++ imm8) (.add6 d imm8) ∧
    reads (0b101100000#9 ++ imm7) (.add7 imm7) ∧
    reads (0b101100001#9 ++ imm7) (.sub4 imm7) ∧
    reads (0b1011001000#10 ++ m ++ d) (.sxth d m) ∧
    reads (0b1011001001#10 ++ m ++ d) (.sxtb d m) ∧
    reads (0b1011001010#10 ++ m ++ d) (.uxth d m) ∧
    reads (0b1011001011#10 ++ m ++ d) (.uxtb d m) ∧
    reads (0b1011010#7 ++ bit b ++ imm8) (.push b imm8) ∧
    reads (0b101101100101#12 ++ bit b ++ 0b000#3) (.setend b) ∧
    reads (0b10110110011#11 ++ bit b ++ 0b0#1 ++ bit e ++ bit f ++ bit k) (.cps b e f k) ∧
    reads (0b1011101000#10 ++ m ++ d) (.rev d m) ∧
    reads (0b1011101001#10 ++ m ++ d) (.rev16 d m) ∧
    reads (0b1011101011#10 ++ m ++ d) (.revsh d m) ∧
    reads (0b1011110#7 ++ bit b ++ imm8) (.pop b imm8) ∧
    reads (0b10111110#8 ++ imm8) (.bkpt imm8) ∧
    reads (0b11000#5 ++ n ++ imm8) (.stmia n imm8) ∧
    reads (0b11001#5 ++ n ++ imm8) (.ldmia n imm8) ∧
    reads (0b11011111#8 ++ imm8) (.swi imm8) ∧
    reads (0b1101#4 ++ c.code ++ imm8) (.b1 c imm8) ∧
    reads (0b11100#5 ++ imm11) (.b2 imm11) ∧
    reads (0b11101#5 ++ imm11) (.blx1Suffix imm11) ∧
    reads (0b11110#5 ++ imm11) (.blPrefix imm11) ∧
    reads (0b11111#5 ++ imm11) (.blSuffix imm11)

/-- R98: the opcodes that decode to nothing are exactly those of the listed ranges, and MUL's when `HAS_MUL` is false. -/
def Obligations.UnmatchedOpcodes : Prop :=
  ∀ (hasMul : Bool) (w : Half),
    let k := w.toNat
    (∀ i, decode hasMul w ≠ .ok i) ↔
      (0x4700 ≤ k ∧ k ≤ 0x47FF ∧ k % 8 ≠ 0) ∨ (0xB100 ≤ k ∧ k ≤ 0xB1FF) ∨ (0xB300 ≤ k ∧ k ≤ 0xB3FF) ∨
      (0xB600 ≤ k ∧ k ≤ 0xB64F) ∨ (0xB651 ≤ k ∧ k ≤ 0xB657) ∨ (0xB659 ≤ k ∧ k ≤ 0xB65F) ∨
      (0xB668 ≤ k ∧ k ≤ 0xB66F) ∨ (0xB678 ≤ k ∧ k ≤ 0xB9FF) ∨ (0xBA80 ≤ k ∧ k ≤ 0xBABF) ∨
      (0xBB00 ≤ k ∧ k ≤ 0xBBFF) ∨ (0xBF00 ≤ k ∧ k ≤ 0xBFFF) ∨ (0xDE00 ≤ k ∧ k ≤ 0xDEFF) ∨
      (hasMul = false ∧ 0x4340 ≤ k ∧ k ≤ 0x437F)

/-- Words that the spec's own examples name, at least one of each of the 23 formats of R93, decode to the
instruction that the example gives. -/
def Obligations.SampleWords : Prop :=
  decodeTableWord 16 0x07C8 = some (.lsl1 0 1 31) ∧
  decodeTableWord 16 0x1888 = some (.add3 0 1 2) ∧
  decodeTableWord 16 0x1DC8 = some (.add1 0 1 7) ∧
  decodeTableWord 16 0x3201 = some (.add2 2 1) ∧
  decodeTableWord 16 0x4148 = some (.adc 0 1) ∧
  decodeTableWord 16 0x4388 = some (.bic 0 1) ∧
  decodeTableWord 16 0x4487 = some (.add4 15 0) ∧
  decodeTableWord 16 0x46F7 = some (.mov3 15 14) ∧
  decodeTableWord 16 0x4770 = some (.bx 14) ∧
  decodeTableWord 16 0x4801 = some (.ldr3 0 1) ∧
  decodeTableWord 16 0x5488 = some (.strb2 0 1 2) ∧
  decodeTableWord 16 0x6FC8 = some (.ldr1 0 1 31) ∧
  decodeTableWord 16 0x9802 = some (.ldr4 0 2) ∧
  decodeTableWord 16 0xA002 = some (.add5 0 2) ∧
  decodeTableWord 16 0xB002 = some (.add7 2) ∧
  decodeTableWord 16 0xB248 = some (.sxtb 0 1) ∧
  decodeTableWord 16 0xBAC8 = some (.revsh 0 1) ∧
  decodeTableWord 16 0xB510 = some (.push true 0b00010000) ∧
  decodeTableWord 16 0xB658 = some (.setend true) ∧
  decodeTableWord 16 0xB662 = some (.cps false false true false) ∧
  decodeTableWord 16 0xBEAB = some (.bkpt 0xAB) ∧
  decodeTableWord 16 0xC985 = some (.ldmia 1 0b10000101) ∧
  decodeTableWord 16 0xDD01 = some (.b1 .le 1) ∧
  decodeTableWord 16 0xE3FF = some (.b2 0x3FF) ∧
  decodeTableWord 16 0xF7FF = some (.blPrefix 0x7FF)

/-! ### The step and the run (40_step_and_alu.md, 60_exceptions.md, 70_reset_and_hazards.md) -/

/-- R111, R112: a step fetches at `x[15] - 2`, writes `x[15] + 2` back, counts the instruction, and is then `exec` of
the instruction that the opcode decodes to. What the fetch sees is the map of 20_memory.md R67. -/
def Obligations.StepRunsDecoded : Prop :=
  ∀ (s : State) (i : Instr), s.terminated = none → s.instructions < 500000 →
    decode s.params.hasMul (s.mapFetch (s.readReg 15#4 - 2#32)) = .ok i →
    step s = exec i
      { s.writeReg 15#4 (s.readReg 15#4 + 2#32) with
        instructions := s.instructions + 1, fetches := s.fetches + 1 }

/-- R261: where the opcode matches no row, the step ends the run with `Undefined` of the opcode, and does nothing more
than fetch, advance and count. -/
def Obligations.UnmatchedTerminates : Prop :=
  ∀ (s : State), s.terminated = none → s.instructions < 500000 →
    (∀ i, decode s.params.hasMul (s.mapFetch (s.readReg 15#4 - 2#32)) ≠ .ok i) →
    step s = .next
      { s.writeReg 15#4 (s.readReg 15#4 + 2#32) with
        instructions := s.instructions + 1, fetches := s.fetches + 1
        terminated := some (.undefined (s.mapFetch (s.readReg 15#4 - 2#32))) }

/-- The run loop's two ends: at 500000 instructions the run ends with `Ceiling` and nothing else changes (R294), and from
a state whose run has ended no step is taken (R110; the fault is the model's form of it, log 6 and log 7). -/
def Obligations.LoopEnds : Prop :=
  ∀ s : State,
    (s.terminated = none → 500000 ≤ s.instructions → step s = .next { s with terminated := some .ceiling }) ∧
    (s.terminated ≠ none → step s = .fault .runEnded)

/-- R110: a step of a run that has not ended always answers a next state, but for a BL suffix that finds the latch empty,
which is refused (48_branch.md R243). -/
def Obligations.StepTotal : Prop :=
  ∀ s : State, s.terminated = none →
    (∃ t, step s = .next t) ∨
      (step s = .refused .blSuffixLatchEmpty ∧ s.latch = none ∧ s.instructions < 500000 ∧
        ∃ imm11, decode s.params.hasMul (s.mapFetch (s.readReg 15#4 - 2#32)) = .ok (.blSuffix imm11))

/-- R274: the state a terminating step leaves: the counter advanced, the instruction and its fetch counted, and
everything else as the previous instructions left it. -/
def Obligations.TerminatingStep : Prop :=
  ∀ (s t : State) (r : Termination), s.terminated = none → s.instructions < 500000 →
    step s = .next t → t.terminated = some r →
    t = { s.writeReg 15#4 (s.readReg 15#4 + 2#32) with
          instructions := s.instructions + 1, fetches := s.fetches + 1, terminated := some r }

/-- The invariant of a run, kept by every step from every state that has it. -/
def Obligations.StepKeepsInv : Prop :=
  ∀ s t : State, s.Inv → step s = .next t → t.Inv

/-- The invariant holds at reset: of the concrete reset state, and of the reset action on any state whose memory is
canonical and inside the arrays. -/
def Obligations.InvAtReset : Prop :=
  State.reset.Inv ∧ ∀ s : State, s.mem.wf → s.mem.inArrays → s.resetAction.Inv

/-- No step changes a byte outside the two writable ranges of RAM: not ROM, not the guarded RAM from 0x4000002A to
0x40000BFF (20_memory.md R51, R57). -/
def Obligations.StepKeepsUnwritable : Prop :=
  ∀ (s t : State) (k : Nat), step s = .next t → ¬ writableKey k → t.mem.byte k = s.mem.byte k

/-- No step changes the mode, the Thumb bit or the interrupt masks (10_state.md R27, R28; 60_exceptions.md R277, R278),
nor the parameters. -/
def Obligations.StepKeepsMode : Prop :=
  ∀ s t : State, step s = .next t →
    t.cpsr.mode = s.cpsr.mode ∧ t.cpsr.t = s.cpsr.t ∧ t.cpsr.i = s.cpsr.i ∧ t.cpsr.f = s.cpsr.f ∧ t.params = s.params

/-- R34: the fetch, read and write counters are observational only: two states that differ only in them have steps that
differ only in them. -/
def Obligations.CountersHaveNoEffect : Prop :=
  ∀ s t : State, sameButCounters s t → answersRelated sameButCounters (step s) (step t)

/-- R20: `general[13]` and `general[14]` can never be reached: two states that differ only in them have steps that differ
only in them. -/
def Obligations.HiddenRegistersUnreachable : Prop :=
  ∀ s t : State, sameButHidden s t → answersRelated sameButHidden (step s) (step t)

/-- R294: whatever the state before it and whatever ROM holds, a run ends, with a reason, after at most 500000
instructions, at exactly that many if the reason is `Ceiling`; the one exception is the refused BL suffix. -/
def Obligations.RunEnds : Prop :=
  ∀ s : State,
    (∃ t r, run s = .next t ∧ t.terminated = some r ∧ t.instructions ≤ 500000 ∧
        (r = .ceiling → t.instructions = 500000)) ∨
      run s = .refused .blSuffixLatchEmpty

/-- R290: what `Reset()` sets and what it leaves, from any state. -/
def Obligations.ResetAction : Prop :=
  ∀ s : State,
    s.resetAction.cpsr.t = true ∧ s.resetAction.cpsr.i = true ∧ s.resetAction.cpsr.f = true ∧
    s.resetAction.cpsr.mode = s.params.modeImpl ∧
    s.resetAction.cpsr.n = false ∧ s.resetAction.cpsr.z = false ∧
    s.resetAction.cpsr.c = false ∧ s.resetAction.cpsr.v = false ∧
    s.resetAction.shadow13 = s.params.resetSp ∧ s.resetAction.shadow14 = s.params.resetLr ∧
    s.resetAction.general[15] = s.params.entryPc ∧
    s.resetAction.mamcr = 0#32 ∧ s.resetAction.latch = none ∧
    s.resetAction.instructions = 0 ∧ s.resetAction.fetches = 0 ∧
    s.resetAction.reads = 0 ∧ s.resetAction.writes = 0 ∧
    s.resetAction.mem = s.mem ∧ s.resetAction.params = s.params ∧
    (∀ (k : Nat) (hk : k < 15), s.resetAction.general[k] = s.general[k])

/-! ### Registers, flags, conditions and immediates (10_state.md, 40_step_and_alu.md, 30_encoding.md) -/

/-- R22, R23: the selection function: 13 and 14 are the shadow pair, every other number the shared bank, the value stored
unchanged; in an unimplemented mode every read is 0 and every write changes nothing. -/
def Obligations.RegisterSelection : Prop :=
  ∀ (s : State) (n : RegNo) (v : Word),
    (s.cpsr.mode = s.params.modeImpl →
      s.readReg 13#4 = s.shadow13 ∧ s.readReg 14#4 = s.shadow14 ∧
      (n.toNat ≠ 13 → n.toNat ≠ 14 → s.readReg n = s.general[n.toNat]) ∧
      s.writeReg 13#4 v = { s with shadow13 := v } ∧ s.writeReg 14#4 v = { s with shadow14 := v } ∧
      (n.toNat ≠ 13 → n.toNat ≠ 14 → s.writeReg n v = { s with general := s.general.set n.toNat v }) ∧
      ∀ m : RegNo, (s.writeReg n v).readReg m = if m = n then v else s.readReg m) ∧
    (s.cpsr.mode ≠ s.params.modeImpl → s.readReg n = 0#32 ∧ s.writeReg n v = s)

/-- R114: `CarryOut` is bit 32 of the 33-bit sum. -/
def Obligations.CarryOutMeaning : Prop :=
  ∀ (a b : Word) (c : Bool), carryOut a b c = decide (2 ^ 32 ≤ a.toNat + b.toNat + c.toNat)

/-- The overflow predicates of R115, on the results of R116 and R117, say that the exact signed result leaves the 32-bit
range. -/
def Obligations.OverflowMeaning : Prop :=
  ∀ (a b : Word) (c : Bool),
    (addOverflow a b (a + b + carryWord c) = true ↔
      a.toInt + b.toInt + c.toNat < -(2 ^ 31) ∨ 2 ^ 31 ≤ a.toInt + b.toInt + c.toNat) ∧
    (subOverflow a b (a - b - (1#32 - carryWord c)) = true ↔
      a.toInt - b.toInt - (1 - c.toNat : Int) < -(2 ^ 31) ∨ 2 ^ 31 ≤ a.toInt - b.toInt - (1 - c.toNat : Int))

/-- R118, and 95_test_vectors.md section 9: the fourteen conditions on the sixteen settings of the flags. -/
def Obligations.ConditionTable : Prop :=
  ∀ (p : Cpsr) (c : Cond),
    condPassed p c = (condTruth c).getLsbD (8 * p.n.toNat + 4 * p.z.toNat + 2 * p.c.toNat + p.v.toNat)

/-- After CMP(1), CMP(2) or CMP(3) of `a` with `b`, the conditions compare `a` with `b`, unsigned and signed. -/
def Obligations.CompareThenCondition : Prop :=
  ∀ (s t : State) (i : Instr) (a b : Word),
    ((∃ n imm8, i = .cmp1 n imm8 ∧ a = s.readReg (low n) ∧ b.toNat = imm8.toNat) ∨
      (∃ n m, i = .cmp2 n m ∧ a = s.readReg (low n) ∧ b = s.readReg (low m)) ∨
      (∃ n m, i = .cmp3 n m ∧ a = s.readReg n ∧ b = s.readReg m)) →
    exec i s = .next t →
    (condPassed t.cpsr .eq = true ↔ a = b) ∧ (condPassed t.cpsr .ne = true ↔ a ≠ b) ∧
    (condPassed t.cpsr .cs = true ↔ b.toNat ≤ a.toNat) ∧ (condPassed t.cpsr .cc = true ↔ a.toNat < b.toNat) ∧
    (condPassed t.cpsr .hi = true ↔ b.toNat < a.toNat) ∧ (condPassed t.cpsr .ls = true ↔ a.toNat ≤ b.toNat) ∧
    (condPassed t.cpsr .ge = true ↔ b.toInt ≤ a.toInt) ∧ (condPassed t.cpsr .lt = true ↔ a.toInt < b.toInt) ∧
    (condPassed t.cpsr .gt = true ↔ b.toInt < a.toInt) ∧ (condPassed t.cpsr .le = true ↔ a.toInt ≤ b.toInt)

/-- R94, and the effective addresses of 46_load_store.md: the values of the immediates, the sums that wrap. -/
def Obligations.ImmediatesAndAddresses : Prop :=
  ∀ (s : State) (rn rm : LowReg) (imm3 : BitVec 3) (imm5 : BitVec 5) (imm7 : BitVec 7) (imm8 : BitVec 8)
    (imm11 : BitVec 11) (w : Half) (offset : Word),
    (immX1 imm3).toNat = imm3.toNat ∧ (immX1 imm8).toNat = imm8.toNat ∧ (immX1 imm5).toNat = imm5.toNat ∧
    (immX2 imm5).toNat = 2 * imm5.toNat ∧ (immX4 imm5).toNat = 4 * imm5.toNat ∧
    (immX4 imm7).toNat = 4 * imm7.toNat ∧ (immX4 imm8).toNat = 4 * imm8.toNat ∧
    (displacement imm8).toInt = 2 * imm8.toInt ∧ (displacement imm11).toInt = 2 * imm11.toInt ∧
    (blOffset w imm11).toInt = 4096 * (BitVec.ofNat 11 w.toNat).toInt + 2 * imm11.toNat ∧
    (s.eaOffset rn offset).toNat = ((s.readReg (low rn)).toNat + offset.toNat) % 2 ^ 32 ∧
    (s.eaReg rn rm).toNat = ((s.readReg (low rn)).toNat + (s.readReg (low rm)).toNat) % 2 ^ 32 ∧
    (s.eaPc imm8).toNat = ((s.readReg 15#4).toNat / 4 * 4 + 4 * imm8.toNat) % 2 ^ 32 ∧
    (s.eaSp imm8).toNat = ((s.readReg 13#4).toNat + 4 * imm8.toNat) % 2 ^ 32

/-! ### The address bus (20_memory.md) -/

/-- R55: a fetch sees the map of R67, ignores bit 0 of its address, and counts one fetch. -/
def Obligations.FetchMap : Prop :=
  ∀ (s : State) (a : Word),
    fetch16 s a = (s.mapFetch a, { s with fetches := s.fetches + 1 }) ∧
    s.mapFetch a = s.mapFetch (BitVec.ofNat 32 (a.toNat / 2 * 2))

/-- R56: the 32-bit fetch reads through at 0 and 4, is 0 elsewhere in the vector window and outside ROM and RAM, and is
two 16-bit fetches elsewhere. -/
def Obligations.Fetch32Map : Prop :=
  ∀ (s : State) (a : Word),
    let window := a.toNat < 0x10000000 ∧ a.toNat % 0x8000 < 0x50
    (window → (a.toNat = 0 ∨ a.toNat = 4) → fetch32 s a = (s.mapWord a, { s with reads := s.reads + 2 })) ∧
    (window → a.toNat ≠ 0 → a.toNat ≠ 4 → fetch32 s a = (0#32, s)) ∧
    (¬ window → (a.toNat < 0x10000000 ∨ (0x40000000 ≤ a.toNat ∧ a.toNat < 0x50000000)) →
      fetch32 s a = (s.mapFetch (a + 2#32) ++ s.mapFetch a, { s with fetches := s.fetches + 2 })) ∧
    (¬ window → ¬ (a.toNat < 0x10000000 ∨ (0x40000000 ≤ a.toNat ∧ a.toNat < 0x50000000)) →
      fetch32 s a = (0#32, s))

/-- R58, R60: data reads see the map of R67, and change nothing but the read counter. -/
def Obligations.DataReadMap : Prop :=
  ∀ (s : State) (a : Word),
    memRead2 s a = ((s.mapHalf a).setWidth 32,
      { s with reads := s.reads + if readCounted a.toNat then 1 else 0 }) ∧
    memRead4 s a = (s.mapWord a,
      { s with reads := s.reads +
          if a.toNat % 4 ≠ 0 then 0
          else if a.toNat = mamcrAt then 1
          else (if readCounted a.toNat then 1 else 0) + (if readCounted (a.toNat + 2) then 1 else 0) })

/-- R59, R61: data writes store to the writable bytes of the map of R67 and to MAMCR, count themselves, and change
nothing else. -/
def Obligations.DataWriteMap : Prop :=
  ∀ (s : State) (a v : Word) (h : Half), s.mem.wf →
    StoredAt s a 2 (h.setWidth 32) (h.setWidth 32) (memWrite2 s a h) ∧
    (memWrite2 s a h).writes = s.writes + (if writeCounted a.toNat then 1 else 0) ∧
    StoredAt s a 4 v v (memWrite4 s a v) ∧
    (memWrite4 s a v).writes = s.writes +
      (if a.toNat % 4 ≠ 0 then 0
       else if a.toNat = mamcrAt then 1
       else (if writeCounted a.toNat then 1 else 0) + (if writeCounted (a.toNat + 2) then 1 else 0))

/-- R30, R53: MAMCR reads back what was written, at either width; every other address of its region reads 0 and ignores
writes. -/
def Obligations.MamcrReadBack : Prop :=
  ∀ (s : State) (a v : Word) (h : Half),
    (memRead4 (memWrite4 s 0xE01FC000#32 v) 0xE01FC000#32).1 = v ∧
    ((memRead2 (memWrite4 s 0xE01FC000#32 v) 0xE01FC000#32).1).toNat = v.toNat % 65536 ∧
    ((memRead2 (memWrite2 s 0xE01FC000#32 h) 0xE01FC000#32).1).toNat = h.toNat ∧
    ((memRead4 (memWrite2 s 0xE01FC000#32 h) 0xE01FC000#32).1).toNat = h.toNat ∧
    (0xE0000000 ≤ a.toNat → a.toNat < 0xF0000000 → a.toNat ≠ 0xE01FC000 →
      (memRead2 s a).1 = 0#32 ∧ (memRead4 s a).1 = 0#32 ∧
      memWrite2 s a h = { s with writes := (memWrite2 s a h).writes } ∧
      memWrite4 s a v = { s with writes := (memWrite4 s a v).writes })

/-- R72: a halfword stored to writable RAM is what the very next fetch of its cell sees, at that address and at every
mirror of it. -/
def Obligations.FetchSeesStore : Prop :=
  ∀ (s : State) (a f : Word) (h : Half), s.mem.wf → a.toNat % 2 = 0 → writableKey a.toNat →
    0x40000000 ≤ f.toNat → f.toNat < 0x50000000 → f.toNat % 0x2000 / 2 = a.toNat % 0x2000 / 2 →
    (fetch16 (memWrite2 s a h) f).1 = h

/-! ### Results of the instructions -/

/-- ADC, ADD(1), ADD(2), ADD(3) and CMN (41_arithmetic.md R130 to R133, R144): the exact sum, narrowed, and its flags. -/
def Obligations.Additions : Prop :=
  ∀ (s : State) (rd rn rm : LowReg) (imm3 : BitVec 3) (imm8 : BitVec 8),
    let x := fun r : LowReg => s.readReg (low r)
    exec (.adc rd rm) s = .next (s.addInto (low rd) (x rd) (x rm) s.cpsr.c) ∧
    exec (.add1 rd rn imm3) s = .next (s.addInto (low rd) (x rn) (BitVec.ofNat 32 imm3.toNat) false) ∧
    exec (.add2 rd imm8) s = .next (s.addInto (low rd) (x rd) (BitVec.ofNat 32 imm8.toNat) false) ∧
    exec (.add3 rd rn rm) s = .next (s.addInto (low rd) (x rn) (x rm) false) ∧
    exec (.cmn rn rm) s = .next { s with cpsr := sumFlags s.cpsr (x rn) (x rm) false }

/-- SUB(1), SUB(2), SUB(3), SBC, NEG, CMP(1), CMP(2) and CMP(3) (R138 to R140, R142, R143, R145 to R147): the exact
difference, narrowed, and its flags. -/
def Obligations.Subtractions : Prop :=
  ∀ (s : State) (rd rn rm : LowReg) (hn hm : RegNo) (imm3 : BitVec 3) (imm8 : BitVec 8),
    let x := fun r : LowReg => s.readReg (low r)
    exec (.sub1 rd rn imm3) s = .next (s.subInto (low rd) (x rn) (BitVec.ofNat 32 imm3.toNat) true) ∧
    exec (.sub2 rd imm8) s = .next (s.subInto (low rd) (x rd) (BitVec.ofNat 32 imm8.toNat) true) ∧
    exec (.sub3 rd rn rm) s = .next (s.subInto (low rd) (x rn) (x rm) true) ∧
    exec (.sbc rd rm) s = .next (s.subInto (low rd) (x rd) (x rm) s.cpsr.c) ∧
    exec (.neg rd rm) s = .next (s.subInto (low rd) 0#32 (x rm) true) ∧
    exec (.cmp1 rn imm8) s =
      .next { s with cpsr := differenceFlags s.cpsr (x rn) (BitVec.ofNat 32 imm8.toNat) true } ∧
    exec (.cmp2 rn rm) s = .next { s with cpsr := differenceFlags s.cpsr (x rn) (x rm) true } ∧
    exec (.cmp3 hn hm) s = .next { s with cpsr := differenceFlags s.cpsr (s.readReg hn) (s.readReg hm) true }

/-- ADD(4) to ADD(7) and SUB(4) (R134 to R137, R141), at both values of `ADDR_ARITH_SETS_FLAGS`. -/
def Obligations.AddressArithmetic : Prop :=
  ∀ (s : State) (hd hm : RegNo) (rd : LowReg) (imm7 : BitVec 7) (imm8 : BitVec 8),
    let base := BitVec.ofNat 32 ((s.readReg 15#4).toNat / 4 * 4)
    let sp := s.readReg 13#4
    let off8 := BitVec.ofNat 32 (4 * imm8.toNat)
    let off7 := BitVec.ofNat 32 (4 * imm7.toNat)
    (s.params.addrArithSetsFlags = false →
      exec (.add4 hd hm) s = .next (s.writeReg hd (sumOf (s.readReg hd) (s.readReg hm) false)) ∧
      exec (.add5 rd imm8) s = .next (s.writeReg (low rd) (sumOf base off8 false)) ∧
      exec (.add6 rd imm8) s = .next (s.writeReg (low rd) (sumOf sp off8 false)) ∧
      exec (.add7 imm7) s = .next (s.writeReg 13#4 (sumOf sp off7 false)) ∧
      exec (.sub4 imm7) s = .next (s.writeReg 13#4 (differenceOf sp off7 true))) ∧
    (s.params.addrArithSetsFlags = true →
      exec (.add4 hd hm) s = .next (s.addInto hd (s.readReg hd) (s.readReg hm) false) ∧
      exec (.add5 rd imm8) s = .next (s.addInto (low rd) base off8 false) ∧
      exec (.add6 rd imm8) s = .next (s.addInto (low rd) sp off8 false) ∧
      exec (.add7 imm7) s = .next (s.addInto 13#4 sp off7 false) ∧
      exec (.sub4 imm7) s = .next (s.subInto 13#4 sp off7 true))

/-- MUL (R148): the low 32 bits of the product, the same for signed and unsigned operands; the row is there only if
`HAS_MUL`. -/
def Obligations.MultiplyResult : Prop :=
  ∀ (s : State) (rd rm : LowReg),
    let a := s.readReg (low rd)
    let b := s.readReg (low rm)
    exec (.mul rd rm) s = .next (s.nzInto (low rd) (BitVec.ofNat 32 (a.toNat * b.toNat))) ∧
    BitVec.ofNat 32 (a.toNat * b.toNat) = BitVec.ofInt 32 (a.toInt * b.toInt) ∧
    decode true (0b0100001101#10 ++ rm ++ rd) = .ok (.mul rd rm) ∧
    ∀ i, decode false (0b0100001101#10 ++ rm ++ rd) ≠ .ok i

/-- AND, ORR, EOR, BIC, MVN and TST (42_logical.md R160 to R165), bit by bit. -/
def Obligations.LogicalResults : Prop :=
  ∀ (s : State) (rd rn rm : LowReg),
    let x := fun (r : LowReg) (k : Nat) => (s.readReg (low r)).getLsbD k
    (∃ r : Word, exec (.and rd rm) s = .next (s.nzInto (low rd) r) ∧ ∀ k < 32, r.getLsbD k = (x rd k && x rm k)) ∧
    (∃ r : Word, exec (.orr rd rm) s = .next (s.nzInto (low rd) r) ∧ ∀ k < 32, r.getLsbD k = (x rd k || x rm k)) ∧
    (∃ r : Word, exec (.eor rd rm) s = .next (s.nzInto (low rd) r) ∧ ∀ k < 32, r.getLsbD k = (x rd k != x rm k)) ∧
    (∃ r : Word, exec (.bic rd rm) s = .next (s.nzInto (low rd) r) ∧ ∀ k < 32, r.getLsbD k = (x rd k && !x rm k)) ∧
    (∃ r : Word, exec (.mvn rd rm) s = .next (s.nzInto (low rd) r) ∧ ∀ k < 32, r.getLsbD k = !x rm k) ∧
    (∃ r : Word, exec (.tst rn rm) s = .next { s with cpsr := nzOf s.cpsr r } ∧
      ∀ k < 32, r.getLsbD k = (x rn k && x rm k))

/-- LSL(1) and LSL(2) (43_shift_rotate.md R170, R171): by any amount `a` the result is `v * 2^a`, narrowed, and C is the
33rd bit of `v * 2^a`, kept for amount 0. -/
def Obligations.ShiftsLeft : Prop :=
  ∀ (s : State) (rd rm : LowReg) (imm5 : BitVec 5),
    let shifted := fun (v : Word) (a : Nat) =>
      s.shiftInto (low rd) (BitVec.ofNat 32 (v.toNat * 2 ^ a))
        (if a = 0 then s.cpsr.c else decide (v.toNat * 2 ^ a / 2 ^ 32 % 2 = 1))
    exec (.lsl1 rd rm imm5) s = .next (shifted (s.readReg (low rm)) imm5.toNat) ∧
    exec (.lsl2 rd rm) s = .next (shifted (s.readReg (low rd)) ((s.readReg (low rm)).toNat % 256))

/-- LSR(1), LSR(2), ASR(1) and ASR(2) (R172 to R175): by any amount `a` the result is the value, unsigned or signed,
divided by `2^a` and rounded down, and C is the last bit shifted out, kept for amount 0; immediate 0 means 32. -/
def Obligations.ShiftsRight : Prop :=
  ∀ (s : State) (rd rm : LowReg) (imm5 : BitVec 5),
    let logical := fun (v : Word) (a : Nat) =>
      s.shiftInto (low rd) (BitVec.ofNat 32 (v.toNat / 2 ^ a))
        (if a = 0 then s.cpsr.c else decide (v.toNat / 2 ^ (a - 1) % 2 = 1))
    let arithmetic := fun (v : Word) (a : Nat) =>
      s.shiftInto (low rd) (BitVec.ofInt 32 (v.toInt / 2 ^ a))
        (if a = 0 then s.cpsr.c else decide (v.toInt / 2 ^ (a - 1) % 2 = 1))
    let amount := if imm5.toNat = 0 then 32 else imm5.toNat
    exec (.lsr1 rd rm imm5) s = .next (logical (s.readReg (low rm)) amount) ∧
    exec (.lsr2 rd rm) s = .next (logical (s.readReg (low rd)) ((s.readReg (low rm)).toNat % 256)) ∧
    exec (.asr1 rd rm imm5) s = .next (arithmetic (s.readReg (low rm)) amount) ∧
    exec (.asr2 rd rm) s = .next (arithmetic (s.readReg (low rd)) ((s.readReg (low rm)).toNat % 256))

/-- ROR (R176): bit `k` of the result is bit `k + a` of the value, modulo 32; C is bit 31 of the result, kept for
amount 0. -/
def Obligations.RotateRight : Prop :=
  ∀ (s : State) (rd rs : LowReg),
    let v := s.readReg (low rd)
    let a := (s.readReg (low rs)).toNat % 256
    ∃ r : Word,
      exec (.ror rd rs) s = .next (s.shiftInto (low rd) r (if a = 0 then s.cpsr.c else r.msb)) ∧
      ∀ k < 32, r.getLsbD k = v.getLsbD ((k + a) % 32)

/-- MOV(1), MOV(2), MOV(3) and CPY (44_move.md R180 to R183), at both values of `MOV_PC_CLEARS_BIT0`. -/
def Obligations.MoveResults : Prop :=
  ∀ (s : State) (rd rm : LowReg) (hd hm : RegNo) (imm8 : BitVec 8),
    let v := s.readReg (low rm)
    let u := s.readReg hm
    let advanced := (u.toNat + 2) % 2 ^ 32
    exec (.mov1 rd imm8) s = .next (s.nzInto (low rd) (BitVec.ofNat 32 imm8.toNat)) ∧
    exec (.mov2 rd rm) s =
      .next { s.writeReg (low rd) v with cpsr := { nzOf s.cpsr v with c := false, v := false } } ∧
    (hd.toNat ≠ 15 → exec (.mov3 hd hm) s = .next (s.writeReg hd u)) ∧
    (s.params.movPcClearsBit0 = false →
      exec (.mov3 15#4 hm) s = .next (s.writeReg 15#4 (BitVec.ofNat 32 advanced))) ∧
    (s.params.movPcClearsBit0 = true →
      exec (.mov3 15#4 hm) s = .next (s.writeReg 15#4 (BitVec.ofNat 32 (advanced / 2 * 2)))) ∧
    exec (.cpy rd rm) s = .next (s.writeReg (low rd) v)

/-- SXTB, SXTH, UXTB, UXTH, REV, REV16 and REVSH (45_extend_reverse.md R190 to R196), by value and by bytes. -/
def Obligations.ExtendsAndReverses : Prop :=
  ∀ (s : State) (rd rm : LowReg),
    let v := s.readReg (low rm)
    exec (.sxtb rd rm) s = .next (s.writeReg (low rd) (BitVec.ofInt 32 (BitVec.ofNat 8 v.toNat).toInt)) ∧
    exec (.sxth rd rm) s = .next (s.writeReg (low rd) (BitVec.ofInt 32 (BitVec.ofNat 16 v.toNat).toInt)) ∧
    exec (.uxtb rd rm) s = .next (s.writeReg (low rd) (BitVec.ofNat 32 (v.toNat % 2 ^ 8))) ∧
    exec (.uxth rd rm) s = .next (s.writeReg (low rd) (BitVec.ofNat 32 (v.toNat % 2 ^ 16))) ∧
    (∃ r : Word, exec (.rev rd rm) s = .next (s.writeReg (low rd) r) ∧
      byteOf r 0 = byteOf v 3 ∧ byteOf r 1 = byteOf v 2 ∧ byteOf r 2 = byteOf v 1 ∧ byteOf r 3 = byteOf v 0) ∧
    (∃ r : Word, exec (.rev16 rd rm) s = .next (s.writeReg (low rd) r) ∧
      byteOf r 0 = byteOf v 1 ∧ byteOf r 1 = byteOf v 0 ∧ byteOf r 2 = byteOf v 3 ∧ byteOf r 3 = byteOf v 2) ∧
    exec (.revsh rd rm) s = .next (s.writeReg (low rd)
      (BitVec.ofInt 32 (256 * (byteOf v 0).toInt + (byteOf v 1).toNat)))

/-- LDR(1) to LDR(4) (46_load_store.md R200 to R203): the destination takes what the map of 20_memory.md R67 has at the
effective address; nothing else changes but the read counter. -/
def Obligations.WordLoads : Prop :=
  ∀ (s : State) (rd rn rm : LowReg) (imm5 : BitVec 5) (imm8 : BitVec 8),
    let loaded := fun (ea : Word) (k : Nat) => { s.writeReg (low rd) (s.mapWord ea) with reads := k }
    (∃ k, exec (.ldr1 rd rn imm5) s =
      .next (loaded (BitVec.ofNat 32 ((s.readReg (low rn)).toNat + 4 * imm5.toNat)) k)) ∧
    (∃ k, exec (.ldr2 rd rn rm) s =
      .next (loaded (BitVec.ofNat 32 ((s.readReg (low rn)).toNat + (s.readReg (low rm)).toNat)) k)) ∧
    (∃ k, exec (.ldr3 rd imm8) s =
      .next (loaded (BitVec.ofNat 32 ((s.readReg 15#4).toNat / 4 * 4 + 4 * imm8.toNat)) k)) ∧
    (∃ k, exec (.ldr4 rd imm8) s =
      .next (loaded (BitVec.ofNat 32 ((s.readReg 13#4).toNat + 4 * imm8.toNat)) k))

/-- LDRB(1), LDRB(2), LDRH(1), LDRH(2), LDRSB and LDRSH (R204 to R209): as the word loads, extended. -/
def Obligations.ByteAndHalfLoads : Prop :=
  ∀ (s : State) (rd rn rm : LowReg) (imm5 : BitVec 5),
    let loaded := fun (v : Word) (k : Nat) => { s.writeReg (low rd) v with reads := k }
    let eaImm := fun scale : Nat => BitVec.ofNat 32 ((s.readReg (low rn)).toNat + scale * imm5.toNat)
    let eaReg := BitVec.ofNat 32 ((s.readReg (low rn)).toNat + (s.readReg (low rm)).toNat)
    (∃ k, exec (.ldrb1 rd rn imm5) s = .next (loaded (BitVec.ofNat 32 (s.mapByte (eaImm 1)).toNat) k)) ∧
    (∃ k, exec (.ldrb2 rd rn rm) s = .next (loaded (BitVec.ofNat 32 (s.mapByte eaReg).toNat) k)) ∧
    (∃ k, exec (.ldrh1 rd rn imm5) s = .next (loaded (BitVec.ofNat 32 (s.mapHalf (eaImm 2)).toNat) k)) ∧
    (∃ k, exec (.ldrh2 rd rn rm) s = .next (loaded (BitVec.ofNat 32 (s.mapHalf eaReg).toNat) k)) ∧
    (∃ k, exec (.ldrsb rd rn rm) s = .next (loaded (BitVec.ofInt 32 (s.mapByte eaReg).toInt) k)) ∧
    (∃ k, exec (.ldrsh rd rn rm) s = .next (loaded (BitVec.ofInt 32 (s.mapHalf eaReg).toInt) k))

/-- STR(1) to STR(3), STRH(1) and STRH(2) (R210 to R212, R215, R216): the value is stored at the effective address, and
every other byte of memory and every other field but the write counter is as before. -/
def Obligations.WordAndHalfStores : Prop :=
  ∀ (s : State) (rd rn rm : LowReg) (imm5 : BitVec 5) (imm8 : BitVec 8), s.mem.wf →
    let v := s.readReg (low rd)
    let h : Word := BitVec.ofNat 32 (v.toNat % 65536)
    (∃ t, exec (.str1 rd rn imm5) s = .next t ∧ StoredAt s (s.eaOffset rn (immX4 imm5)) 4 v v t) ∧
    (∃ t, exec (.str2 rd rn rm) s = .next t ∧ StoredAt s (s.eaReg rn rm) 4 v v t) ∧
    (∃ t, exec (.str3 rd imm8) s = .next t ∧ StoredAt s (s.eaSp imm8) 4 v v t) ∧
    (∃ t, exec (.strh1 rd rn imm5) s = .next t ∧ StoredAt s (s.eaOffset rn (immX2 imm5)) 2 h h t) ∧
    (∃ t, exec (.strh2 rd rn rm) s = .next t ∧ StoredAt s (s.eaReg rn rm) 2 h h t)

/-- STRB(1) and STRB(2) (R213, R214, R217): one byte is stored, its neighbour in the cell kept. -/
def Obligations.ByteStores : Prop :=
  ∀ (s : State) (rd rn rm : LowReg) (imm5 : BitVec 5), s.mem.wf →
    let b := byteOf (s.readReg (low rd)) 0
    (∃ t, exec (.strb1 rd rn imm5) s = .next t ∧ ByteStoredAt s (s.eaOffset rn (immX1 imm5)) b t) ∧
    (∃ t, exec (.strb2 rd rn rm) s = .next t ∧ ByteStoredAt s (s.eaReg rn rm) b t)

/-- R65: a misaligned word or halfword load loads 0 with no bus activity, and a misaligned word or halfword store
changes nothing at all. -/
def Obligations.MisalignedAccess : Prop :=
  ∀ (s : State) (rd rn rm : LowReg) (imm5 : BitVec 5) (imm8 : BitVec 8),
    let zeroed := s.writeReg (low rd) 0#32
    ((s.eaOffset rn (immX4 imm5)).toNat % 4 ≠ 0 →
      exec (.ldr1 rd rn imm5) s = .next zeroed ∧ exec (.str1 rd rn imm5) s = .next s) ∧
    ((s.eaReg rn rm).toNat % 4 ≠ 0 →
      exec (.ldr2 rd rn rm) s = .next zeroed ∧ exec (.str2 rd rn rm) s = .next s) ∧
    ((s.eaSp imm8).toNat % 4 ≠ 0 →
      exec (.ldr4 rd imm8) s = .next zeroed ∧ exec (.str3 rd imm8) s = .next s) ∧
    ((s.eaOffset rn (immX2 imm5)).toNat % 2 ≠ 0 →
      exec (.ldrh1 rd rn imm5) s = .next zeroed ∧ exec (.strh1 rd rn imm5) s = .next s) ∧
    ((s.eaReg rn rm).toNat % 2 ≠ 0 →
      exec (.ldrh2 rd rn rm) s = .next zeroed ∧ exec (.strh2 rd rn rm) s = .next s ∧
      exec (.ldrsh rd rn rm) s = .next zeroed)

/-- LDMIA (47_block_transfer.md R230): listed register `i` takes the word at its slot, the base ends advanced by four
bytes a word even if it is listed, and nothing else changes but the read counter. -/
def Obligations.LoadMultiple : Prop :=
  ∀ (s : State) (rn : LowReg) (list : BitVec 8),
    let base := s.readReg (low rn)
    let slots : BitVec 9 := list.setWidth 9
    ∃ g k, exec (.ldmia rn list) s = .next { s with general := g, reads := k } ∧
      (s.cpsr.mode ≠ s.params.modeImpl → g = s.general) ∧
      (s.cpsr.mode = s.params.modeImpl → ∀ (i : Nat) (hi : i < 16), g[i] =
        if i = rn.toNat then slotAddr base slots 8
        else if i < 8 ∧ list.getLsbD i = true then s.mapWord (slotAddr base slots i)
        else s.general[i])

/-- STMIA (R231): the listed registers' values before the instruction, the base's among them, are stored to their slots;
the base ends advanced by four bytes a word. -/
def Obligations.StoreMultiple : Prop :=
  ∀ (s : State) (rn : LowReg) (list : BitVec 8), s.mem.wf →
    let base := s.readReg (low rn)
    let slots : BitVec 9 := list.setWidth 9
    ∃ m q k, exec (.stmia rn list) s =
        .next { s.writeReg (low rn) (slotAddr base slots 8) with mem := m, mamcr := q, writes := k } ∧
      SlotsStored s base slots (fun i => s.readReg (BitVec.ofNat 4 i)) { s with mem := m, mamcr := q }

/-- PUSH (R232): the stack pointer drops by four bytes a word; the listed registers are stored ascending from it, the
link register above them. -/
def Obligations.PushStoresRegisters : Prop :=
  ∀ (s : State) (r : Bool) (list : BitVec 8), s.mem.wf →
    let slots : BitVec 9 := BitVec.ofBool r ++ list
    let sp := s.pushedSp r list
    sp = s.readReg 13#4 - BitVec.ofNat 32 (4 * countBelow slots 9) ∧
    ∃ m q k, exec (.push r list) s = .next { s.writeReg 13#4 sp with mem := m, mamcr := q, writes := k } ∧
      SlotsStored s sp slots (fun i => if i = 8 then s.readReg 14#4 else s.readReg (BitVec.ofNat 4 i))
        { s with mem := m, mamcr := q }

/-- POP (R233): the listed registers take the words at their slots, the counter the ninth word plus 2, and the stack
pointer ends advanced by four bytes a word; nothing else changes but the read counter. -/
def Obligations.PopLoadsRegisters : Prop :=
  ∀ (s : State) (r : Bool) (list : BitVec 8),
    let slots : BitVec 9 := BitVec.ofBool r ++ list
    let sp := s.readReg 13#4
    ∃ g p k, exec (.pop r list) s = .next { s with general := g, shadow13 := p, reads := k } ∧
      (s.cpsr.mode ≠ s.params.modeImpl → g = s.general ∧ p = s.shadow13) ∧
      (s.cpsr.mode = s.params.modeImpl →
        p = sp + BitVec.ofNat 32 (4 * countBelow slots 9) ∧
        ∀ (i : Nat) (hi : i < 16), g[i] =
          if i < 8 ∧ list.getLsbD i = true then s.mapWord (slotAddr sp slots i)
          else if i = 15 ∧ r = true then s.mapWord (slotAddr sp slots 8) + 2#32
          else s.general[i])

/-- R233 (d): PUSH, code that keeps the stack's bytes and the stack pointer, then POP of the same list: the stack pointer
and every listed register are restored, and with the ninth bit the counter takes the pushed link value plus 2. -/
def Obligations.PushThenPop : Prop :=
  ∀ (s t u : State) (r : Bool) (list : BitVec 8), s.mem.wf → s.cpsr.mode = s.params.modeImpl →
    s.shadow13.toNat % 4 = 0 →
    (∀ k, (s.pushedSp r list).toNat ≤ k → k < s.shadow13.toNat → writableKey k) →
    (s.pushedSp r list).toNat ≤ s.shadow13.toNat →
    exec (.push r list) s = .next t →
    u.cpsr.mode = u.params.modeImpl → u.shadow13 = t.shadow13 →
    (∀ k, t.shadow13.toNat ≤ k → k < s.shadow13.toNat → u.mem.byte k = t.mem.byte k) →
    ∃ w, exec (.pop r list) u = .next w ∧ w.shadow13 = s.shadow13 ∧
      (∀ (i : Nat) (hi : i < 8), list.getLsbD i = true → w.general[i] = s.general[i]) ∧
      (r = true → w.general[15] = s.shadow14 + 2#32)

/-- B(1) and B(2) (48_branch.md R240, R241): the exact target, narrowed; a failed condition changes nothing. -/
def Obligations.BranchTargets : Prop :=
  ∀ (s : State) (c : Cond) (imm8 : BitVec 8) (imm11 : BitVec 11),
    let passes := (condTruth c).getLsbD
      (8 * s.cpsr.n.toNat + 4 * s.cpsr.z.toNat + 2 * s.cpsr.c.toNat + s.cpsr.v.toNat)
    let pc : Int := (s.readReg 15#4).toNat
    exec (.b1 c imm8) s =
      .next (if passes then s.writeReg 15#4 (BitVec.ofInt 32 (pc + 2 + 2 * imm8.toInt)) else s) ∧
    exec (.b2 imm11) s = .next (s.writeReg 15#4 (BitVec.ofInt 32 (pc + 2 + 2 * imm11.toInt)))

/-- The two halves of BL (R242, R243): the prefix latches its own opcode; the suffix branches by the signed 23-bit offset
of the two fields, links, and empties the latch, and is refused where it finds the latch empty. -/
def Obligations.BranchWithLink : Prop :=
  ∀ (s : State) (imm11 : BitVec 11) (w : Half),
    let pc := s.readReg 15#4
    let offset : Int := 2 * (2048 * (BitVec.ofNat 11 w.toNat).toInt + imm11.toNat)
    exec (.blPrefix imm11) s = .next { s with latch := some (BitVec.ofNat 16 (0xF000 + imm11.toNat)) } ∧
    (s.latch = some w → exec (.blSuffix imm11) s =
      .next { (s.writeReg 14#4 (pc - 2#32)).writeReg 15#4 (BitVec.ofInt 32 (pc.toNat + offset)) with latch := none }) ∧
    (s.latch = none → exec (.blSuffix imm11) s = .refused .blSuffixLatchEmpty)

/-- BX and BLX(2) (R244, R245): bit 0 of the target set: branch, and link for BLX(2); clear: the run ends and nothing
else changes. The target is read before the link is written. -/
def Obligations.BranchExchange : Prop :=
  ∀ (s : State) (rm : RegNo),
    let t := s.readReg rm
    let pc := s.readReg 15#4
    (t.toNat % 2 = 1 →
      exec (.bx rm) s = .next (s.writeReg 15#4 (t + 2#32)) ∧
      exec (.blx2 rm) s = .next ((s.writeReg 14#4 (pc - 2#32)).writeReg 15#4 (t + 2#32))) ∧
    (t.toNat % 2 = 0 →
      exec (.bx rm) s = .next { s with terminated := some (.exitThumb .bx) } ∧
      exec (.blx2 rm) s = .next { s with terminated := some (.exitThumb .blx) })

/-- A call returns (R243 (b), R245): after a BL suffix in a state whose counter has bit 0 set, a `bx lr` taken in any
state with that link register makes the next fetch the instruction after the suffix. -/
def Obligations.CallReturns : Prop :=
  ∀ (s t u w : State) (imm11 : BitVec 11), s.cpsr.mode = s.params.modeImpl → (s.readReg 15#4).toNat % 2 = 1 →
    exec (.blSuffix imm11) s = .next t → u.cpsr.mode = u.params.modeImpl → u.readReg 14#4 = t.readReg 14#4 →
    exec (.bx 14#4) u = .next w →
    w.readReg 15#4 = s.readReg 15#4 ∧ w.terminated = u.terminated

/-- BKPT, SWI, CPS, SETEND and the BLX(1) suffix (49_termination.md R255 to R259): the run ends with the reason, and
nothing else changes. -/
def Obligations.TerminatingForms : Prop :=
  ∀ (s : State) (imm8 : BitVec 8) (imm11 : BitVec 11) (imod a i f e : Bool),
    exec (.bkpt imm8) s = .next { s with terminated := some (.bkpt imm8) } ∧
    exec (.swi imm8) s = .next { s with terminated := some (.swi imm8) } ∧
    exec (.cps imod a i f) s = .next { s with terminated := some .cps } ∧
    exec (.setend e) s = .next { s with terminated := some .setend } ∧
    exec (.blx1Suffix imm11) s = .next { s with terminated := some .blxSuffix }

/-! ### Frames: what every instruction leaves unchanged (00_scope.md R9) -/

/-- R29: an instruction leaves every flag the table gives it a dash for, and MOV(2) writes C and V 0; `I`, `F`, `T` and
the mode have no writer at all (R27). -/
def Obligations.FlagFrame : Prop :=
  ∀ (i : Instr) (s t : State), exec i s = .next t →
    (i.writesNZ s.params.addrArithSetsFlags = false → t.cpsr.n = s.cpsr.n ∧ t.cpsr.z = s.cpsr.z) ∧
    (i.writesC s.params.addrArithSetsFlags = false → t.cpsr.c = s.cpsr.c) ∧
    (i.writesV s.params.addrArithSetsFlags = false → t.cpsr.v = s.cpsr.v) ∧
    (∀ rd rn, i = .mov2 rd rn → t.cpsr.c = false ∧ t.cpsr.v = false) ∧
    t.cpsr.i = s.cpsr.i ∧ t.cpsr.f = s.cpsr.f ∧ t.cpsr.t = s.cpsr.t ∧ t.cpsr.mode = s.cpsr.mode

/-- An instruction leaves every register but its destinations, those of `Instr.dests`, and never touches the hidden
`general[13]` and `general[14]`. -/
def Obligations.RegisterFrame : Prop :=
  ∀ (i : Instr) (s t : State), exec i s = .next t →
    (∀ n : RegNo, n ∉ i.dests → t.readReg n = s.readReg n) ∧
    (∀ (k : Nat) (hk : k < 16), k = 13 ∨ k = 14 ∨ BitVec.ofNat 4 k ∉ i.dests → t.general[k] = s.general[k]) ∧
    (13#4 ∉ i.dests → t.shadow13 = s.shadow13) ∧ (14#4 ∉ i.dests → t.shadow14 = s.shadow14)

/-- An instruction that makes no data write leaves every byte of memory, MAMCR and the write counter as they were. -/
def Obligations.MemoryFrame : Prop :=
  ∀ (i : Instr) (s t : State), i.storesData = false → exec i s = .next t →
    (∀ k, t.mem.byte k = s.mem.byte k) ∧ t.mem = s.mem ∧ t.mamcr = s.mamcr ∧ t.writes = s.writes

/-- R33: no instruction but the two halves of BL writes the latch. R272: no instruction but the listed ones can end the
run, and those that always do, do. The instruction and fetch counters and the parameters have no writer among the
instructions. -/
def Obligations.LatchAndTerminationFrame : Prop :=
  ∀ (i : Instr) (s t : State), exec i s = .next t →
    ((∀ k, i ≠ .blPrefix k) → (∀ k, i ≠ .blSuffix k) → t.latch = s.latch) ∧
    (i.mayTerminate = false → t.terminated = s.terminated) ∧
    (i.mayTerminate = true → (∀ r, i ≠ .bx r) → (∀ r, i ≠ .blx2 r) → t.terminated ≠ none) ∧
    t.instructions = s.instructions ∧ t.fetches = s.fetches ∧ t.params = s.params
end

