-- ==== Sys2Proof/Laws/Memory.lean ====
section
/-! SUPPORT. The laws of the byte store: read after write, and that every operation keeps the canonical form. -/

namespace Sys2Proof.Machine

theorem Memory.byte_cons (k j : Nat) (v : Byte) (m : Memory) :
    (Memory.cons k v m).byte j = if k = j ∧ v ≠ unlistedByte then v else m.byte j := by
  unfold Memory.cons
  by_cases hv : v = unlistedByte
  · simp [hv]
  · by_cases hk : k = j <;> simp [hv, hk, Memory.byte]

/-- A write leaves every other byte, whatever the list. -/
theorem Memory.byte_set_ne (m : Memory) {k j : Nat} (v : Byte) (h : j ≠ k) : (m.set k v).byte j = m.byte j := by
  induction m with
  | nil => simp [Memory.set, Memory.byte_cons, Ne.symm h]
  | cons c m ih =>
    obtain ⟨i, b⟩ := c
    unfold Memory.set
    split_ifs with h1 h2
    · simp [Memory.byte_cons, Ne.symm h]
    · simp [Memory.byte_cons, Ne.symm h, Memory.byte, ← h2]
    · by_cases hi : i = j <;> simp [Memory.byte, hi, ih]

/-- A key below every listed key reads as unlisted. -/
theorem Memory.byte_of_below (m : Memory) (k : Nat) (h : ∀ c ∈ m, k < c.1) : m.byte k = unlistedByte := by
  induction m with
  | nil => rfl
  | cons c m ih =>
    have h1 := h c (by simp)
    simp only [Memory.byte]
    rw [if_neg (by omega)]
    exact ih fun d hd => h d (by simp [hd])

/-- The byte written is the byte read, in canonical form. -/
theorem Memory.byte_set_self (m : Memory) (k : Nat) (v : Byte) (hm : m.wf) : (m.set k v).byte k = v := by
  induction m with
  | nil => by_cases hv : v = unlistedByte <;> simp [Memory.set, Memory.byte_cons, hv, Memory.byte]
  | cons c m ih =>
    obtain ⟨i, b⟩ := c
    obtain ⟨hs, hn⟩ := hm
    rw [List.pairwise_cons] at hs
    unfold Memory.set
    split_ifs with h1 h2
    · by_cases hv : v = unlistedByte
      · rw [Memory.byte_cons, if_neg (by simp [hv]), hv]
        apply Memory.byte_of_below
        intro d hd
        rcases List.mem_cons.1 hd with rfl | hd
        · exact h1
        · exact lt_trans h1 (hs.1 d hd)
      · simp [Memory.byte_cons, hv]
    · by_cases hv : v = unlistedByte
      · rw [Memory.byte_cons, if_neg (by simp [hv]), hv]
        apply Memory.byte_of_below
        intro d hd
        have := hs.1 d hd
        simp only at this
        omega
      · simp [Memory.byte_cons, hv]
    · simp only [Memory.byte]
      rw [if_neg (fun h => h2 h.symm)]
      exact ih ⟨hs.2, fun d hd => hn d (by simp [hd])⟩

/-- Read after write. -/
theorem Memory.byte_set (m : Memory) (k j : Nat) (v : Byte) (hm : m.wf) :
    (m.set k v).byte j = if j = k then v else m.byte j := by
  by_cases h : j = k
  · simp [h, Memory.byte_set_self _ _ _ hm]
  · simp [h, Memory.byte_set_ne _ _ h]

/-- Every listed entry of `m.set k v` is `(k, v)` with `v` listed, or an entry of `m`. -/
theorem Memory.mem_set {m : Memory} {k : Nat} {v : Byte} {c : Host.Cell} (h : c ∈ m.set k v) :
    (c = (k, v) ∧ v ≠ unlistedByte) ∨ c ∈ m := by
  induction m with
  | nil =>
    unfold Memory.set Memory.cons at h
    split_ifs at h with hv
    · simp at h
    · left; exact ⟨by simpa using h, hv⟩
  | cons d m ih =>
    obtain ⟨i, b⟩ := d
    unfold Memory.set at h
    split_ifs at h with h1 h2
    · unfold Memory.cons at h
      split_ifs at h with hv
      · exact .inr h
      · rcases List.mem_cons.1 h with h | h
        · exact .inl ⟨h, hv⟩
        · exact .inr h
    · unfold Memory.cons at h
      split_ifs at h with hv
      · exact .inr (List.mem_cons_of_mem _ h)
      · rcases List.mem_cons.1 h with h | h
        · exact .inl ⟨h, hv⟩
        · exact .inr (List.mem_cons_of_mem _ h)
    · rcases List.mem_cons.1 h with h | h
      · exact .inr (by simp [h])
      · rcases ih h with h | h
        · exact .inl h
        · exact .inr (List.mem_cons_of_mem _ h)

/-- A write keeps the canonical form. -/
theorem Memory.wf_set (m : Memory) (k : Nat) (v : Byte) (hm : m.wf) : (m.set k v).wf := by
  refine ⟨?_, fun c hc => ?_⟩
  · induction m with
    | nil => unfold Memory.set Memory.cons; split_ifs <;> simp
    | cons d m ih =>
      obtain ⟨i, b⟩ := d
      obtain ⟨hs, hn⟩ := hm
      have hs' := List.pairwise_cons.1 hs
      have hm' : Memory.wf m := ⟨hs'.2, fun d hd => hn d (by simp [hd])⟩
      unfold Memory.set
      split_ifs with h1 h2
      · unfold Memory.cons
        split_ifs
        · exact hs
        · refine List.pairwise_cons.2 ⟨fun d hd => ?_, hs⟩
          rcases List.mem_cons.1 hd with rfl | hd
          · exact h1
          · exact lt_trans h1 (hs'.1 d hd)
      · unfold Memory.cons
        split_ifs
        · exact hs'.2
        · refine List.pairwise_cons.2 ⟨fun d hd => ?_, hs'.2⟩
          have := hs'.1 d hd
          simp only at this ⊢
          omega
      · refine List.pairwise_cons.2 ⟨fun d hd => ?_, ih hm'⟩
        rcases Memory.mem_set hd with ⟨rfl, _⟩ | hd
        · simp only; omega
        · exact hs'.1 d hd
  · rcases Memory.mem_set hc with ⟨rfl, hv⟩ | hc
    · exact hv
    · exact hm.2 c hc

/-- A write to a byte of the arrays keeps every listed byte in the arrays. -/
theorem Memory.inArrays_set (m : Memory) (k : Nat) (v : Byte) (hm : m.inArrays)
    (hk : k < 0x8000 ∨ (0x40000000 ≤ k ∧ k < 0x40002000)) : (m.set k v).inArrays := by
  intro c hc
  rcases Memory.mem_set hc with ⟨rfl, _⟩ | hc
  · exact hk
  · exact hm c hc

/-- A listed byte of a canonical memory is what its key reads. -/
theorem Memory.byte_of_mem (m : Memory) (c : Host.Cell) (hm : m.wf) (hc : c ∈ m) : m.byte c.1 = c.2 := by
  induction m with
  | nil => simp at hc
  | cons d m ih =>
    obtain ⟨hs, hn⟩ := hm
    rw [List.pairwise_cons] at hs
    rcases List.mem_cons.1 hc with rfl | hc
    · simp [Memory.byte]
    · have := hs.1 c hc
      simp only [Memory.byte]
      rw [if_neg (by omega)]
      exact ih ⟨hs.2, fun d hd => hn d (by simp [hd])⟩ hc

/-! ### Cells -/

theorem Memory.wf_setCell (m : Memory) (k : Nat) (v : Half) (hm : m.wf) : (m.setCell k v).wf :=
  Memory.wf_set _ _ _ (Memory.wf_set _ _ _ hm)

theorem Memory.inArrays_setCell (m : Memory) (k : Nat) (v : Half) (hm : m.inArrays)
    (hk : k + 1 < 0x8000 ∨ (0x40000000 ≤ k ∧ k + 1 < 0x40002000)) : (m.setCell k v).inArrays :=
  Memory.inArrays_set _ _ _ (Memory.inArrays_set _ _ _ hm (by omega)) (by omega)

/-- What a cell write leaves and sets, byte by byte. -/
theorem Memory.byte_setCell (m : Memory) (k j : Nat) (v : Half) (hm : m.wf) :
    (m.setCell k v).byte j =
      if j = k then v.extractLsb 7 0 else if j = k + 1 then v.extractLsb 15 8 else m.byte j := by
  unfold Memory.setCell
  rw [Memory.byte_set _ _ _ _ (Memory.wf_set _ _ _ hm), Memory.byte_set _ _ _ _ hm]
  by_cases h1 : j = k + 1
  · subst h1; simp
  · simp [h1]

/-- A cell write leaves every byte outside the cell, whatever the list. -/
theorem Memory.byte_setCell_ne (m : Memory) {k j : Nat} (v : Half) (h : j ≠ k) (h' : j ≠ k + 1) :
    (m.setCell k v).byte j = m.byte j := by
  unfold Memory.setCell
  rw [Memory.byte_set_ne _ _ h', Memory.byte_set_ne _ _ h]

theorem half_split (v : Half) : (v.extractLsb 15 8 ++ v.extractLsb 7 0 : BitVec 16) = v := by
  apply BitVec.eq_of_getLsbD_eq
  intro i hi
  rw [BitVec.getLsbD_append, BitVec.getLsbD_extract, BitVec.getLsbD_extract]
  by_cases h : i < 8
  · simp [h]; omega
  · have h1 : 8 + (i - (7 - 0 + 1)) = i := by omega
    have h2 : i - (7 - 0 + 1) ≤ 15 - 8 := by omega
    rw [h1]
    simp [h, h2]

/-- Read after write, for a cell. -/
theorem Memory.cell_setCell_self (m : Memory) (k : Nat) (v : Half) (hm : m.wf) : (m.setCell k v).cell k = v := by
  unfold Memory.cell
  rw [Memory.byte_setCell _ _ _ _ hm, Memory.byte_setCell _ _ _ _ hm, if_neg (by omega), if_pos rfl, if_pos rfl]
  exact half_split v

/-- A cell write leaves every cell that does not overlap it. -/
theorem Memory.cell_setCell_ne (m : Memory) {k j : Nat} (v : Half) (h : j + 1 < k ∨ k + 1 < j) :
    (m.setCell k v).cell j = m.cell j := by
  unfold Memory.cell
  rw [Memory.byte_setCell_ne _ _ (by omega) (by omega), Memory.byte_setCell_ne _ _ (by omega) (by omega)]

end Sys2Proof.Machine
end

