-- ==== Sys2Proof/Laws/State.lean ====
section
/-! SUPPORT. What the named updates of State leave and set: one lemma per field per update, and the laws of register
selection (10_state.md R22, R23). -/

namespace Sys2Proof.Machine

variable (s : State) (n m : RegNo) (v w : Word)

/-! ### writeReg leaves every field but the registers -/

@[simp] theorem writeReg_cpsr : (s.writeReg n v).cpsr = s.cpsr := by unfold State.writeReg; split_ifs <;> rfl
@[simp] theorem writeReg_mamcr : (s.writeReg n v).mamcr = s.mamcr := by unfold State.writeReg; split_ifs <;> rfl
@[simp] theorem writeReg_latch : (s.writeReg n v).latch = s.latch := by unfold State.writeReg; split_ifs <;> rfl
@[simp] theorem writeReg_instructions : (s.writeReg n v).instructions = s.instructions := by
  unfold State.writeReg; split_ifs <;> rfl
@[simp] theorem writeReg_fetches : (s.writeReg n v).fetches = s.fetches := by unfold State.writeReg; split_ifs <;> rfl
@[simp] theorem writeReg_reads : (s.writeReg n v).reads = s.reads := by unfold State.writeReg; split_ifs <;> rfl
@[simp] theorem writeReg_writes : (s.writeReg n v).writes = s.writes := by unfold State.writeReg; split_ifs <;> rfl
@[simp] theorem writeReg_mem : (s.writeReg n v).mem = s.mem := by unfold State.writeReg; split_ifs <;> rfl
@[simp] theorem writeReg_terminated : (s.writeReg n v).terminated = s.terminated := by
  unfold State.writeReg; split_ifs <;> rfl
@[simp] theorem writeReg_params : (s.writeReg n v).params = s.params := by unfold State.writeReg; split_ifs <;> rfl

/-- A register write is a change of the three register fields, whatever the other fields hold. -/
theorem writeReg_eq_with : s.writeReg n v =
    { s with general := (s.writeReg n v).general, shadow13 := (s.writeReg n v).shadow13,
             shadow14 := (s.writeReg n v).shadow14 } := by
  unfold State.writeReg; split_ifs <;> rfl

/-! ### writeReg commutes with updates of the other fields -/

theorem writeReg_with_reads (k : Nat) : { s with reads := k }.writeReg n v = { s.writeReg n v with reads := k } := by
  unfold State.writeReg; dsimp only [State.implemented]; split_ifs <;> rfl
theorem writeReg_with_writes (k : Nat) : { s with writes := k }.writeReg n v = { s.writeReg n v with writes := k } := by
  unfold State.writeReg; dsimp only [State.implemented]; split_ifs <;> rfl
theorem writeReg_with_fetches (k : Nat) : { s with fetches := k }.writeReg n v = { s.writeReg n v with fetches := k } := by
  unfold State.writeReg; dsimp only [State.implemented]; split_ifs <;> rfl
theorem writeReg_with_instructions (k : Nat) :
    { s with instructions := k }.writeReg n v = { s.writeReg n v with instructions := k } := by
  unfold State.writeReg; dsimp only [State.implemented]; split_ifs <;> rfl
theorem writeReg_with_mem (k : Memory) : { s with mem := k }.writeReg n v = { s.writeReg n v with mem := k } := by
  unfold State.writeReg; dsimp only [State.implemented]; split_ifs <;> rfl
theorem writeReg_with_mamcr (k : Word) : { s with mamcr := k }.writeReg n v = { s.writeReg n v with mamcr := k } := by
  unfold State.writeReg; dsimp only [State.implemented]; split_ifs <;> rfl
theorem writeReg_with_latch (k : Option Half) :
    { s with latch := k }.writeReg n v = { s.writeReg n v with latch := k } := by
  unfold State.writeReg; dsimp only [State.implemented]; split_ifs <;> rfl
theorem writeReg_with_terminated (k : Option Termination) :
    { s with terminated := k }.writeReg n v = { s.writeReg n v with terminated := k } := by
  unfold State.writeReg; dsimp only [State.implemented]; split_ifs <;> rfl
theorem writeReg_with_cpsr (p : Cpsr) (h : p.mode = s.cpsr.mode) :
    { s with cpsr := p }.writeReg n v = { s.writeReg n v with cpsr := p } := by
  unfold State.writeReg; dsimp only [State.implemented]; rw [h]; split_ifs <;> rfl

/-! ### Register selection -/

/-- `readReg` looks at the registers, the mode and the parameters only. -/
theorem readReg_congr {s t : State} (hg : t.general = s.general) (h13 : t.shadow13 = s.shadow13)
    (h14 : t.shadow14 = s.shadow14) (hm : t.cpsr.mode = s.cpsr.mode) (hp : t.params = s.params) (n : RegNo) :
    t.readReg n = s.readReg n := by
  unfold State.readReg State.implemented; rw [h13, h14, hm, hp]; simp only [hg]

theorem readReg_unimplemented (h : ¬ s.implemented) : s.readReg n = 0 := by simp [State.readReg, h]

theorem writeReg_unimplemented (h : ¬ s.implemented) : s.writeReg n v = s := by simp [State.writeReg, h]

@[simp] theorem implemented_writeReg : (s.writeReg n v).implemented ↔ s.implemented := by
  unfold State.implemented; simp

/-! The three places a register number selects. -/

theorem writeReg_13 (h : s.implemented) : s.writeReg 13#4 v = { s with shadow13 := v } := by
  simp [State.writeReg, h]

theorem writeReg_14 (h : s.implemented) : s.writeReg 14#4 v = { s with shadow14 := v } := by
  simp [State.writeReg, h]

theorem writeReg_shared (h : s.implemented) (h13 : n ≠ 13#4) (h14 : n ≠ 14#4) :
    s.writeReg n v = { s with general := s.general.set n.toNat v n.isLt } := by
  simp [State.writeReg, h, h13, h14]

theorem readReg_13 (h : s.implemented) : s.readReg 13#4 = s.shadow13 := by simp [State.readReg, h]

theorem readReg_14 (h : s.implemented) : s.readReg 14#4 = s.shadow14 := by simp [State.readReg, h]

theorem readReg_shared (h : s.implemented) (h13 : n ≠ 13#4) (h14 : n ≠ 14#4) :
    s.readReg n = s.general[n.toNat]'n.isLt := by
  simp [State.readReg, h, h13, h14]

/-- Read after write, through the bank selection. -/
theorem readReg_writeReg (h : s.implemented) :
    (s.writeReg n v).readReg m = if m = n then v else s.readReg m := by
  have hi : (s.writeReg n v).implemented := (implemented_writeReg s n v).2 h
  by_cases hn : n = 13#4
  · subst hn
    rw [writeReg_13 _ _ h] at hi ⊢
    by_cases hm : m = 13#4
    · subst hm; rw [readReg_13 _ hi]; simp
    · unfold State.readReg; rw [if_pos hi, if_pos h]; simp [hm]
  by_cases hn' : n = 14#4
  · subst hn'
    rw [writeReg_14 _ _ h] at hi ⊢
    by_cases hm : m = 14#4
    · subst hm; rw [readReg_14 _ hi]; simp
    · unfold State.readReg; rw [if_pos hi, if_pos h]; simp [hm]
  rw [writeReg_shared _ _ _ h hn hn'] at hi ⊢
  unfold State.readReg
  rw [if_pos hi, if_pos h]
  by_cases hm : m = 13#4
  · subst hm; simp [Ne.symm hn]
  by_cases hm' : m = 14#4
  · subst hm'; simp [Ne.symm hn']
  simp only [hm, hm', if_false, Vector.getElem_set]
  by_cases hmn : m = n
  · subst hmn; simp
  · have : n.toNat ≠ m.toNat := fun h => hmn (BitVec.eq_of_toNat_eq h.symm)
    simp [hmn, this]

theorem readReg_writeReg_self (h : s.implemented) : (s.writeReg n v).readReg n = v := by
  rw [readReg_writeReg _ _ _ _ h, if_pos rfl]

/-- A write leaves every other register, in every mode. -/
theorem readReg_writeReg_ne (hmn : m ≠ n) : (s.writeReg n v).readReg m = s.readReg m := by
  by_cases h : s.implemented
  · rw [readReg_writeReg _ _ _ _ h, if_neg hmn]
  · rw [writeReg_unimplemented _ _ _ h]

/-- The last of two writes to one register stays. -/
theorem writeReg_writeReg_self : (s.writeReg n v).writeReg n w = s.writeReg n w := by
  by_cases h : s.implemented
  · have hi : (s.writeReg n v).implemented := (implemented_writeReg s n v).2 h
    by_cases hn : n = 13#4
    · subst hn; rw [writeReg_13 _ _ hi, writeReg_13 _ _ h, writeReg_13 _ _ h]
    by_cases hn' : n = 14#4
    · subst hn'; rw [writeReg_14 _ _ hi, writeReg_14 _ _ h, writeReg_14 _ _ h]
    rw [writeReg_shared _ _ _ hi hn hn', writeReg_shared _ _ _ h hn hn', writeReg_shared _ _ _ h hn hn']
    simp
  · rw [writeReg_unimplemented _ _ _ h]

/-- The hidden shared-bank entries are never written (10_state.md R20). -/
theorem writeReg_general_hidden (k : Nat) (hk : k = 13 ∨ k = 14) :
    (s.writeReg n v).general[k]'(by omega) = s.general[k]'(by omega) := by
  unfold State.writeReg
  split_ifs with _ h13 h14 <;> try rfl
  have h1 : n.toNat ≠ 13 := fun h => h13 (BitVec.eq_of_toNat_eq h)
  have h2 : n.toNat ≠ 14 := fun h => h14 (BitVec.eq_of_toNat_eq h)
  simp only [Vector.getElem_set]
  rw [if_neg (by omega)]

/-! ### terminate -/

variable (r : Termination)

@[simp] theorem terminate_general : (s.terminate r).general = s.general := rfl
@[simp] theorem terminate_shadow13 : (s.terminate r).shadow13 = s.shadow13 := rfl
@[simp] theorem terminate_shadow14 : (s.terminate r).shadow14 = s.shadow14 := rfl
@[simp] theorem terminate_cpsr : (s.terminate r).cpsr = s.cpsr := rfl
@[simp] theorem terminate_mamcr : (s.terminate r).mamcr = s.mamcr := rfl
@[simp] theorem terminate_latch : (s.terminate r).latch = s.latch := rfl
@[simp] theorem terminate_instructions : (s.terminate r).instructions = s.instructions := rfl
@[simp] theorem terminate_fetches : (s.terminate r).fetches = s.fetches := rfl
@[simp] theorem terminate_reads : (s.terminate r).reads = s.reads := rfl
@[simp] theorem terminate_writes : (s.terminate r).writes = s.writes := rfl
@[simp] theorem terminate_mem : (s.terminate r).mem = s.mem := rfl
@[simp] theorem terminate_terminated : (s.terminate r).terminated = some r := rfl
@[simp] theorem terminate_params : (s.terminate r).params = s.params := rfl

/-! ### The flag updates keep I, F, T and the mode, and the flags they do not name -/

variable (p : Cpsr) (b : Bool)

@[simp] theorem setNZ_n : (p.setNZ v).n = v.getLsbD 31 := rfl
@[simp] theorem setNZ_z : (p.setNZ v).z = decide (v = 0) := rfl
@[simp] theorem setNZ_c : (p.setNZ v).c = p.c := rfl
@[simp] theorem setNZ_v : (p.setNZ v).v = p.v := rfl
@[simp] theorem setNZ_i : (p.setNZ v).i = p.i := rfl
@[simp] theorem setNZ_f : (p.setNZ v).f = p.f := rfl
@[simp] theorem setNZ_t : (p.setNZ v).t = p.t := rfl
@[simp] theorem setNZ_mode : (p.setNZ v).mode = p.mode := rfl
@[simp] theorem setC_n : (p.setC b).n = p.n := rfl
@[simp] theorem setC_z : (p.setC b).z = p.z := rfl
@[simp] theorem setC_c : (p.setC b).c = b := rfl
@[simp] theorem setC_v : (p.setC b).v = p.v := rfl
@[simp] theorem setC_i : (p.setC b).i = p.i := rfl
@[simp] theorem setC_f : (p.setC b).f = p.f := rfl
@[simp] theorem setC_t : (p.setC b).t = p.t := rfl
@[simp] theorem setC_mode : (p.setC b).mode = p.mode := rfl
@[simp] theorem setV_n : (p.setV b).n = p.n := rfl
@[simp] theorem setV_z : (p.setV b).z = p.z := rfl
@[simp] theorem setV_c : (p.setV b).c = p.c := rfl
@[simp] theorem setV_v : (p.setV b).v = b := rfl
@[simp] theorem setV_i : (p.setV b).i = p.i := rfl
@[simp] theorem setV_f : (p.setV b).f = p.f := rfl
@[simp] theorem setV_t : (p.setV b).t = p.t := rfl
@[simp] theorem setV_mode : (p.setV b).mode = p.mode := rfl

end Sys2Proof.Machine
end

