-- ==== Sys2Proof/Laws/Bus.lean ====
section
/-! SUPPORT. The laws of the address bus: the address tests as arithmetic on `toNat`, and all that each bus operation can
change. -/

namespace Sys2Proof.Machine

/-! ### Address tests as arithmetic -/

variable (a : Word)

theorem top_toNat : (a.extractLsb 31 28).toNat = a.toNat / 0x10000000 := by
  have := a.isLt
  simp only [BitVec.extractLsb, BitVec.extractLsb'_toNat, Nat.shiftRight_eq_div_pow]
  omega

theorem top_eq_iff (k : Nat) (hk : k < 16) : a.extractLsb 31 28 = BitVec.ofNat 4 k ↔ a.toNat / 0x10000000 = k := by
  rw [← BitVec.toNat_inj, top_toNat, BitVec.toNat_ofNat]
  constructor <;> intro h <;> omega

/-- Region decode as ranges of addresses (20_memory.md R50). -/
theorem region_eq : region a =
    if a.toNat < 0x10000000 then .rom
    else if 0x40000000 ≤ a.toNat ∧ a.toNat < 0x50000000 then .ram
    else if 0xE0000000 ≤ a.toNat ∧ a.toNat < 0xF0000000 then .peripheral
    else if 0xF0000000 ≤ a.toNat then .halt
    else if 0xD0000000 ≤ a.toNat ∧ a.toNat < 0xE0000000 then .debug
    else .none := by
  have := a.isLt
  unfold region
  rw [show (0x0#4 : BitVec 4) = BitVec.ofNat 4 0 from rfl, show (0x4#4 : BitVec 4) = BitVec.ofNat 4 4 from rfl,
    show (0xE#4 : BitVec 4) = BitVec.ofNat 4 14 from rfl, show (0xF#4 : BitVec 4) = BitVec.ofNat 4 15 from rfl,
    show (0xD#4 : BitVec 4) = BitVec.ofNat 4 13 from rfl]
  simp only [top_eq_iff a _ (by decide : 0 < 16), top_eq_iff a _ (by decide : 4 < 16),
    top_eq_iff a _ (by decide : 14 < 16), top_eq_iff a _ (by decide : 15 < 16), top_eq_iff a _ (by decide : 13 < 16)]
  split_ifs <;> first | rfl | omega

theorem region_rom : region a = .rom ↔ a.toNat < 0x10000000 := by
  rw [region_eq]; split_ifs <;> simp <;> omega

theorem region_ram : region a = .ram ↔ 0x40000000 ≤ a.toNat ∧ a.toNat < 0x50000000 := by
  rw [region_eq]; split_ifs <;> simp <;> omega

theorem romMask_toNat : (a &&& romMask).toNat = a.toNat % 0x8000 := by
  rw [BitVec.toNat_and]
  exact Nat.and_two_pow_sub_one_eq_mod a.toNat 15

theorem ramMask_toNat : (a &&& ramMask).toNat = a.toNat % 0x2000 := by
  rw [BitVec.toNat_and]
  exact Nat.and_two_pow_sub_one_eq_mod a.toNat 13

/-- The ROM cell of an address (20_memory.md R51). -/
theorem romKey_eq : romKey a = a.toNat % 0x8000 / 2 * 2 := by
  simp only [romKey, romIndex, BitVec.toNat_ushiftRight, romMask_toNat, Nat.shiftRight_eq_div_pow]
  omega

/-- The RAM cell of an address (20_memory.md R52). -/
theorem ramKey_eq : ramKey a = 0x40000000 + a.toNat % 0x2000 / 2 * 2 := by
  simp only [ramKey, ramBase, ramIndex, BitVec.toNat_ushiftRight, ramMask_toNat, Nat.shiftRight_eq_div_pow]
  omega

theorem readGuarded_iff : readGuarded a = true ↔
    (0x40001FFF < a.toNat ∧ a.toNat < 0x50000000) ∨ (0x7FFF < a.toNat ∧ a.toNat < 0x10000000) := by
  simp [readGuarded, BitVec.lt_def]

theorem writeGuarded_iff : writeGuarded a = true ↔
    (0x40001FFF < a.toNat ∧ a.toNat < 0x50000000) ∨ (0x40000028 < a.toNat ∧ a.toNat < 0x40000C00) := by
  simp [writeGuarded, BitVec.lt_def]

theorem bit0_iff : a.getLsbD 0 = true ↔ a.toNat % 2 = 1 := by
  simp [BitVec.getLsbD, Nat.testBit_zero]

theorem low2_iff : a.extractLsb 1 0 = 0#2 ↔ a.toNat % 4 = 0 := by
  rw [← BitVec.toNat_inj]
  simp [BitVec.extractLsb, BitVec.extractLsb'_toNat]

theorem mamcrAddr_iff : a = mamcrAddr ↔ a.toNat = 0xE01FC000 := by
  rw [← BitVec.toNat_inj]; rfl

theorem evenAddr_toNat : (evenAddr a).toNat = a.toNat / 2 * 2 := by
  have h : evenAddr a = (a >>> 1) <<< 1 := by
    apply BitVec.eq_of_getLsbD_eq
    intro i hi
    unfold evenAddr
    rw [BitVec.getLsbD_and, show (0xFFFFFFFE#32 : Word) = ~~~1#32 from rfl, BitVec.getLsbD_not, BitVec.getLsbD_one]
    simp only [BitVec.getLsbD_shiftLeft, BitVec.getLsbD_ushiftRight]
    by_cases h0 : i = 0
    · subst h0; simp
    · rw [show 1 + (i - 1) = i by omega]; simp [hi, h0]
  have := a.isLt
  rw [h, BitVec.toNat_shiftLeft, BitVec.toNat_ushiftRight, Nat.shiftLeft_eq, Nat.shiftRight_eq_div_pow]
  omega

/-! ### Fetch -/

variable (s t : State)

/-- A fetch changes nothing but the fetch counter. -/
@[simp] theorem fetch16_snd : (fetch16 s a).2 = { s with fetches := s.fetches + 1 } := rfl

/-- What a fetch sees depends on memory alone. -/
theorem fetch16_fst_congr (h : t.mem = s.mem) : (fetch16 t a).1 = (fetch16 s a).1 := by
  simp only [fetch16, h]

/-! ### Data reads change nothing but the read counter, and see memory and MAMCR alone -/

theorem memRead2_snd : (memRead2 s a).2 = { s with reads := (memRead2 s a).2.reads } := by
  unfold memRead2; split_ifs <;> rfl

@[simp] theorem memRead2_mem : (memRead2 s a).2.mem = s.mem := by rw [memRead2_snd]

theorem memRead2_fst_congr (hm : t.mem = s.mem) (hq : t.mamcr = s.mamcr) : (memRead2 t a).1 = (memRead2 s a).1 := by
  unfold memRead2; rw [hm, hq]; split_ifs <;> rfl

theorem memRead4_snd : (memRead4 s a).2 = { s with reads := (memRead4 s a).2.reads } := by
  unfold memRead4
  split_ifs
  · rfl
  · rfl
  · dsimp only
    rw [memRead2_snd (a + 2#32) (memRead2 s a).2, memRead2_snd a s]

theorem memRead4_fst_congr (hm : t.mem = s.mem) (hq : t.mamcr = s.mamcr) : (memRead4 t a).1 = (memRead4 s a).1 := by
  unfold memRead4
  split_ifs
  · rfl
  · exact hq
  · dsimp only
    rw [memRead2_fst_congr a s t hm hq, memRead2_fst_congr (a + 2#32) (memRead2 s a).2 (memRead2 t a).2]
    · rw [memRead2_snd a t, memRead2_snd a s]; exact hm
    · rw [memRead2_snd a t, memRead2_snd a s]; exact hq

theorem loadByte_snd : (loadByte s a).2 = { s with reads := (loadByte s a).2.reads } :=
  memRead2_snd (evenAddr a) s

theorem loadByte_fst_congr (hm : t.mem = s.mem) (hq : t.mamcr = s.mamcr) : (loadByte t a).1 = (loadByte s a).1 := by
  simp only [loadByte]
  rw [memRead2_fst_congr (evenAddr a) s t hm hq]

/-! ### Data writes change nothing but memory, MAMCR and the write counter -/

theorem memWrite2_eq (v : Half) : memWrite2 s a v =
    { s with mem := (memWrite2 s a v).mem, mamcr := (memWrite2 s a v).mamcr, writes := (memWrite2 s a v).writes } := by
  unfold memWrite2; dsimp only; split_ifs <;> rfl

theorem memWrite4_eq (v : Word) : memWrite4 s a v =
    { s with mem := (memWrite4 s a v).mem, mamcr := (memWrite4 s a v).mamcr, writes := (memWrite4 s a v).writes } := by
  unfold memWrite4
  split_ifs
  · rfl
  · rfl
  · rw [memWrite2_eq (a + 2#32) (memWrite2 s a _), memWrite2_eq a s]

theorem storeByte_eq (b : Byte) : storeByte s a b =
    { s with mem := (storeByte s a b).mem, mamcr := (storeByte s a b).mamcr
             reads := (storeByte s a b).reads, writes := (storeByte s a b).writes } := by
  unfold storeByte
  dsimp only
  rw [memWrite2_eq (evenAddr a) (memRead2 s (evenAddr a)).2, memRead2_snd (evenAddr a) s]

@[simp] theorem memWrite2_general (v : Half) : (memWrite2 s a v).general = s.general := by rw [memWrite2_eq]
@[simp] theorem memWrite4_general (v : Word) : (memWrite4 s a v).general = s.general := by rw [memWrite4_eq]
@[simp] theorem memWrite2_params (v : Half) : (memWrite2 s a v).params = s.params := by rw [memWrite2_eq]
@[simp] theorem memWrite4_params (v : Word) : (memWrite4 s a v).params = s.params := by rw [memWrite4_eq]
@[simp] theorem memWrite2_cpsr (v : Half) : (memWrite2 s a v).cpsr = s.cpsr := by rw [memWrite2_eq]
@[simp] theorem memWrite4_cpsr (v : Word) : (memWrite4 s a v).cpsr = s.cpsr := by rw [memWrite4_eq]

/-- A data write leaves what every register reads as. -/
theorem memWrite4_readReg (v : Word) (n : RegNo) : (memWrite4 s a v).readReg n = s.readReg n := by
  rw [memWrite4_eq]; exact readReg_congr rfl rfl rfl rfl rfl n

/-- The one write to memory: the RAM cell of an even address outside the write guard windows. -/
theorem memWrite2_mem (v : Half) : (memWrite2 s a v).mem =
    if writeGuarded a = false ∧ a.getLsbD 0 = false ∧ region a = .ram then s.mem.setCell (ramKey a) v else s.mem := by
  unfold memWrite2
  cases writeGuarded a <;> cases a.getLsbD 0 <;> simp
  split_ifs <;> rfl

theorem memWrite2_mamcr (v : Half) : (memWrite2 s a v).mamcr = if a = mamcrAddr then v.setWidth 32 else s.mamcr := by
  by_cases ha : a = mamcrAddr
  · subst ha; rfl
  · unfold memWrite2; dsimp only; split_ifs <;> rfl

theorem memWrite4_mem (v : Word) : (memWrite4 s a v).mem =
    if a.extractLsb 1 0 = 0#2 ∧ a ≠ mamcrAddr then
      (memWrite2 (memWrite2 s a (v.extractLsb 15 0)) (a + 2#32) (v.extractLsb 31 16)).mem
    else s.mem := by
  unfold memWrite4
  split_ifs with h0 h1 h2 h3 <;> first | rfl | tauto

/-- Every property of memory that a cell write to RAM keeps, every data write keeps. -/
theorem memWrite2_mem_induction (P : Memory → Prop) (v : Half) (h : P s.mem)
    (hset : ∀ k, 0x40000000 ≤ k → k + 1 < 0x40002000 → (k ≤ 0x40000028 ∨ 0x40000C00 ≤ k) →
      P (s.mem.setCell k v)) : P (memWrite2 s a v).mem := by
  rw [memWrite2_mem]
  split_ifs with hc
  · obtain ⟨hg, h0, hr⟩ := hc
    have hg' : ¬ writeGuarded a = true := by simp [hg]
    have h0' : ¬ a.getLsbD 0 = true := by rw [h0]; decide
    rw [writeGuarded_iff] at hg'
    rw [bit0_iff] at h0'
    rw [region_ram] at hr
    refine hset _ ?_ ?_ ?_ <;> rw [ramKey_eq] <;> omega
  · exact h

theorem memWrite2_wf (v : Half) (h : s.mem.wf) : (memWrite2 s a v).mem.wf :=
  memWrite2_mem_induction a s Memory.wf v h fun _ _ _ _ => Memory.wf_setCell _ _ _ h

theorem memWrite2_inArrays (v : Half) (h : s.mem.inArrays) : (memWrite2 s a v).mem.inArrays :=
  memWrite2_mem_induction a s Memory.inArrays v h fun _ h1 h2 _ => Memory.inArrays_setCell _ _ _ h (by omega)

theorem memWrite4_wf (v : Word) (h : s.mem.wf) : (memWrite4 s a v).mem.wf := by
  rw [memWrite4_mem]
  split_ifs
  · exact memWrite2_wf _ _ _ (memWrite2_wf _ _ _ h)
  · exact h

theorem memWrite4_inArrays (v : Word) (h : s.mem.inArrays) : (memWrite4 s a v).mem.inArrays := by
  rw [memWrite4_mem]
  split_ifs
  · exact memWrite2_inArrays _ _ _ (memWrite2_inArrays _ _ _ h)
  · exact h

theorem storeByte_wf (b : Byte) (h : s.mem.wf) : (storeByte s a b).mem.wf := by
  exact memWrite2_wf _ _ _ ((memRead2_mem (evenAddr a) s).symm ▸ h)

theorem storeByte_inArrays (b : Byte) (h : s.mem.inArrays) : (storeByte s a b).mem.inArrays := by
  exact memWrite2_inArrays _ _ _ ((memRead2_mem (evenAddr a) s).symm ▸ h)

/-- A byte outside the two writable ranges of RAM is kept by every data write. -/
theorem memWrite2_byte_unwritable (v : Half) (k : Nat)
    (hk : ¬ ((0x40000000 ≤ k ∧ k ≤ 0x40000029) ∨ (0x40000C00 ≤ k ∧ k ≤ 0x40001FFF))) :
    (memWrite2 s a v).mem.byte k = s.mem.byte k := by
  rw [memWrite2_mem]
  split_ifs with hc
  · obtain ⟨hg, h0, hr⟩ := hc
    have hg' : ¬ writeGuarded a = true := by simp [hg]
    have h0' : ¬ a.getLsbD 0 = true := by rw [h0]; decide
    rw [writeGuarded_iff] at hg'
    rw [bit0_iff] at h0'
    rw [region_ram] at hr
    apply Memory.byte_setCell_ne <;> rw [ramKey_eq] <;> omega
  · rfl

theorem memWrite4_byte_unwritable (v : Word) (k : Nat)
    (hk : ¬ ((0x40000000 ≤ k ∧ k ≤ 0x40000029) ∨ (0x40000C00 ≤ k ∧ k ≤ 0x40001FFF))) :
    (memWrite4 s a v).mem.byte k = s.mem.byte k := by
  rw [memWrite4_mem]
  split_ifs
  · rw [memWrite2_byte_unwritable _ _ _ _ hk, memWrite2_byte_unwritable _ _ _ _ hk]
  · rfl

theorem storeByte_byte_unwritable (b : Byte) (k : Nat)
    (hk : ¬ ((0x40000000 ≤ k ∧ k ≤ 0x40000029) ∨ (0x40000C00 ≤ k ∧ k ≤ 0x40001FFF))) :
    (storeByte s a b).mem.byte k = s.mem.byte k := by
  unfold storeByte
  dsimp only
  rw [memWrite2_byte_unwritable _ _ _ _ hk, memRead2_snd]

end Sys2Proof.Machine
end

