-- ==== Sys2Proof/Laws/Block.lean ====
section
/-! SUPPORT. The laws of the block transfers: what a register list holds, where each transfer goes, and all that the two
loops can change. -/

namespace Sys2Proof.Machine

theorem mem_regList (list : BitVec 8) (r : RegNo) :
    r ∈ regList list ↔ r.toNat < 8 ∧ list.getLsbD r.toNat = true := by
  unfold regList
  simp only [List.mem_map, List.mem_filter]
  constructor
  · rintro ⟨i, ⟨hi, hb⟩, rfl⟩
    simp only [List.mem_cons, List.not_mem_nil, or_false] at hi
    rcases hi with rfl | rfl | rfl | rfl | rfl | rfl | rfl | rfl <;> exact ⟨by decide, hb⟩
  · rintro ⟨h, hb⟩
    refine ⟨r.toNat, ⟨?_, hb⟩, BitVec.ofNat_toNat .. |>.trans (by simp)⟩
    have : r.toNat = 0 ∨ r.toNat = 1 ∨ r.toNat = 2 ∨ r.toNat = 3 ∨ r.toNat = 4 ∨ r.toNat = 5 ∨ r.toNat = 6 ∨
        r.toNat = 7 := by omega
    rcases this with h | h | h | h | h | h | h | h <;> rw [h] <;> decide

/-- A listed register is a low register: none of the stack pointer, the link register and the counter. -/
theorem regList_low {list : BitVec 8} {r : RegNo} (h : r ∈ regList list) : r ≠ 13#4 ∧ r ≠ 14#4 ∧ r ≠ 15#4 := by
  have := ((mem_regList list r).1 h).1
  refine ⟨?_, ?_, ?_⟩ <;> rintro rfl <;> simp at this

theorem regList_nodup (list : BitVec 8) : (regList list).Nodup := by
  unfold regList
  refine List.Nodup.map_on ?_ (List.Nodup.filter _ (by decide))
  intro x hx y hy h
  have h1 : x < 8 := by
    have := (List.mem_filter.1 hx).1
    simp only [List.mem_cons, List.not_mem_nil, or_false] at this; omega
  have h2 : y < 8 := by
    have := (List.mem_filter.1 hy).1
    simp only [List.mem_cons, List.not_mem_nil, or_false] at this; omega
  have := congrArg BitVec.toNat h
  simp only [BitVec.toNat_ofNat] at this
  omega

/-! ### Loads -/

/-- The address after the last word. -/
theorem loadRegs_fst (l : List RegNo) (a : Word) (s : State) :
    (loadRegs l a s).1 = a + BitVec.ofNat 32 (4 * l.length) := by
  induction l generalizing a s with
  | nil => simp [loadRegs]
  | cons r l ih =>
    simp only [loadRegs, ih, List.length_cons]
    apply BitVec.eq_of_toNat_eq
    simp only [BitVec.toNat_add, BitVec.toNat_ofNat]
    omega

/-- All that the load loop can change: registers and the read counter. -/
theorem loadRegs_snd (l : List RegNo) (a : Word) (s : State) :
    (loadRegs l a s).2 =
      { s with general := (loadRegs l a s).2.general, shadow13 := (loadRegs l a s).2.shadow13
               shadow14 := (loadRegs l a s).2.shadow14, reads := (loadRegs l a s).2.reads } := by
  induction l generalizing a s with
  | nil => rfl
  | cons r l ih =>
    simp only [loadRegs]
    rw [ih, memRead4_snd a s, writeReg_eq_with]

/-- A register outside the list keeps its value. -/
theorem loadRegs_readReg (l : List RegNo) (a : Word) (s : State) (n : RegNo) (h : n ∉ l) :
    (loadRegs l a s).2.readReg n = s.readReg n := by
  induction l generalizing a s with
  | nil => rfl
  | cons r l ih =>
    simp only [List.mem_cons, not_or] at h
    simp only [loadRegs]
    rw [ih _ _ h.2, readReg_writeReg_ne _ _ _ _ h.1, memRead4_snd a s]
    exact readReg_congr rfl rfl rfl rfl rfl n

/-- A list of low registers leaves the shadow pair. -/
theorem loadRegs_shadow (l : List RegNo) (a : Word) (s : State) (h : ∀ r ∈ l, r ≠ 13#4 ∧ r ≠ 14#4) :
    (loadRegs l a s).2.shadow13 = s.shadow13 ∧ (loadRegs l a s).2.shadow14 = s.shadow14 := by
  induction l generalizing a s with
  | nil => exact ⟨rfl, rfl⟩
  | cons r l ih =>
    have hr := h r (by simp)
    simp only [loadRegs]
    have := ih (a + 4#32) ((memRead4 s a).2.writeReg r (memRead4 s a).1) fun q hq => h q (by simp [hq])
    rw [this.1, this.2, memRead4_snd a s]
    unfold State.writeReg
    simp only [hr.1, hr.2, if_false]
    split_ifs <;> exact ⟨rfl, rfl⟩

/-- An entry of the shared bank that no listed register selects keeps its value. -/
theorem loadRegs_general (l : List RegNo) (a : Word) (s : State) (k : Nat) (hk : k < 16)
    (h : k = 13 ∨ k = 14 ∨ BitVec.ofNat 4 k ∉ l) : (loadRegs l a s).2.general[k] = s.general[k] := by
  induction l generalizing a s with
  | nil => rfl
  | cons r l ih =>
    simp only [loadRegs]
    rw [ih _ _ (by rcases h with h | h | h <;> simp_all)]
    rw [memRead4_snd a s]
    unfold State.writeReg
    split_ifs with h0 h13 h14 <;> try rfl
    simp only [Vector.getElem_set]
    rw [if_neg]
    intro he
    subst he
    rcases h with h | h | h
    · exact h13 (BitVec.eq_of_toNat_eq h)
    · exact h14 (BitVec.eq_of_toNat_eq h)
    · simp at h

/-! ### Stores -/

/-- The address after the last word. -/
theorem storeRegs_fst (l : List RegNo) (a : Word) (s : State) :
    (storeRegs l a s).1 = a + BitVec.ofNat 32 (4 * l.length) := by
  induction l generalizing a s with
  | nil => simp [storeRegs]
  | cons r l ih =>
    simp only [storeRegs, ih, List.length_cons]
    apply BitVec.eq_of_toNat_eq
    simp only [BitVec.toNat_add, BitVec.toNat_ofNat]
    omega

/-- All that the store loop can change: memory, MAMCR and the write counter. -/
theorem storeRegs_snd (l : List RegNo) (a : Word) (s : State) :
    (storeRegs l a s).2 =
      { s with mem := (storeRegs l a s).2.mem, mamcr := (storeRegs l a s).2.mamcr
               writes := (storeRegs l a s).2.writes } := by
  induction l generalizing a s with
  | nil => rfl
  | cons r l ih =>
    simp only [storeRegs]
    rw [ih, memWrite4_eq a s]

theorem storeRegs_wf (l : List RegNo) (a : Word) (s : State) (h : s.mem.wf) : (storeRegs l a s).2.mem.wf := by
  induction l generalizing a s with
  | nil => exact h
  | cons r l ih => exact ih _ _ (memWrite4_wf _ _ _ h)

theorem storeRegs_inArrays (l : List RegNo) (a : Word) (s : State) (h : s.mem.inArrays) :
    (storeRegs l a s).2.mem.inArrays := by
  induction l generalizing a s with
  | nil => exact h
  | cons r l ih => exact ih _ _ (memWrite4_inArrays _ _ _ h)

/-- A byte outside the two writable ranges of RAM is kept. -/
theorem storeRegs_byte_unwritable (l : List RegNo) (a : Word) (s : State) (k : Nat)
    (hk : ¬ ((0x40000000 ≤ k ∧ k ≤ 0x40000029) ∨ (0x40000C00 ≤ k ∧ k ≤ 0x40001FFF))) :
    (storeRegs l a s).2.mem.byte k = s.mem.byte k := by
  induction l generalizing a s with
  | nil => rfl
  | cons r l ih =>
    simp only [storeRegs]
    rw [ih, memWrite4_byte_unwritable _ _ _ _ hk]

end Sys2Proof.Machine
end

