-- ==== Sys2Proof/Laws/Flags.lean ====
section
/-! SUPPORT. The exact arithmetic of Safety.lean against the machine's word operations, and all that the flag-writing
operations can change. -/

namespace Sys2Proof.Machine

theorem carryWord_toNat (c : Bool) : (carryWord c).toNat = c.toNat := by cases c <;> rfl

theorem getLsbD_31_eq (r : Word) : r.getLsbD 31 = decide (2 ^ 31 ≤ r.toNat) := by
  have h : r.getLsbD 31 = r.msb := by simp [BitVec.msb_eq_getLsbD_last]
  rw [h, BitVec.msb_eq_decide]

theorem nzOf_eq (p : Cpsr) (r : Word) : nzOf p r = p.setNZ r := by
  unfold nzOf Cpsr.setNZ
  rw [getLsbD_31_eq]
  have : (r.toNat = 0) = (r = 0#32) := by rw [← BitVec.toNat_inj]; rfl
  simp only [this]

/-- The exact sum, narrowed, is the word sum. -/
theorem sumOf_eq (a b : Word) (c : Bool) : sumOf a b c = a + b + carryWord c := by
  apply BitVec.eq_of_toNat_eq
  simp only [sumOf, BitVec.toNat_ofNat, BitVec.toNat_add, carryWord_toNat]
  omega

/-- The exact difference, narrowed, is the word difference. -/
theorem differenceOf_eq (a b : Word) (c : Bool) : differenceOf a b c = a - b - (1#32 - carryWord c) := by
  apply BitVec.eq_of_toInt_eq
  have h : (1#32 - carryWord c).toNat = 1 - c.toNat := by cases c <;> rfl
  rw [differenceOf, BitVec.toInt_ofInt, BitVec.toInt_sub, BitVec.toInt_sub, BitVec.toInt_eq_toNat_bmod,
    BitVec.toInt_eq_toNat_bmod, BitVec.toInt_eq_toNat_bmod, h]
  simp only [Int.sub_bmod_bmod, Int.bmod_sub_bmod]

variable (s : State) (n : RegNo) (a b v : Word) (c : Bool) (p : Cpsr)

/-- All that `AddWithFlags` does to the status register keeps I, F, T and the mode. -/
theorem addWithFlags_mode : (addWithFlags p a b c).2.mode = p.mode := rfl

theorem subWithFlags_mode : (subWithFlags p a b c).2.mode = p.mode := rfl

/-- All that a flag-setting addition does. -/
theorem writeAdd_eq : s.writeAdd n a b c =
    { s.writeReg n (addWithFlags s.cpsr a b c).1 with cpsr := (addWithFlags s.cpsr a b c).2 } :=
  writeReg_with_cpsr _ _ _ _ rfl

/-- All that a flag-setting subtraction does. -/
theorem writeSub_eq : s.writeSub n a b c =
    { s.writeReg n (subWithFlags s.cpsr a b c).1 with cpsr := (subWithFlags s.cpsr a b c).2 } :=
  writeReg_with_cpsr _ _ _ _ rfl

/-- All that writing a result with N and Z does. -/
theorem writeNZ_eq : s.writeNZ n v = { s.writeReg n v with cpsr := s.cpsr.setNZ v } :=
  writeReg_with_cpsr _ _ _ _ rfl

/-- All that writing a shifter's result does. -/
theorem writeShifted_eq (out : Word × Bool) : s.writeShifted n out =
    { s.writeReg n out.1 with cpsr := (s.cpsr.setNZ out.1).setC out.2 } :=
  writeReg_with_cpsr _ _ _ _ rfl

end Sys2Proof.Machine
end

