-- ==== Sys2Proof/Laws/Exec.lean ====
section
/-! SUPPORT. What every instruction keeps, said once: claims over all instructions and over the step cite it. -/

namespace Sys2Proof.Machine

/-- What no instruction fails to keep. -/
structure Kept (s t : State) : Prop where
  params : t.params = s.params
  mode : t.cpsr.mode = s.cpsr.mode
  thumb : t.cpsr.t = s.cpsr.t
  irq : t.cpsr.i = s.cpsr.i
  fiq : t.cpsr.f = s.cpsr.f
  instructions : t.instructions = s.instructions
  fetches : t.fetches = s.fetches
  wf : s.mem.wf → t.mem.wf
  arrays : s.mem.inArrays → t.mem.inArrays
  unwritable : ∀ k, ¬ writableKey k → t.mem.byte k = s.mem.byte k
  hidden : ∀ (k : Nat) (hk : k < 16), k = 13 ∨ k = 14 → t.general[k] = s.general[k]

namespace Kept

variable {s t u : State}

theorem refl (s : State) : Kept s s :=
  ⟨rfl, rfl, rfl, rfl, rfl, rfl, rfl, id, id, fun _ _ => rfl, fun _ _ _ => rfl⟩

theorem trans (h : Kept s t) (g : Kept t u) : Kept s u :=
  ⟨g.params.trans h.params, g.mode.trans h.mode, g.thumb.trans h.thumb, g.irq.trans h.irq, g.fiq.trans h.fiq,
    g.instructions.trans h.instructions, g.fetches.trans h.fetches, g.wf ∘ h.wf, g.arrays ∘ h.arrays,
    fun k hk => (g.unwritable k hk).trans (h.unwritable k hk),
    fun k hk h' => (g.hidden k hk h').trans (h.hidden k hk h')⟩

theorem writeReg (s : State) (n : RegNo) (v : Word) : Kept s (s.writeReg n v) :=
  ⟨by simp, by simp, by simp, by simp, by simp, by simp, by simp, by simp, by simp, by simp,
    fun k _ h => writeReg_general_hidden s n v k h⟩

theorem cpsr (s : State) (p : Cpsr) (hm : p.mode = s.cpsr.mode) (ht : p.t = s.cpsr.t) (hi : p.i = s.cpsr.i)
    (hf : p.f = s.cpsr.f) : Kept s { s with cpsr := p } :=
  ⟨rfl, hm, ht, hi, hf, rfl, rfl, id, id, fun _ _ => rfl, fun _ _ _ => rfl⟩

theorem latch (s : State) (l : Option Half) : Kept s { s with latch := l } :=
  ⟨rfl, rfl, rfl, rfl, rfl, rfl, rfl, id, id, fun _ _ => rfl, fun _ _ _ => rfl⟩

theorem terminate (s : State) (r : Termination) : Kept s (s.terminate r) :=
  ⟨rfl, rfl, rfl, rfl, rfl, rfl, rfl, id, id, fun _ _ => rfl, fun _ _ _ => rfl⟩

theorem memRead2 (s : State) (a : Word) : Kept s (memRead2 s a).2 := by
  rw [memRead2_snd]
  exact ⟨rfl, rfl, rfl, rfl, rfl, rfl, rfl, id, id, fun _ _ => rfl, fun _ _ _ => rfl⟩

theorem memRead4 (s : State) (a : Word) : Kept s (memRead4 s a).2 := by
  rw [memRead4_snd]
  exact ⟨rfl, rfl, rfl, rfl, rfl, rfl, rfl, id, id, fun _ _ => rfl, fun _ _ _ => rfl⟩

theorem loadByte (s : State) (a : Word) : Kept s (loadByte s a).2 := memRead2 s (evenAddr a)

theorem memWrite2 (s : State) (a : Word) (v : Half) : Kept s (memWrite2 s a v) := by
  have h := memWrite2_eq a s v
  exact ⟨by rw [h], by rw [h], by rw [h], by rw [h], by rw [h], by rw [h], by rw [h], memWrite2_wf a s v,
    memWrite2_inArrays a s v, fun k hk => memWrite2_byte_unwritable a s v k hk,
    fun k hk _ => by rw [memWrite2_general]⟩

theorem memWrite4 (s : State) (a : Word) (v : Word) : Kept s (memWrite4 s a v) := by
  have h := memWrite4_eq a s v
  exact ⟨by rw [h], by rw [h], by rw [h], by rw [h], by rw [h], by rw [h], by rw [h], memWrite4_wf a s v,
    memWrite4_inArrays a s v, fun k hk => memWrite4_byte_unwritable a s v k hk,
    fun k hk _ => by rw [memWrite4_general]⟩

theorem storeByte (s : State) (a : Word) (b : Byte) : Kept s (storeByte s a b) :=
  (memRead2 s (evenAddr a)).trans (memWrite2 _ _ _)

theorem loadRegs (l : List RegNo) (a : Word) (s : State) : Kept s (loadRegs l a s).2 := by
  induction l generalizing a s with
  | nil => exact refl s
  | cons r l ih => exact ((memRead4 s a).trans (writeReg _ _ _)).trans (ih _ _)

theorem storeRegs (l : List RegNo) (a : Word) (s : State) : Kept s (storeRegs l a s).2 := by
  induction l generalizing a s with
  | nil => exact refl s
  | cons r l ih => exact (memWrite4 s a _).trans (ih _ _)

theorem writeAdd (s : State) (n : RegNo) (a b : Word) (c : Bool) : Kept s (s.writeAdd n a b c) :=
  (cpsr s (addWithFlags s.cpsr a b c).2 rfl rfl rfl rfl).trans (writeReg _ _ _)

theorem writeSub (s : State) (n : RegNo) (a b : Word) (c : Bool) : Kept s (s.writeSub n a b c) :=
  (cpsr s (subWithFlags s.cpsr a b c).2 rfl rfl rfl rfl).trans (writeReg _ _ _)

theorem writeNZ (s : State) (n : RegNo) (v : Word) : Kept s (s.writeNZ n v) :=
  (cpsr s (s.cpsr.setNZ v) rfl rfl rfl rfl).trans (writeReg _ _ _)

theorem writeShifted (s : State) (n : RegNo) (o : Word × Bool) : Kept s (s.writeShifted n o) :=
  (cpsr s ((s.cpsr.setNZ o.1).setC o.2) rfl rfl rfl rfl).trans (writeReg _ _ _)

theorem writeAddressAdd (s : State) (n : RegNo) (a b : Word) : Kept s (s.writeAddressAdd n a b) := by
  unfold State.writeAddressAdd; split_ifs
  · exact writeAdd _ _ _ _ _
  · exact writeReg _ _ _

theorem writeAddressSub (s : State) (n : RegNo) (a b : Word) : Kept s (s.writeAddressSub n a b) := by
  unfold State.writeAddressSub; split_ifs
  · exact writeSub _ _ _ _ _
  · exact writeReg _ _ _

theorem loadWord (s : State) (rd : LowReg) (ea : Word) : Kept s (s.loadWord rd ea) :=
  (memRead4 s ea).trans (writeReg _ _ _)

theorem loadHalf (s : State) (rd : LowReg) (ea : Word) (f : Word → Word) : Kept s (s.loadHalf rd ea f) :=
  (memRead2 s ea).trans (writeReg _ _ _)

theorem loadByteInto (s : State) (rd : LowReg) (ea : Word) (f : Byte → Word) : Kept s (s.loadByteInto rd ea f) :=
  (loadByte s ea).trans (writeReg _ _ _)

theorem compareAdd (s : State) (a b : Word) : Kept s (s.compareAdd a b) :=
  cpsr s (addWithFlags s.cpsr a b false).2 rfl rfl rfl rfl

theorem compareSub (s : State) (a b : Word) : Kept s (s.compareSub a b) :=
  cpsr s (subWithFlags s.cpsr a b true).2 rfl rfl rfl rfl

theorem setNZ (s : State) (v : Word) : Kept s { s with cpsr := s.cpsr.setNZ v } := cpsr s _ rfl rfl rfl rfl

end Kept

/-- A next state that keeps, if the answer's does. -/
theorem Kept.of_next {s u t : State} (k : Kept s u) (h : (.next u : Result) = .next t) : Kept s t := by
  cases h; exact k

/-- Every next state that an instruction answers keeps what `Kept` says. -/
theorem exec_kept {i : Instr} {s t : State} (h : exec i s = .next t) : Kept s t := by
  cases i with
  | and _ _ => exact .of_next (Kept.writeNZ _ _ _) h
  | eor _ _ => exact .of_next (Kept.writeNZ _ _ _) h
  | lsl2 _ _ => exact .of_next (Kept.writeShifted _ _ _) h
  | lsr2 _ _ => exact .of_next (Kept.writeShifted _ _ _) h
  | asr2 _ _ => exact .of_next (Kept.writeShifted _ _ _) h
  | adc _ _ => exact .of_next (Kept.writeAdd _ _ _ _ _) h
  | sbc _ _ => exact .of_next (Kept.writeSub _ _ _ _ _) h
  | ror _ _ => exact .of_next (Kept.writeShifted _ _ _) h
  | tst _ _ => exact .of_next (Kept.setNZ _ _) h
  | neg _ _ => exact .of_next (Kept.writeSub _ _ _ _ _) h
  | cmp2 _ _ => exact .of_next (Kept.compareSub _ _ _) h
  | cmn _ _ => exact .of_next (Kept.compareAdd _ _ _) h
  | orr _ _ => exact .of_next (Kept.writeNZ _ _ _) h
  | mul _ _ => exact .of_next (Kept.writeNZ _ _ _) h
  | bic _ _ => exact .of_next (Kept.writeNZ _ _ _) h
  | mvn _ _ => exact .of_next (Kept.writeNZ _ _ _) h
  | lsl1 _ _ _ => exact .of_next (Kept.writeShifted _ _ _) h
  | lsr1 _ _ _ => exact .of_next (Kept.writeShifted _ _ _) h
  | asr1 _ _ _ => exact .of_next (Kept.writeShifted _ _ _) h
  | add3 _ _ _ => exact .of_next (Kept.writeAdd _ _ _ _ _) h
  | sub3 _ _ _ => exact .of_next (Kept.writeSub _ _ _ _ _) h
  | mov2 _ _ => exact .of_next ((Kept.cpsr _ (((s.cpsr.setNZ _).setC false).setV false) rfl rfl rfl rfl).trans (Kept.writeReg _ _ _)) h
  | add1 _ _ _ => exact .of_next (Kept.writeAdd _ _ _ _ _) h
  | sub1 _ _ _ => exact .of_next (Kept.writeSub _ _ _ _ _) h
  | mov1 _ _ => exact .of_next (Kept.writeNZ _ _ _) h
  | cmp1 _ _ => exact .of_next (Kept.compareSub _ _ _) h
  | add2 _ _ => exact .of_next (Kept.writeAdd _ _ _ _ _) h
  | sub2 _ _ => exact .of_next (Kept.writeSub _ _ _ _ _) h
  | add4 _ _ => exact .of_next (Kept.writeAddressAdd _ _ _ _) h
  | cmp3 _ _ => exact .of_next (Kept.compareSub _ _ _) h
  | cpy _ _ => exact .of_next (Kept.writeReg _ _ _) h
  | mov3 _ _ => exact .of_next (Kept.writeReg _ _ _) h
  | bx _ =>
    simp only [exec, execBx] at h
    split_ifs at h
    · exact .of_next (Kept.writeReg _ _ _) h
    · exact .of_next (Kept.terminate _ _) h
  | blx2 _ =>
    simp only [exec, execBlx2] at h
    split_ifs at h
    · exact .of_next ((Kept.writeReg s _ _).trans (Kept.writeReg _ _ _)) h
    · exact .of_next (Kept.terminate _ _) h
  | ldr3 _ _ => exact .of_next (Kept.loadWord _ _ _) h
  | str2 _ _ _ => exact .of_next (Kept.memWrite4 _ _ _) h
  | strh2 _ _ _ => exact .of_next (Kept.memWrite2 _ _ _) h
  | strb2 _ _ _ => exact .of_next (Kept.storeByte _ _ _) h
  | ldrsb _ _ _ => exact .of_next (Kept.loadByteInto _ _ _ _) h
  | ldr2 _ _ _ => exact .of_next (Kept.loadWord _ _ _) h
  | ldrh2 _ _ _ => exact .of_next (Kept.loadHalf _ _ _ _) h
  | ldrb2 _ _ _ => exact .of_next (Kept.loadByteInto _ _ _ _) h
  | ldrsh _ _ _ => exact .of_next (Kept.loadHalf _ _ _ _) h
  | str1 _ _ _ => exact .of_next (Kept.memWrite4 _ _ _) h
  | ldr1 _ _ _ => exact .of_next (Kept.loadWord _ _ _) h
  | strb1 _ _ _ => exact .of_next (Kept.storeByte _ _ _) h
  | ldrb1 _ _ _ => exact .of_next (Kept.loadByteInto _ _ _ _) h
  | strh1 _ _ _ => exact .of_next (Kept.memWrite2 _ _ _) h
  | ldrh1 _ _ _ => exact .of_next (Kept.loadHalf _ _ _ _) h
  | str3 _ _ => exact .of_next (Kept.memWrite4 _ _ _) h
  | ldr4 _ _ => exact .of_next (Kept.loadWord _ _ _) h
  | add5 _ _ => exact .of_next (Kept.writeAddressAdd _ _ _ _) h
  | add6 _ _ => exact .of_next (Kept.writeAddressAdd _ _ _ _) h
  | add7 _ => exact .of_next (Kept.writeAddressAdd _ _ _ _) h
  | sub4 _ => exact .of_next (Kept.writeAddressSub _ _ _ _) h
  | sxth _ _ => exact .of_next (Kept.writeReg _ _ _) h
  | sxtb _ _ => exact .of_next (Kept.writeReg _ _ _) h
  | uxth _ _ => exact .of_next (Kept.writeReg _ _ _) h
  | uxtb _ _ => exact .of_next (Kept.writeReg _ _ _) h
  | push _ _ =>
    refine .of_next (Kept.trans ?_ (Kept.writeReg _ _ _)) h
    split_ifs
    · exact (Kept.storeRegs _ _ s).trans (Kept.memWrite4 _ _ _)
    · exact Kept.storeRegs _ _ s
  | setend _ => exact .of_next (Kept.terminate _ _) h
  | cps _ _ _ _ => exact .of_next (Kept.terminate _ _) h
  | rev _ _ => exact .of_next (Kept.writeReg _ _ _) h
  | rev16 _ _ => exact .of_next (Kept.writeReg _ _ _) h
  | revsh _ _ => exact .of_next (Kept.writeReg _ _ _) h
  | pop _ _ =>
    simp only [exec, execPop] at h
    split_ifs at h
    · exact .of_next ((((Kept.loadRegs _ _ s).trans (Kept.memRead4 _ _)).trans (Kept.writeReg _ _ _)).trans
        (Kept.writeReg _ _ _)) h
    · exact .of_next ((Kept.loadRegs _ _ s).trans (Kept.writeReg _ _ _)) h
  | bkpt _ => exact .of_next (Kept.terminate _ _) h
  | stmia _ _ => exact .of_next ((Kept.storeRegs _ _ s).trans (Kept.writeReg _ _ _)) h
  | ldmia _ _ => exact .of_next ((Kept.loadRegs _ _ s).trans (Kept.writeReg _ _ _)) h
  | swi _ => exact .of_next (Kept.terminate _ _) h
  | b1 _ _ =>
    refine .of_next ?_ h
    split_ifs
    · exact Kept.writeReg _ _ _
    · exact Kept.refl _
  | b2 _ => exact .of_next (Kept.writeReg _ _ _) h
  | blx1Suffix _ => exact .of_next (Kept.terminate _ _) h
  | blPrefix _ => exact .of_next (Kept.latch _ _) h
  | blSuffix _ =>
    simp only [exec, execBlSuffix] at h
    split at h
    · cases h
    · exact .of_next (((Kept.writeReg s _ _).trans (Kept.writeReg _ _ _)).trans (Kept.latch _ _)) h

end Sys2Proof.Machine
end

