-- ==== Sys2Proof/Tests/Slice0.lean ====
section
/-! SUPPORT. The model's own tests: well-formedness, decoding, one step or less per test, and a witness for the hypotheses
of every statement that has some. Expected values are the examples of spec/ (rules R121 to R275, 95_test_vectors.md). -/

namespace Sys2Proof.Tests

open Sys2Proof.Machine

/-! ### Well-formedness: an ill-formed term for each check -/

theorem test_add1_zero_ill_formed : (Instr.add1 0 1 0).wellFormed true = false := by decide
theorem test_add1_zero_word_is_mov2 : decode true (encode (.add1 0 1 0)) = .ok (.mov2 0 1) := by decide
theorem test_mov3_low_low_ill_formed : (Instr.mov3 7 0).wellFormed true = false := by decide
theorem test_mov3_low_low_word_is_cpy : decode true (encode (.mov3 7 0)) = .ok (.cpy 7 0) := by decide
theorem test_mul_absent_ill_formed : (Instr.mul 0 1).wellFormed false = false := by decide
theorem test_mul_absent_unmatched : decode false 0x4348#16 = .error (.unmatched 0x4348#16) := by decide

/-! ### Decoding: every row of the table, its word written out from the pattern of 30_encoding.md R96 -/

/-- The decoder reads the 16-bit word as the instruction. -/
def reads (w : Nat) (i : Instr) : Bool := decodeTableWord 16 w == some i

theorem test_decode_alu :
    [reads 0b0100000000110101 (.and 5 6),
     reads 0b0100000001110101 (.eor 5 6),
     reads 0b0100000010001101 (.lsl2 5 1),
     reads 0b0100000011001101 (.lsr2 5 1),
     reads 0b0100000100001101 (.asr2 5 1),
     reads 0b0100000101110101 (.adc 5 6),
     reads 0b0100000110110101 (.sbc 5 6),
     reads 0b0100000111001101 (.ror 5 1),
     reads 0b0100001000110011 (.tst 3 6),
     reads 0b0100001001110101 (.neg 5 6),
     reads 0b0100001010110011 (.cmp2 3 6),
     reads 0b0100001011110011 (.cmn 3 6),
     reads 0b0100001100110101 (.orr 5 6),
     reads 0b0100001101110101 (.mul 5 6),
     reads 0b0100001110110101 (.bic 5 6),
     reads 0b0100001111110101 (.mvn 5 6)].all id = true := by decide

theorem test_decode_shift_imm :
    [reads 0b0000010110110101 (.lsl1 5 6 0b10110),
     reads 0b0000110110110101 (.lsr1 5 6 0b10110),
     reads 0b0001010110110101 (.asr1 5 6 0b10110)].all id = true := by decide

theorem test_decode_add_sub :
    [reads 0b0001100110011101 (.add3 5 3 6),
     reads 0b0001101110011101 (.sub3 5 3 6),
     reads 0b0001110000011101 (.mov2 5 3),
     reads 0b0001110110011101 (.add1 5 3 0b110),
     reads 0b0001111110011101 (.sub1 5 3 0b110)].all id = true := by decide

theorem test_decode_imm8 :
    [reads 0b0010010110110010 (.mov1 5 0b10110010),
     reads 0b0010101110110010 (.cmp1 3 0b10110010),
     reads 0b0011010110110010 (.add2 5 0b10110010),
     reads 0b0011110110110010 (.sub2 5 0b10110010)].all id = true := by decide

theorem test_decode_hi_reg :
    [reads 0b0100010011001101 (.add4 13 9),
     reads 0b0100010111001011 (.cmp3 11 9),
     reads 0b0100011000110101 (.cpy 5 6),
     reads 0b0100011011001101 (.mov3 13 9),
     reads 0b0100011101001000 (.bx 9),
     reads 0b0100011111001000 (.blx2 9)].all id = true := by decide

theorem test_decode_load_store_reg :
    [reads 0b0100110110110010 (.ldr3 5 0b10110010),
     reads 0b0101000110011101 (.str2 5 3 6),
     reads 0b0101001110011101 (.strh2 5 3 6),
     reads 0b0101010110011101 (.strb2 5 3 6),
     reads 0b0101011110011101 (.ldrsb 5 3 6),
     reads 0b0101100110011101 (.ldr2 5 3 6),
     reads 0b0101101110011101 (.ldrh2 5 3 6),
     reads 0b0101110110011101 (.ldrb2 5 3 6),
     reads 0b0101111110011101 (.ldrsh 5 3 6)].all id = true := by decide

theorem test_decode_load_store_imm :
    [reads 0b0110010110011101 (.str1 5 3 0b10110),
     reads 0b0110110110011101 (.ldr1 5 3 0b10110),
     reads 0b0111010110011101 (.strb1 5 3 0b10110),
     reads 0b0111110110011101 (.ldrb1 5 3 0b10110),
     reads 0b1000010110011101 (.strh1 5 3 0b10110),
     reads 0b1000110110011101 (.ldrh1 5 3 0b10110),
     reads 0b1001010110110010 (.str3 5 0b10110010),
     reads 0b1001110110110010 (.ldr4 5 0b10110010)].all id = true := by decide

theorem test_decode_address :
    [reads 0b1010010110110010 (.add5 5 0b10110010),
     reads 0b1010110110110010 (.add6 5 0b10110010),
     reads 0b1011000001011001 (.add7 0b1011001),
     reads 0b1011000011011001 (.sub4 0b1011001)].all id = true := by decide

theorem test_decode_extend :
    [reads 0b1011001000110101 (.sxth 5 6),
     reads 0b1011001001110101 (.sxtb 5 6),
     reads 0b1011001010110101 (.uxth 5 6),
     reads 0b1011001011110101 (.uxtb 5 6)].all id = true := by decide

theorem test_decode_misc :
    [reads 0b1011010110010110 (.push true 0b10010110),
     reads 0b1011011001011000 (.setend true),
     reads 0b1011011001110101 (.cps true true false true),
     reads 0b1011101000110101 (.rev 5 6),
     reads 0b1011101001110101 (.rev16 5 6),
     reads 0b1011101011110101 (.revsh 5 6),
     reads 0b1011110110010110 (.pop true 0b10010110),
     reads 0b1011111010110010 (.bkpt 0b10110010)].all id = true := by decide

theorem test_decode_block_and_branch :
    [reads 0b1100001110010110 (.stmia 3 0b10010110),
     reads 0b1100101110010110 (.ldmia 3 0b10010110),
     reads 0b1101111110110010 (.swi 0b10110010),
     reads 0b1101110010110010 (.b1 .gt 0b10110010),
     reads 0b1110010110011101 (.b2 0b10110011101),
     reads 0b1110110110011101 (.blx1Suffix 0b10110011101),
     reads 0b1111010110011101 (.blPrefix 0b10110011101),
     reads 0b1111110110011101 (.blSuffix 0b10110011101)].all id = true := by decide

/-- The ends of the unmatched ranges of R98, and the words beside them that match. -/
theorem test_unmatched_ends :
    [0x4701, 0x47FF, 0xB100, 0xB1FF, 0xB300, 0xB3FF, 0xB600, 0xB64F, 0xB651, 0xB657, 0xB659, 0xB65F, 0xB668, 0xB66F,
      0xB678, 0xB9FF, 0xBA80, 0xBABF, 0xBB00, 0xBBFF, 0xBF00, 0xBFFF, 0xDE00, 0xDEFF].all
        (fun w => decodeTableWord 16 w == none) = true ∧
    [0x4700, 0x47F8, 0xB0FF, 0xB200, 0xB2FF, 0xB400, 0xB5FF, 0xB650, 0xB658, 0xB660, 0xB667, 0xB670, 0xB677, 0xBA00,
      0xBA7F, 0xBAC0, 0xBAFF, 0xBC00, 0xBEFF, 0xC000, 0xDDFF, 0xDF00].all
        (fun w => decodeTableWord 16 w != none) = true := by decide

/-! ### One instruction each: the examples of the rules -/

/-- Flags, written N Z C V as the spec writes them. -/
def flags (n z c v : Bool) (s : State) : Bool := s.cpsr.n == n && s.cpsr.z == z && s.cpsr.c == c && s.cpsr.v == v

/-- A start state: the state of an instruction at the default entry, registers 0 to 2 and the flags given. -/
def start (r0 r1 r2 : Word) (n z c v : Bool) : State :=
  { State.reset with
    general := (((State.reset.general.set 0 r0).set 1 r1).set 2 r2).set 15 0x00000C0D#32
    cpsr := { State.reset.cpsr with n := n, z := z, c := c, v := v } }

/-- The cells of the examples of 46_load_store.md, from 0x40001000 upward. -/
def exampleMemory : Memory :=
  [(0x40001000, 0x78#8), (0x40001001, 0x56#8), (0x40001002, 0x34#8), (0x40001003, 0x12#8), (0x40001004, 0xEF#8),
   (0x40001005, 0xBE#8), (0x40001006, 0xAD#8), (0x40001007, 0xDE#8), (0x40001008, 0xFF#8), (0x40001009, 0x80#8),
   (0x4000100A, 0x80#8), (0x4000100B, 0x7F#8)]

/-- A start state with the example cells. -/
def startMem (r0 r1 r2 : Word) : State := { start r0 r1 r2 true false true false with mem := exampleMemory }

/-- The instruction answers a next state that passes `p`. -/
def runs (i : Instr) (s : State) (p : State → Bool) : Bool :=
  match exec i s with
  | .next t => p t
  | .fault _ => false
  | .refused _ => false

/-- Registers of a state: 0, 8, 13, 14, 15 by number. -/
def has (n : RegNo) (v : Word) (s : State) : Bool := s.readReg n == v

theorem test_adc : runs (.adc 0 1) (start 0xFFFFFFFF#32 0#32 0#32 false false true false)
    (fun t => has 0#4 0#32 t && flags false true true false t) = true := by decide
theorem test_add1 : runs (.add1 0 1 7) (start 0#32 0xFFFFFFFC#32 0#32 false false false false)
    (fun t => has 0#4 3#32 t && flags false false true false t) = true := by decide
theorem test_add2 : runs (.add2 2 1) (start 0#32 0#32 0x7FFFFFFF#32 false false false false)
    (fun t => has 2#4 0x80000000#32 t && flags true false false true t) = true := by decide
theorem test_add3 : runs (.add3 0 1 2) (start 0#32 0x7FFFFFFF#32 1#32 false false false false)
    (fun t => has 0#4 0x80000000#32 t && flags true false false true t) = true := by decide
theorem test_add4_pc : runs (.add4 15 0) (start 0x10#32 0#32 0#32 true false true false)
    (fun t => has 15#4 0xC1D#32 t && flags true false true false t) = true := by decide
theorem test_add4_sets_flags : runs (.add4 0 1)
    { start 0xFFFFFFFF#32 1#32 0#32 false false false false with
      params := { defaultParams with addrArithSetsFlags := true } }
    (fun t => has 0#4 0#32 t && flags false true true false t) = true := by decide
theorem test_add5 : runs (.add5 0 2) (start 0#32 0#32 0#32 false false false false) (has 0#4 0xC14#32) = true := by
  decide
theorem test_add6 : runs (.add6 1 4) (start 0#32 0#32 0#32 false false false false) (has 1#4 0x40001FC4#32) = true := by
  decide
theorem test_add7 : runs (.add7 2) (start 0#32 0#32 0#32 false false false false) (has 13#4 0x40001FBC#32) = true := by
  decide
theorem test_sub1 : runs (.sub1 0 1 1) (start 7#32 0#32 0#32 false false false false)
    (fun t => has 0#4 0xFFFFFFFF#32 t && flags true false false false t) = true := by decide
theorem test_sub2 : runs (.sub2 1 1) (start 0#32 1#32 0#32 false false false false)
    (fun t => has 1#4 0#32 t && flags false true true false t) = true := by decide
theorem test_sub3 : runs (.sub3 0 1 2) (start 0#32 0x80000000#32 1#32 false false false false)
    (fun t => has 0#4 0x7FFFFFFF#32 t && flags false false true true t) = true := by decide
theorem test_sub4 : runs (.sub4 2) (start 0#32 0#32 0#32 false false false false) (has 13#4 0x40001FAC#32) = true := by
  decide
theorem test_sbc_borrow : runs (.sbc 0 1) (start 5#32 5#32 0#32 false false false false)
    (fun t => has 0#4 0xFFFFFFFF#32 t && flags true false false false t) = true := by decide
theorem test_sbc_overflow : runs (.sbc 0 1) (start 0x80000000#32 0#32 0#32 false false false false)
    (fun t => has 0#4 0x7FFFFFFF#32 t && flags false false true true t) = true := by decide
theorem test_neg : runs (.neg 0 1) (start 0#32 0x80000000#32 0#32 false false false false)
    (fun t => has 0#4 0x80000000#32 t && flags true false false true t) = true := by decide
theorem test_cmn : runs (.cmn 0 1) (start 0xFFFFFFFF#32 1#32 0#32 false false false false)
    (fun t => has 0#4 0xFFFFFFFF#32 t && flags false true true false t) = true := by decide
theorem test_cmp1 : runs (.cmp1 0 5) (start 4#32 0#32 0#32 false false false false)
    (flags true false false false) = true := by decide
theorem test_cmp2 : runs (.cmp2 0 1) (start 0x80000000#32 1#32 0#32 false false false false)
    (flags false false true true) = true := by decide
theorem test_cmp3_pc : runs (.cmp3 0 15) (start 0xC0F#32 0#32 0#32 false false false false)
    (flags false false true false) = true := by decide
theorem test_mul : runs (.mul 0 1) (start 0xFFFFFFFF#32 2#32 0#32 false true true true)
    (fun t => has 0#4 0xFFFFFFFE#32 t && flags true false true true t) = true := by decide
theorem test_and : runs (.and 0 1) (start 0xF0F0F0F0#32 0x0FF00FF0#32 0#32 false false true true)
    (fun t => has 0#4 0x00F000F0#32 t && flags false false true true t) = true := by decide
theorem test_orr : runs (.orr 0 1) (start 0x80000000#32 1#32 0#32 false true true true)
    (fun t => has 0#4 0x80000001#32 t && flags true false true true t) = true := by decide
theorem test_eor : runs (.eor 0 1) (start 0xFFFFFFFF#32 0xFFFFFFFF#32 0#32 true false false true)
    (fun t => has 0#4 0#32 t && flags false true false true t) = true := by decide
theorem test_bic : runs (.bic 0 1) (start 0xFFFFFFFF#32 0x0000FFFF#32 0#32 false false false false)
    (fun t => has 0#4 0xFFFF0000#32 t && flags true false false false t) = true := by decide
theorem test_mvn : runs (.mvn 0 1) (start 5#32 0xFFFFFFFF#32 0#32 true false true false)
    (fun t => has 0#4 0#32 t && flags false true true false t) = true := by decide
theorem test_tst : runs (.tst 0 1) (start 0x80000001#32 0x80000000#32 0#32 false true false true)
    (fun t => has 0#4 0x80000001#32 t && flags true false false true t) = true := by decide
theorem test_lsl1 : runs (.lsl1 0 1 31) (start 0#32 3#32 0#32 false false false true)
    (fun t => has 0#4 0x80000000#32 t && flags true false true true t) = true := by decide
theorem test_lsl1_zero : runs (.lsl1 0 1 0) (start 0#32 0x80000000#32 0#32 false false true true)
    (fun t => has 0#4 0x80000000#32 t && flags true false true true t) = true := by decide
theorem test_lsl2_32 : runs (.lsl2 0 1) (start 0x80000001#32 0x120#32 0#32 false false false true)
    (fun t => has 0#4 0#32 t && flags false true true true t) = true := by decide
theorem test_lsl2_33 : runs (.lsl2 0 1) (start 0x80000001#32 33#32 0#32 false false true true)
    (fun t => has 0#4 0#32 t && flags false true false true t) = true := by decide
theorem test_lsr1_32 : runs (.lsr1 0 1 0) (start 0#32 0x80000000#32 0#32 false false false true)
    (fun t => has 0#4 0#32 t && flags false true true true t) = true := by decide
theorem test_lsr2_31 : runs (.lsr2 0 1) (start 0x80000001#32 31#32 0#32 false false true true)
    (fun t => has 0#4 1#32 t && flags false false false true t) = true := by decide
theorem test_lsr2_256 : runs (.lsr2 0 1) (start 0x80000001#32 256#32 0#32 false false true true)
    (fun t => has 0#4 0x80000001#32 t && flags true false true true t) = true := by decide
theorem test_asr1 : runs (.asr1 0 1 4) (start 0#32 0x7FFFFFF8#32 0#32 false false false true)
    (fun t => has 0#4 0x07FFFFFF#32 t && flags false false true true t) = true := by decide
theorem test_asr2_255 : runs (.asr2 0 1) (start 0x80000001#32 255#32 0#32 false false false true)
    (fun t => has 0#4 0xFFFFFFFF#32 t && flags true false true true t) = true := by decide
theorem test_ror_4 : runs (.ror 0 1) (start 0x80000001#32 4#32 0#32 false false true true)
    (fun t => has 0#4 0x18000000#32 t && flags false false false true t) = true := by decide
theorem test_ror_64 : runs (.ror 0 1) (start 0x80000001#32 64#32 0#32 false false false true)
    (fun t => has 0#4 0x80000001#32 t && flags true false true true t) = true := by decide
theorem test_mov1 : runs (.mov1 0 0) (start 9#32 0#32 0#32 true false true true)
    (fun t => has 0#4 0#32 t && flags false true true true t) = true := by decide
theorem test_mov2 : runs (.mov2 0 1) (start 0#32 0x80000000#32 0#32 false true true true)
    (fun t => has 0#4 0x80000000#32 t && flags true false false false t) = true := by decide
theorem test_mov3_pc : runs (.mov3 15 0) (start 0xC21#32 0#32 0#32 false false false false)
    (has 15#4 0xC23#32) = true := by decide
theorem test_mov3_pc_cleared : runs (.mov3 15 0)
    { start 0xC21#32 0#32 0#32 false false false false with
      params := { defaultParams with movPcClearsBit0 := true } }
    (has 15#4 0xC22#32) = true := by decide
theorem test_cpy : runs (.cpy 0 1) (start 0#32 0xDEADBEEF#32 0#32 false true false true)
    (fun t => has 0#4 0xDEADBEEF#32 t && flags false true false true t) = true := by decide
theorem test_sxtb : runs (.sxtb 0 1) (start 0#32 0x12345680#32 0#32 true true true true)
    (fun t => has 0#4 0xFFFFFF80#32 t && flags true true true true t) = true := by decide
theorem test_sxth : runs (.sxth 0 1) (start 0#32 0x12348000#32 0#32 false false false false)
    (has 0#4 0xFFFF8000#32) = true := by decide
theorem test_uxtb : runs (.uxtb 0 1) (start 0#32 0x123456FF#32 0#32 false false false false)
    (has 0#4 0xFF#32) = true := by decide
theorem test_uxth : runs (.uxth 0 1) (start 0#32 0x1234FFFF#32 0#32 false false false false)
    (has 0#4 0xFFFF#32) = true := by decide
theorem test_rev : runs (.rev 0 1) (start 0#32 0x11223344#32 0#32 false false false false)
    (has 0#4 0x44332211#32) = true := by decide
theorem test_rev16 : runs (.rev16 0 1) (start 0#32 0x11223344#32 0#32 false false false false)
    (has 0#4 0x22114433#32) = true := by decide
theorem test_revsh : runs (.revsh 0 1) (start 0#32 0x11223380#32 0#32 false false false false)
    (has 0#4 0xFFFF8033#32) = true := by decide
theorem test_ldr1 : runs (.ldr1 0 1 31) (startMem 0#32 0x40000F88#32 0#32)
    (fun t => has 0#4 0xDEADBEEF#32 t && t.reads == 2) = true := by decide
theorem test_ldr1_misaligned : runs (.ldr1 0 1 0) (startMem 5#32 0x40001002#32 0#32)
    (fun t => has 0#4 0#32 t && t.reads == 0) = true := by decide
theorem test_ldr2 : runs (.ldr2 0 1 2) (startMem 0#32 0x40001008#32 0xFFFFFFFC#32)
    (has 0#4 0xDEADBEEF#32) = true := by decide
theorem test_ldr3 : runs (.ldr3 0 1)
    { start 0#32 0#32 0#32 false false false false with
      mem := [(0xC10, 0xFE#8), (0xC11, 0xCA#8), (0xC12, 0x0D#8), (0xC13, 0xF0#8)] }
    (has 0#4 0xF00DCAFE#32) = true := by decide
theorem test_ldr4 : runs (.ldr4 0 2) { startMem 0#32 0#32 0#32 with shadow13 := 0x40001000#32 }
    (has 0#4 0x7F8080FF#32) = true := by decide
theorem test_ldrb1 : runs (.ldrb1 0 1 31) (startMem 0#32 0x40000FE9#32 0#32) (has 0#4 0xFF#32) = true := by
  decide
theorem test_ldrb2 : runs (.ldrb2 0 1 2) (startMem 0#32 0x40001000#32 9#32) (has 0#4 0x80#32) = true := by
  decide
theorem test_ldrh1 : runs (.ldrh1 0 1 31) (startMem 0#32 0x40000FC6#32 0#32) (has 0#4 0xBEEF#32) = true := by
  decide
theorem test_ldrh2 : runs (.ldrh2 0 1 2) (startMem 0#32 0x40001000#32 6#32) (has 0#4 0xDEAD#32) = true := by
  decide
theorem test_ldrsb : runs (.ldrsb 0 1 2) (startMem 0#32 0x40001000#32 9#32) (has 0#4 0xFFFFFF80#32) = true := by
  decide
theorem test_ldrsh : runs (.ldrsh 0 1 2) (startMem 0#32 0x40001000#32 8#32) (has 0#4 0xFFFF80FF#32) = true := by
  decide
theorem test_str1_half_guarded : runs (.str1 0 1 0) (startMem 0xA1B2C3D4#32 0x40000028#32 0#32)
    (fun t => t.mem.cell 0x40000028 == 0xC3D4#16 && t.mem.cell 0x4000002A == 0#16) = true := by decide
theorem test_str1_mamcr : runs (.str1 0 1 0) (startMem 0xA1B2C3D4#32 0xE01FC000#32 0#32)
    (fun t => t.mamcr == 0xA1B2C3D4#32 && t.mem == exampleMemory) = true := by decide
theorem test_str2 : runs (.str2 0 1 2) (startMem 0x01020304#32 0x40001000#32 8#32)
    (fun t => t.mem.cell 0x40001008 == 0x0304#16 && t.mem.cell 0x4000100A == 0x0102#16) = true := by decide
theorem test_str3 : runs (.str3 0 1) { startMem 0xCAFEBABE#32 0#32 0#32 with shadow13 := 0x40001000#32 }
    (fun t => t.mem.cell 0x40001004 == 0xBABE#16 && t.mem.cell 0x40001006 == 0xCAFE#16) = true := by decide
theorem test_strb1 : runs (.strb1 0 1 1) (startMem 0xAABBCCDD#32 0x40001000#32 0#32)
    (fun t => t.mem.cell 0x40001000 == 0xDD78#16 && t.reads == 1 && t.writes == 1) = true := by decide
theorem test_strb2 : runs (.strb2 0 1 2) (startMem 0x11#32 0x40001000#32 7#32)
    (fun t => t.mem.cell 0x40001006 == 0x11AD#16) = true := by decide
theorem test_strh1_mamcr : runs (.strh1 0 1 0) (startMem 0xAABBCCDD#32 0xE01FC000#32 0#32)
    (fun t => t.mamcr == 0xCCDD#32) = true := by decide
theorem test_strh2 : runs (.strh2 0 1 2) (startMem 0xAABBCCDD#32 0x40001000#32 4#32)
    (fun t => t.mem.cell 0x40001004 == 0xCCDD#16 && t.mem.cell 0x40001006 == 0xDEAD#16) = true := by decide
theorem test_ldmia_base_listed : runs (.ldmia 1 0b00000110) (startMem 0#32 0x40001000#32 0#32)
    (fun t => has 2#4 0xDEADBEEF#32 t && has 1#4 0x40001008#32 t) = true := by decide
theorem test_stmia_base_listed : runs (.stmia 2 0b00000110) (startMem 0#32 0x11111111#32 0x40001000#32)
    (fun t => t.mem.cell 0x40001000 == 0x1111#16 && t.mem.cell 0x40001004 == 0x1000#16 &&
      t.mem.cell 0x40001006 == 0x4000#16 && has 2#4 0x40001008#32 t) = true := by decide
theorem test_push_guarded : runs (.push false 0b00000011)
    { start 0xAAAA0000#32 0xBBBB1111#32 0#32 false false false false with shadow13 := 0x40000C04#32 }
    (fun t => has 13#4 0x40000BFC#32 t && t.mem.cell 0x40000BFE == 0#16 && t.mem.cell 0x40000C00 == 0x1111#16 &&
      t.mem.cell 0x40000C02 == 0xBBBB#16) = true := by decide
theorem test_push_lr : runs (.push true 0b00000001) (start 0x44444444#32 0#32 0#32 false false false false)
    (fun t => has 13#4 0x40001FAC#32 t && t.mem.cell 0x40001FAC == 0x4444#16 && t.mem.cell 0x40001FB0 == 0x0C00#16)
    = true := by decide
theorem test_pop_pc : runs (.pop true 0b00000011) { startMem 0#32 0#32 0#32 with shadow13 := 0x40001000#32 }
    (fun t => has 0#4 0x12345678#32 t && has 1#4 0xDEADBEEF#32 t && has 15#4 0x7F808101#32 t &&
      has 13#4 0x4000100C#32 t && has 14#4 0xC00#32 t) = true := by decide
theorem test_b1_taken : runs (.b1 .eq 0x80) (start 0#32 0#32 0#32 false true false false) (has 15#4 0xB0F#32) = true := by
  decide
theorem test_b1_not_taken : runs (.b1 .eq 2) (start 0#32 0#32 0#32 false false false false) (has 15#4 0xC0D#32) = true := by
  decide
theorem test_b2 : runs (.b2 0x400) (start 0#32 0#32 0#32 false false false false) (has 15#4 0x40F#32) = true := by
  decide
theorem test_bl_prefix : runs (.blPrefix 0) (start 0#32 0#32 0#32 false false false false)
    (fun t => t.latch == some 0xF000#16 && has 14#4 0xC00#32 t && has 15#4 0xC0D#32 t) = true := by decide
theorem test_bl_suffix : runs (.blSuffix 0)
    { start 0#32 0#32 0#32 false false false false with
      latch := some 0xF400#16, general := State.reset.general.set 15 0xC0F#32 }
    (fun t => has 14#4 0xC0D#32 t && has 15#4 0xFFC00C0F#32 t && t.latch == none) = true := by decide
theorem test_bl_suffix_refused : (match exec (.blSuffix 0) State.reset with
    | .refused .blSuffixLatchEmpty => true | _ => false) = true := by decide
theorem test_blx2 : runs (.blx2 0) (start 0xC21#32 0#32 0#32 false false false false)
    (fun t => has 14#4 0xC0B#32 t && has 15#4 0xC23#32 t && t.terminated == none) = true := by decide
theorem test_blx2_exit : runs (.blx2 0) (start 0xC20#32 0#32 0#32 false false false false)
    (fun t => has 14#4 0xC00#32 t && t.terminated == some (.exitThumb .blx)) = true := by decide
theorem test_bx_lr_exit : runs (.bx 14) (start 0#32 0#32 0#32 false false false false)
    (fun t => has 15#4 0xC0D#32 t && t.terminated == some (.exitThumb .bx)) = true := by decide
theorem test_bx_pc : runs (.bx 15) (start 0#32 0#32 0#32 false false false false) (has 15#4 0xC0F#32) = true := by
  decide

/-! ### One step -/

/-- One step of the machine answers a next state that passes `p`. -/
def stepsTo (s : State) (p : State → Bool) : Bool :=
  match step s with
  | .next t => p t
  | .fault _ => false
  | .refused _ => false

/-- R291: the first fetch after reset reads the cell at byte offset 0xC08. -/
theorem test_first_fetch : stepsTo { State.reset with mem := [(0xC08, 0x07#8), (0xC09, 0x20#8)] }
    (fun t => has 0#4 7#32 t && has 15#4 0xC0D#32 t && t.instructions == 1 && t.fetches == 1) = true := by
  decide

/-- 49_termination.md: the end state of its examples. -/
theorem test_step_bkpt : stepsTo (State.reset.withFetchWord 16 0xBEAB)
    (fun t => t.terminated == some (.bkpt 0xAB#8) && has 15#4 0xC0D#32 t && t.instructions == 1 && t.fetches == 1)
    = true := by decide
theorem test_step_swi : stepsTo (State.reset.withFetchWord 16 0xDF12) (fun t => t.terminated == some (.swi 0x12#8))
    = true := by decide
theorem test_step_cps : stepsTo (State.reset.withFetchWord 16 0xB672) (fun t => t.terminated == some .cps) = true := by
  decide
theorem test_step_setend : stepsTo (State.reset.withFetchWord 16 0xB658) (fun t => t.terminated == some .setend)
    = true := by decide
theorem test_step_blx1 : stepsTo (State.reset.withFetchWord 16 0xE800) (fun t => t.terminated == some .blxSuffix)
    = true := by decide
theorem test_step_undefined : stepsTo (State.reset.withFetchWord 16 0xDEFF)
    (fun t => t.terminated == some (.undefined 0xDEFF#16)) = true := by decide
/-- R55: the vector window reads as 0, which executes as `lsl r0, r0, #0`. -/
theorem test_step_vector_window : stepsTo
    { State.reset with general := State.reset.general.set 15 0x4E#32, mem := [(0x4C, 0xFF#8), (0x4D, 0xBE#8)] }
    (fun t => t.terminated == none && flags false true false false t && has 15#4 0x50#32 t) = true := by decide
/-- R27: the word view of the status register after reset. -/
theorem test_reset_cpsr_word : State.reset.cpsr.word = 0x000000F3#32 := by decide

/-! ### Witnesses: a state and operands that meet the hypotheses of each statement, and each clause's -/

/-- The decoder's answer on a word, as a theorem that a proof can use. -/
theorem decode_mov1 : decode true 0x2007#16 = .ok (.mov1 0 7) := by decide

theorem witness_DecodeOfEncode : (Instr.mul 0 1).wellFormed true = true := by decide
theorem witness_EncodeOfDecode : ∃ i, decode true 0x2007#16 = .ok i := ⟨_, decode_mov1⟩
theorem witness_RowsExclusive : ∃ r, rows[24]? = some r ∧ r.accepts true 0x2007#16 = true := ⟨_, rfl, by decide⟩
/-- The three guarded clauses of `OpcodeTable`, at the first value each admits. -/
theorem witness_OpcodeTable : (∃ hasMul : Bool, hasMul = true) ∧ (1#3).toNat ≠ 0 ∧
    (false = true ∨ 8 ≤ (8#4 : RegNo).toNat) ∧ (true = true ∨ 8 ≤ (0#4 : RegNo).toNat) := by decide
/-- Both sides of `UnmatchedOpcodes`; the ends of its ranges are `test_unmatched_ends`. -/
theorem witness_UnmatchedOpcodes : decode false 0x437F#16 = .error (.unmatched 0x437F#16) ∧
    decode true 0x437F#16 = .ok (.mul 7 7) := by decide

/-- A state about to run `mov r0, #7`. -/
def runnable : State := State.reset.withFetchWord 16 0x2007

theorem witness_StepRunsDecoded : runnable.terminated = none ∧ runnable.instructions < 500000 ∧
    decode runnable.params.hasMul (runnable.mapFetch (runnable.readReg 15#4 - 2#32)) = .ok (.mov1 0 7) := by decide

/-- A state about to fetch an unmatched opcode, the last of its range. -/
def unmatched : State := State.reset.withFetchWord 16 0xDEFF

theorem witness_UnmatchedTerminates : unmatched.terminated = none ∧ unmatched.instructions < 500000 ∧
    decode unmatched.params.hasMul (unmatched.mapFetch (unmatched.readReg 15#4 - 2#32)) =
      .error (.unmatched 0xDEFF#16) := by decide

/-- The three passes of the loop, at the boundary of the ceiling. -/
theorem witness_LoopEnds :
    (∃ s : State, s.terminated = none ∧ s.instructions = 500000) ∧
    (∃ s : State, s.terminated ≠ none) ∧
    stepsTo { runnable with instructions := 499999 } (fun t => t.terminated == none && t.instructions == 500000) = true ∧
    stepsTo { runnable with instructions := 500000 } (fun t => t.terminated == some .ceiling && t.instructions == 500000)
      = true :=
  ⟨⟨{ State.reset with instructions := 500000 }, by decide⟩, ⟨State.reset.terminate .cps, by decide⟩, by decide,
    by decide⟩

/-- Both disjuncts of `StepTotal` happen. -/
theorem witness_StepTotal :
    (runnable.terminated = none ∧ stepsTo runnable (fun _ => true) = true) ∧
    ((State.reset.withFetchWord 16 0xF800).terminated = none ∧
      (match step (State.reset.withFetchWord 16 0xF800) with
        | .refused .blSuffixLatchEmpty => true | _ => false) = true) := by decide

theorem witness_TerminatingStep : (State.reset.withFetchWord 16 0xBEAB).terminated = none ∧
    (State.reset.withFetchWord 16 0xBEAB).instructions < 500000 ∧
    stepsTo (State.reset.withFetchWord 16 0xBEAB) (fun t => t.terminated == some (.bkpt 0xAB#8)) = true := by decide

theorem inv_runnable : runnable.Inv where
  memory := by decide
  arrays := by decide
  mode := by decide
  thumb := by decide
  irqMasked := by decide
  fiqMasked := by decide
  latch := fun w h => by rw [show runnable.latch = none by decide] at h; cases h
  counted := by decide

theorem witness_StepKeepsInv : runnable.Inv ∧ stepsTo runnable (fun _ => true) = true := ⟨inv_runnable, by decide⟩
theorem witness_InvAtReset : Memory.wf exampleMemory ∧ Memory.inArrays exampleMemory := by decide
theorem witness_StepKeepsUnwritable : stepsTo runnable (fun _ => true) = true ∧
    ∀ k ∈ [0, 0x7FFF, 0x3FFFFFFF, 0x4000002A, 0x40000BFF, 0x40002000], ¬ writableKey k := by decide
theorem witness_StepKeepsMode : stepsTo runnable (fun _ => true) = true := by decide
theorem witness_CountersHaveNoEffect :
    sameButCounters runnable { runnable with fetches := 9, reads := 9, writes := 9 } ∧
      runnable ≠ { runnable with fetches := 9, reads := 9, writes := 9 } := ⟨rfl, by decide⟩
theorem witness_HiddenRegistersUnreachable :
    sameButHidden runnable { runnable with general := runnable.general.set 13 9#32 } ∧
      runnable ≠ { runnable with general := runnable.general.set 13 9#32 } := by
  refine ⟨⟨rfl, fun k hk h _ => ?_⟩, by decide⟩
  show (runnable.general.set 13 9#32)[k] = runnable.general[k]
  exact Vector.getElem_set_ne (by omega) hk (Ne.symm h)
/-- A run that ends with a reason of its own, and one that the machine refuses. -/
theorem witness_RunEnds :
    (match run { State.reset with mem := [(0xC09, 0xBE#8)] } with
      | .next t => t.terminated == some (.bkpt 0#8) && t.instructions == 1 | _ => false) = true ∧
    (match run { State.reset with mem := [(0xC09, 0xF8#8)] } with
      | .refused .blSuffixLatchEmpty => true | _ => false) = true := by decide

/-- A state in a mode that is not implemented. -/
def stubMode : State := { State.reset with cpsr := { State.reset.cpsr with mode := 0x10#5 } }

theorem witness_RegisterSelection : State.reset.cpsr.mode = State.reset.params.modeImpl ∧
    stubMode.cpsr.mode ≠ stubMode.params.modeImpl ∧ (12#4 : RegNo).toNat ≠ 13 ∧ (12#4 : RegNo).toNat ≠ 14 ∧
    (15#4 : RegNo).toNat ≠ 13 ∧ (15#4 : RegNo).toNat ≠ 14 := by decide
theorem witness_CompareThenCondition :
    (∃ t, exec (.cmp1 0 255) State.reset = .next t ∧ (immX1 255#8).toNat = (255#8).toNat) ∧
    (∃ t, exec (.cmp2 0 1) State.reset = .next t) ∧ (∃ t, exec (.cmp3 8 15) State.reset = .next t) :=
  ⟨⟨_, rfl, by decide⟩, ⟨_, rfl⟩, ⟨_, rfl⟩⟩
/-- The four clauses of `Fetch32Map`, at the ends of their ranges; each address falls under one clause. -/
theorem witness_Fetch32Map :
    (∀ a ∈ [0, 4, 8, 0x4F, 0x8000, 0x8004], a < 0x10000000 ∧ a % 0x8000 < 0x50) ∧
    (∀ a ∈ [0x50, 0x7FFF, 0x0FFFFFFF, 0x40000000, 0x4FFFFFFF], ¬ (a < 0x10000000 ∧ a % 0x8000 < 0x50) ∧
      (a < 0x10000000 ∨ (0x40000000 ≤ a ∧ a < 0x50000000))) ∧
    (∀ a ∈ [0x10000000, 0x3FFFFFFF, 0x50000000, 0xFFFFFFFF], ¬ (a < 0x10000000 ∧ a % 0x8000 < 0x50) ∧
      ¬ (a < 0x10000000 ∨ (0x40000000 ≤ a ∧ a < 0x50000000))) ∧
    (fetch32 { State.reset with mem := [(4, 9#8)] } 4#32).1 = 9#32 ∧
    (fetch32 { State.reset with mem := [(0x8004, 9#8), (8, 9#8)] } 0x8004#32).1 = 0#32 ∧
    (fetch32 { State.reset with mem := [(0x50, 9#8)] } 0x50#32).1 = 9#32 := by decide
theorem witness_DataWriteMap : exampleMemory.wf ∧
    (memWrite2 (startMem 0#32 0#32 0#32) 0x40000028#32 0x0102#16).mem.byte 0x40000029 = 1#8 ∧
    (memWrite2 (startMem 0#32 0#32 0#32) 0x4000002A#32 0x0102#16).mem.byte 0x4000002A = 0#8 ∧
    (memWrite2 (startMem 0#32 0#32 0#32) 0x40001FFE#32 0x0102#16).mem.byte 0x40001FFF = 1#8 := by decide
theorem witness_MamcrReadBack :
    ∀ a ∈ [0xE0000000, 0xE01FBFFC, 0xE01FC001, 0xE01FC002, 0xE01FC004, 0xEFFFFFFF],
      0xE0000000 ≤ a ∧ a < 0xF0000000 ∧ a ≠ 0xE01FC000 := by decide
theorem witness_FetchSeesStore : exampleMemory.wf ∧
    ∀ p ∈ [(0x40000000, 0x40002001), (0x40000028, 0x4FFFE029), (0x40000C00, 0x40000C00), (0x40001FFE, 0x4FFFFFFF)],
      p.1 % 2 = 0 ∧ writableKey p.1 ∧ 0x40000000 ≤ p.2 ∧ p.2 < 0x50000000 ∧ p.2 % 0x2000 / 2 = p.1 % 0x2000 / 2 := by
  decide
theorem witness_AddressArithmetic : State.reset.params.addrArithSetsFlags = false ∧
    ({ State.reset with params := { defaultParams with addrArithSetsFlags := true } } : State).params.addrArithSetsFlags
      = true := by decide
theorem witness_MoveResults : (14#4 : RegNo).toNat ≠ 15 ∧ State.reset.params.movPcClearsBit0 = false ∧
    ({ State.reset with params := { defaultParams with movPcClearsBit0 := true } } : State).params.movPcClearsBit0
      = true := by decide
theorem witness_WordAndHalfStores : (startMem 1#32 0x40001000#32 4#32).mem.wf := by decide
theorem witness_ByteStores : (startMem 1#32 0x40001000#32 5#32).mem.wf := by decide
theorem witness_MisalignedAccess :
    ((startMem 0#32 0x40001002#32 1#32).eaOffset 1 (immX4 0#5)).toNat % 4 ≠ 0 ∧
    ((startMem 0#32 0x40001002#32 1#32).eaReg 1 2).toNat % 4 ≠ 0 ∧
    (State.eaSp { startMem 0#32 0#32 0#32 with shadow13 := 0x40001001#32 } 0#8).toNat % 4 ≠ 0 ∧
    ((startMem 0#32 0x40001001#32 1#32).eaOffset 1 (immX2 31#5)).toNat % 2 ≠ 0 ∧
    ((startMem 0#32 0x40001002#32 1#32).eaReg 1 2).toNat % 2 ≠ 0 := by decide
theorem witness_LoadMultiple : State.reset.cpsr.mode = State.reset.params.modeImpl ∧
    stubMode.cpsr.mode ≠ stubMode.params.modeImpl := by decide
theorem witness_StoreMultiple : (startMem 0#32 0x40001000#32 0#32).mem.wf := by decide
theorem witness_PushStoresRegisters : (startMem 0#32 0#32 0#32).mem.wf := by decide
theorem witness_PopLoadsRegisters : State.reset.cpsr.mode = State.reset.params.modeImpl ∧
    stubMode.cpsr.mode ≠ stubMode.params.modeImpl := by decide

/-- A state whose stack fills writable RAM from its bottom, 0x40000C00. -/
def stacked : State := { startMem 5#32 6#32 7#32 with shadow13 := 0x40000C0C#32 }

/-- What PUSH of registers 0, 1 and the link register leaves of it. -/
def pushed : State :=
  match exec (.push true 0b00000011) stacked with
  | .next t => t
  | .fault _ => stacked
  | .refused _ => stacked

/-- All the hypotheses of `PushThenPop` together, the pushed words at the bottom of writable RAM; the state between is
the pushed state itself with other registers. -/
theorem witness_PushThenPop : stacked.mem.wf ∧ stacked.cpsr.mode = stacked.params.modeImpl ∧
    stacked.shadow13.toNat % 4 = 0 ∧
    (∀ k, (stacked.pushedSp true 0b00000011).toNat ≤ k → k < stacked.shadow13.toNat → writableKey k) ∧
    (stacked.pushedSp true 0b00000011).toNat ≤ stacked.shadow13.toNat ∧
    exec (.push true 0b00000011) stacked = .next pushed ∧
    ∃ u : State, u.cpsr.mode = u.params.modeImpl ∧ u.shadow13 = pushed.shadow13 ∧ u.general ≠ pushed.general ∧
      ∀ k, pushed.shadow13.toNat ≤ k → k < stacked.shadow13.toNat → u.mem.byte k = pushed.mem.byte k := by
  refine ⟨by decide, by decide, by decide, fun k h1 h2 => ?_, by decide, rfl,
    { pushed with general := State.reset.general }, by decide, rfl, by decide, fun _ _ _ => rfl⟩
  have e1 : (stacked.pushedSp true 0b00000011).toNat = 0x40000C00 := by decide
  have e2 : stacked.shadow13.toNat = 0x40000C0C := by decide
  unfold writableKey
  omega

theorem witness_BranchWithLink :
    ({ State.reset with latch := some 0xF7FF#16 } : State).latch = some 0xF7FF#16 ∧ State.reset.latch = none := by decide
theorem witness_BranchExchange : ((start 0xC21#32 0xC20#32 0#32 false false false false).readReg 0#4).toNat % 2 = 1 ∧
    ((start 0xC21#32 0xC20#32 0#32 false false false false).readReg 1#4).toNat % 2 = 0 := by decide

/-- All the hypotheses of `CallReturns` together. -/
theorem witness_CallReturns :
    ∃ s t u w : State, s.cpsr.mode = s.params.modeImpl ∧ (s.readReg 15#4).toNat % 2 = 1 ∧
      exec (.blSuffix 0x80) s = .next t ∧ u.cpsr.mode = u.params.modeImpl ∧ u.readReg 14#4 = t.readReg 14#4 ∧
      exec (.bx 14#4) u = .next w ∧ w.terminated = none :=
  ⟨{ start 0#32 0#32 0#32 false false false false with latch := some 0xF000#16 }, _, _, _, by decide, by decide, rfl,
    by decide, rfl, rfl, by decide⟩

theorem witness_FlagFrame : (∃ t, exec (.and 0 1) State.reset = .next t) ∧ Instr.writesC false (.and 0 1) = false ∧
    Instr.writesV false (.and 0 1) = false ∧ (∃ t, exec (.cpy 0 1) State.reset = .next t) ∧
    Instr.writesNZ false (.cpy 0 1) = false ∧ (∃ t, exec (.mov2 0 1) State.reset = .next t) :=
  ⟨⟨_, rfl⟩, by decide, by decide, ⟨_, rfl⟩, by decide, ⟨_, rfl⟩⟩
theorem witness_RegisterFrame : (∃ t, exec (.cpy 0 1) State.reset = .next t) ∧ (1#4 : RegNo) ∉ (Instr.cpy 0 1).dests ∧
    13#4 ∉ (Instr.cpy 0 1).dests ∧ 14#4 ∉ (Instr.cpy 0 1).dests := ⟨⟨_, rfl⟩, by decide, by decide, by decide⟩
theorem witness_MemoryFrame : (Instr.cmp1 0 5).storesData = false ∧ ∃ t, exec (.cmp1 0 5) State.reset = .next t :=
  ⟨by decide, _, rfl⟩
theorem witness_LatchAndTerminationFrame :
    (∃ t, exec (.cpy 0 1) State.reset = .next t) ∧ (Instr.cpy 0 1).mayTerminate = false ∧
    (∃ t, exec (.swi 5) State.reset = .next t) ∧ (Instr.swi 5).mayTerminate = true :=
  ⟨⟨_, rfl⟩, by decide, ⟨_, rfl⟩, by decide⟩

end Sys2Proof.Tests
end

