-- ==== Sys2Proof/Proofs/Frames.lean ====
section
/-! The register and memory frames of the instructions (00_scope.md R9): one relation between a state and the next, one
rule for each operation the instructions are made of, and the two statements as its uses. -/

namespace Sys2Proof.Machine

/-- A listed register of `Instr.dests` is one that the transfer loops run over. -/
theorem listed_eq_regList (list : BitVec 8) : listed list = regList list := by
  have eight : List.range 8 = [0, 1, 2, 3, 4, 5, 6, 7] := rfl
  unfold listed regList
  rw [eight, ← List.filterMap_eq_filter, List.map_filterMap]
  congr 1
  funext i
  cases hb : list.getLsbD i <;> simp [Option.guard, hb]

/-- From `s` to `t` no register changes but those in `ds`, the hidden shared-bank entries 13 and 14 included, and unless
`stores` neither does memory, MAMCR or the write counter. -/
structure FramedBy (ds : List RegNo) (stores : Bool) (s t : State) : Prop where
  general : ∀ (k : Nat) (hk : k < 16), k = 13 ∨ k = 14 ∨ BitVec.ofNat 4 k ∉ ds → t.general[k] = s.general[k]
  shadow13 : 13#4 ∉ ds → t.shadow13 = s.shadow13
  shadow14 : 14#4 ∉ ds → t.shadow14 = s.shadow14
  mem : stores = false → t.mem = s.mem
  mamcr : stores = false → t.mamcr = s.mamcr
  writes : stores = false → t.writes = s.writes

namespace FramedBy

variable {ds : List RegNo} {stores : Bool} {s t u : State} {n : RegNo} {v : Word}

theorem trans (h : FramedBy ds stores s t) (g : FramedBy ds stores t u) : FramedBy ds stores s u where
  general k hk hd := (g.general k hk hd).trans (h.general k hk hd)
  shadow13 hd := (g.shadow13 hd).trans (h.shadow13 hd)
  shadow14 hd := (g.shadow14 hd).trans (h.shadow14 hd)
  mem hs := (g.mem hs).trans (h.mem hs)
  mamcr hs := (g.mamcr hs).trans (h.mamcr hs)
  writes hs := (g.writes hs).trans (h.writes hs)

/-- The fields outside the frame are free. -/
theorem outside (s : State) (p : Cpsr) (l : Option Half) (k : Nat) (r : Option Termination) :
    FramedBy ds stores s { s with cpsr := p, latch := l, reads := k, terminated := r } :=
  ⟨fun _ _ _ => rfl, fun _ => rfl, fun _ => rfl, fun _ => rfl, fun _ => rfl, fun _ => rfl⟩

theorem refl (s : State) : FramedBy ds stores s s := outside s _ _ _ _

/-- A store may change what the bus holds, and moves no register. -/
theorem bus (s : State) (m : Memory) (q : Word) (k w : Nat) :
    FramedBy ds true s { s with mem := m, mamcr := q, reads := k, writes := w } :=
  ⟨fun _ _ _ => rfl, fun _ => rfl, fun _ => rfl, nofun, nofun, nofun⟩

/-! ### Register writes -/

theorem writeReg (hn : n ∈ ds) : FramedBy ds stores s (s.writeReg n v) := by
  by_cases h : s.implemented
  swap
  · rw [writeReg_unimplemented _ _ _ h]; exact refl s
  by_cases h13 : n = 13#4
  · subst h13
    rw [writeReg_13 _ _ h]
    exact { refl s with shadow13 := fun hd => absurd hn hd }
  by_cases h14 : n = 14#4
  · subst h14
    rw [writeReg_14 _ _ h]
    exact { refl s with shadow14 := fun hd => absurd hn hd }
  rw [writeReg_shared _ _ _ h h13 h14]
  refine { refl s with general := fun k hk hd => Vector.getElem_set_ne n.isLt hk ?_ }
  rintro rfl
  rcases hd with hk | hk | hk
  · exact h13 (BitVec.eq_of_toNat_eq hk)
  · exact h14 (BitVec.eq_of_toNat_eq hk)
  · exact hk (by simpa using hn)

theorem writeAdd {a b : Word} {c : Bool} (hn : n ∈ ds) : FramedBy ds stores s (s.writeAdd n a b c) :=
  (outside s (addWithFlags s.cpsr a b c).2 _ _ _).trans (writeReg hn)

theorem writeSub {a b : Word} {c : Bool} (hn : n ∈ ds) : FramedBy ds stores s (s.writeSub n a b c) :=
  (outside s (subWithFlags s.cpsr a b c).2 _ _ _).trans (writeReg hn)

theorem writeNZ (hn : n ∈ ds) : FramedBy ds stores s (s.writeNZ n v) :=
  (outside s (s.cpsr.setNZ v) _ _ _).trans (writeReg hn)

theorem writeShifted {o : Word × Bool} (hn : n ∈ ds) : FramedBy ds stores s (s.writeShifted n o) :=
  (outside s ((s.cpsr.setNZ o.1).setC o.2) _ _ _).trans (writeReg hn)

theorem writeAddressAdd {a b : Word} (hn : n ∈ ds) : FramedBy ds stores s (s.writeAddressAdd n a b) := by
  unfold State.writeAddressAdd
  split_ifs
  · exact writeAdd hn
  · exact writeReg hn

theorem writeAddressSub {a b : Word} (hn : n ∈ ds) : FramedBy ds stores s (s.writeAddressSub n a b) := by
  unfold State.writeAddressSub
  split_ifs
  · exact writeSub hn
  · exact writeReg hn

/-! ### Loads -/

theorem memRead2 (s : State) (a : Word) : FramedBy ds stores s (memRead2 s a).2 := by
  rw [memRead2_snd]; exact outside s _ _ _ _

theorem memRead4 (s : State) (a : Word) : FramedBy ds stores s (memRead4 s a).2 := by
  rw [memRead4_snd]; exact outside s _ _ _ _

theorem loadWord {rd : LowReg} {ea : Word} (hn : low rd ∈ ds) : FramedBy ds stores s (s.loadWord rd ea) :=
  (memRead4 s ea).trans (writeReg hn)

theorem loadHalf {rd : LowReg} {ea : Word} {f : Word → Word} (hn : low rd ∈ ds) :
    FramedBy ds stores s (s.loadHalf rd ea f) :=
  (memRead2 s ea).trans (writeReg hn)

theorem loadByteInto {rd : LowReg} {ea : Word} {f : Byte → Word} (hn : low rd ∈ ds) :
    FramedBy ds stores s (s.loadByteInto rd ea f) :=
  (memRead2 s (evenAddr ea)).trans (writeReg hn)

theorem loadRegs {l : List RegNo} (hl : ∀ r ∈ l, r ∈ ds) (a : Word) (s : State) :
    FramedBy ds stores s (loadRegs l a s).2 := by
  induction l generalizing a s with
  | nil => exact refl s
  | cons r l ih =>
    rw [List.forall_mem_cons] at hl
    exact ((memRead4 s a).trans (writeReg hl.1)).trans (ih hl.2 _ _)

/-! ### Stores -/

theorem memWrite2 (s : State) (a : Word) (h : Half) : FramedBy ds true s (memWrite2 s a h) := by
  rw [memWrite2_eq]; exact bus s _ _ _ _

theorem memWrite4 (s : State) (a w : Word) : FramedBy ds true s (memWrite4 s a w) := by
  rw [memWrite4_eq]; exact bus s _ _ _ _

theorem storeByte (s : State) (a : Word) (b : Byte) : FramedBy ds true s (storeByte s a b) := by
  rw [storeByte_eq]; exact bus s _ _ _ _

theorem storeRegs (l : List RegNo) (a : Word) (s : State) : FramedBy ds true s (storeRegs l a s).2 := by
  rw [storeRegs_snd]; exact bus s _ _ _ _

/-! ### What the frame says of the selected registers -/

/-- A register outside `ds` reads as before, since the selection itself is kept. -/
theorem readReg (h : FramedBy ds stores s t) (k : Kept s t) (hn : n ∉ ds) : t.readReg n = s.readReg n := by
  have hi : t.implemented ↔ s.implemented := by unfold State.implemented; rw [k.mode, k.params]
  by_cases hs : s.implemented
  swap
  · rw [readReg_unimplemented _ _ hs, readReg_unimplemented _ _ (mt hi.1 hs)]
  have ht := hi.2 hs
  by_cases h13 : n = 13#4
  · subst h13; rw [readReg_13 _ hs, readReg_13 _ ht, h.shadow13 hn]
  by_cases h14 : n = 14#4
  · subst h14; rw [readReg_14 _ hs, readReg_14 _ ht, h.shadow14 hn]
  rw [readReg_shared _ _ hs h13 h14, readReg_shared _ _ ht h13 h14]
  exact h.general _ _ (.inr (.inr (by simpa using hn)))

/-- The frame of the state that an answer holds is the frame of the answer. -/
theorem of_next (k : FramedBy ds stores s u) (h : (.next u : Result) = .next t) : FramedBy ds stores s t := by
  cases h; exact k

end FramedBy

/-- Every instruction keeps the frame of its destinations and of whether it stores (00_scope.md R9). -/
theorem exec_framedBy {i : Instr} {s t : State} (h : exec i s = .next t) : FramedBy i.dests i.storesData s t := by
  cases i with
  | and _ _ | eor _ _ | orr _ _ | mul _ _ | bic _ _ | mvn _ _ | mov1 _ _ =>
    exact .of_next (.writeNZ List.mem_cons_self) h
  | lsl1 _ _ _ | lsl2 _ _ | lsr1 _ _ _ | lsr2 _ _ | asr1 _ _ _ | asr2 _ _ | ror _ _ =>
    exact .of_next (.writeShifted List.mem_cons_self) h
  | adc _ _ | add1 _ _ _ | add2 _ _ | add3 _ _ _ => exact .of_next (.writeAdd List.mem_cons_self) h
  | sbc _ _ | neg _ _ | sub1 _ _ _ | sub2 _ _ | sub3 _ _ _ => exact .of_next (.writeSub List.mem_cons_self) h
  | add4 _ _ | add5 _ _ | add6 _ _ | add7 _ => exact .of_next (.writeAddressAdd List.mem_cons_self) h
  | sub4 _ => exact .of_next (.writeAddressSub List.mem_cons_self) h
  | mov2 _ rn =>
    exact .of_next ((FramedBy.outside s (((s.cpsr.setNZ (s.readReg (low rn))).setC false).setV false) _ _ _).trans
      (.writeReg List.mem_cons_self)) h
  | cpy _ _ | mov3 _ _ | sxth _ _ | sxtb _ _ | uxth _ _ | uxtb _ _ | rev _ _ | rev16 _ _ | revsh _ _ | b2 _ =>
    exact .of_next (.writeReg List.mem_cons_self) h
  | tst _ _ | cmp1 _ _ | cmp2 _ _ | cmp3 _ _ | cmn _ _ | bkpt _ | swi _ | cps _ _ _ _ | setend _ | blx1Suffix _
  | blPrefix _ =>
    exact .of_next (.outside s _ _ _ _) h
  | ldr1 _ _ _ | ldr2 _ _ _ | ldr3 _ _ | ldr4 _ _ => exact .of_next (.loadWord List.mem_cons_self) h
  | ldrh1 _ _ _ | ldrh2 _ _ _ | ldrsh _ _ _ => exact .of_next (.loadHalf List.mem_cons_self) h
  | ldrb1 _ _ _ | ldrb2 _ _ _ | ldrsb _ _ _ => exact .of_next (.loadByteInto List.mem_cons_self) h
  | str1 _ _ _ | str2 _ _ _ | str3 _ _ => exact .of_next (.memWrite4 _ _ _) h
  | strh1 _ _ _ | strh2 _ _ _ => exact .of_next (.memWrite2 _ _ _) h
  | strb1 _ _ _ | strb2 _ _ _ => exact .of_next (.storeByte _ _ _) h
  | ldmia rn list =>
    have hl : ∀ r ∈ regList list, r ∈ (Instr.ldmia rn list).dests := fun r hr =>
      List.mem_cons_of_mem _ (listed_eq_regList list ▸ hr)
    exact .of_next ((FramedBy.loadRegs hl _ s).trans (.writeReg List.mem_cons_self)) h
  | stmia _ _ => exact .of_next ((FramedBy.storeRegs _ _ s).trans (.writeReg List.mem_cons_self)) h
  | push _ _ =>
    refine .of_next (FramedBy.trans ?_ (.writeReg List.mem_cons_self)) h
    split_ifs
    · exact (FramedBy.storeRegs _ _ s).trans (.memWrite4 _ _ _)
    · exact .storeRegs _ _ s
  | pop r list =>
    have hl : ∀ q ∈ regList list, q ∈ (Instr.pop r list).dests := fun q hq => by
      simp [Instr.dests, listed_eq_regList, hq]
    have hsp : spReg ∈ (Instr.pop r list).dests := List.mem_cons_self
    simp only [exec, execPop] at h
    split_ifs at h with hr
    · have hpc : pcReg ∈ (Instr.pop r list).dests := by simp [Instr.dests, hr, pcReg]
      exact .of_next ((((FramedBy.loadRegs hl _ s).trans (.memRead4 _ _)).trans (.writeReg hpc)).trans
        (.writeReg hsp)) h
    · exact .of_next ((FramedBy.loadRegs hl _ s).trans (.writeReg hsp)) h
  | b1 _ _ =>
    refine .of_next ?_ h
    split_ifs
    · exact .writeReg List.mem_cons_self
    · exact .refl s
  | bx _ =>
    simp only [exec, execBx] at h
    split_ifs at h
    · exact .of_next (.writeReg List.mem_cons_self) h
    · exact .of_next (.outside s _ _ _ _) h
  | blx2 rm =>
    have hpc : pcReg ∈ (Instr.blx2 rm).dests := List.mem_cons_of_mem _ List.mem_cons_self
    simp only [exec, execBlx2] at h
    split_ifs at h
    · exact .of_next ((FramedBy.writeReg (s := s) List.mem_cons_self).trans (.writeReg hpc)) h
    · exact .of_next (.outside s _ _ _ _) h
  | blSuffix imm11 =>
    have hpc : pcReg ∈ (Instr.blSuffix imm11).dests := List.mem_cons_of_mem _ List.mem_cons_self
    simp only [exec, execBlSuffix] at h
    split at h
    · cases h
    · exact .of_next (((FramedBy.writeReg (s := s) List.mem_cons_self).trans (.writeReg hpc)).trans
        (.outside _ _ _ _ _)) h

/-- Settles O58: the banks by the frame of the destinations, the reads by the frame and the kept selection. -/
theorem registerFrame : Obligations.RegisterFrame := by
  intro i s t h
  have frame := exec_framedBy h
  exact ⟨fun _ hn => frame.readReg (exec_kept h) hn, frame.general, frame.shadow13, frame.shadow14⟩

/-- Settles O59: the frame of an instruction that does not store. -/
theorem memoryFrame : Obligations.MemoryFrame := by
  intro i s t hs h
  have frame := exec_framedBy h
  exact ⟨fun k => by rw [frame.mem hs], frame.mem hs, frame.mamcr hs, frame.writes hs⟩

end Sys2Proof.Machine
end

