-- ==== Sys2Proof/Proofs/StateLaws.lean ====
section
/-! What the step and every instruction do to the state (10_state.md): what one step can be, the frame of the flags, the
latch and the termination, the invariant of a run, and the two kinds of state that no step can tell apart. -/

namespace Sys2Proof.Machine

/-! ### What one step can be -/

section StepCases

variable {s t : State}

/-- The step's own actions move the counter, the instruction counter and the fetch counter, and nothing else
(40_step_and_alu.md R111). -/
theorem fetchAdvance_snd (s : State) : (fetchAdvance s).2 =
    { s.writeReg pcReg (s.readReg pcReg + 2#32) with
      instructions := s.instructions + 1, fetches := s.fetches + 1 } := by
  simp [fetchAdvance, writeReg_with_fetches]

theorem cycle_eq (s : State) : cycle s = dispatch (fetchAdvance s).1 (fetchAdvance s).2 := rfl

/-- Dispatch runs the decoded instruction or ends the run as undefined (40_step_and_alu.md R112). -/
theorem dispatch_cases {w : Half} (h : dispatch w s = .next t) :
    (∃ i, decode s.params.hasMul w = .ok i ∧ exec i s = .next t) ∨
      ((∀ i, decode s.params.hasMul w ≠ .ok i) ∧ t = s.terminate (.undefined w)) := by
  unfold dispatch at h
  split at h
  next i hd => exact .inl ⟨i, hd, h⟩
  next hd => exact .inr ⟨fun i => by simp [hd], by cases h; rfl⟩

/-- A step is taken from a running state only, and either ends the run at the ceiling or dispatches what it fetched
(70_reset_and_hazards.md R294). -/
theorem step_cases (h : step s = .next t) : s.terminated = none ∧
    ((insnCeiling ≤ s.instructions ∧ t = s.terminate .ceiling) ∨
      (s.instructions < insnCeiling ∧ dispatch (fetchAdvance s).1 (fetchAdvance s).2 = .next t)) := by
  unfold step loopPass at h
  split at h
  · cases h
  next hs =>
    refine ⟨hs, ?_⟩
    split_ifs at h with hc
    · exact .inl ⟨hc, by cases h; rfl⟩
    · exact .inr ⟨by omega, h⟩

theorem dispatch_kept {w : Half} (h : dispatch w s = .next t) : Kept s t := by
  obtain ⟨_, _, h⟩ | ⟨_, rfl⟩ := dispatch_cases h
  · exact exec_kept h
  · exact .terminate _ _

end StepCases

/-! ### Register selection -/

/-- Settles O20: the laws of the three places that a register number selects. -/
theorem registerSelection : Obligations.RegisterSelection := by
  intro s n v
  refine ⟨fun hs => ⟨readReg_13 s hs, readReg_14 s hs, fun h13 h14 => ?_, writeReg_13 s v hs, writeReg_14 s v hs,
    fun h13 h14 => ?_, fun m => readReg_writeReg s n m v hs⟩,
    fun hs => ⟨readReg_unimplemented s n hs, writeReg_unimplemented s n v hs⟩⟩
  · exact readReg_shared s n hs (by rintro rfl; exact h13 rfl) (by rintro rfl; exact h14 rfl)
  · exact writeReg_shared s n v hs (by rintro rfl; exact h13 rfl) (by rintro rfl; exact h14 rfl)

/-! ### The frame of the flags, the latch and the termination -/

/-- The instructions that write the latch: the two halves of BL (10_state.md R33). -/
def isBlHalf : Instr → Bool
  | .blPrefix _ | .blSuffix _ => true
  | _ => false

/-- From `s` to `t` only the flags, the latch and the termination that are marked `true` may change. -/
structure StatusFrame (nz c v latch ends : Bool) (s t : State) : Prop where
  n : nz = false → t.cpsr.n = s.cpsr.n
  z : nz = false → t.cpsr.z = s.cpsr.z
  c : c = false → t.cpsr.c = s.cpsr.c
  v : v = false → t.cpsr.v = s.cpsr.v
  latch : latch = false → t.latch = s.latch
  terminated : ends = false → t.terminated = s.terminated

namespace StatusFrame

variable {nz c v latch ends : Bool} {s t u : State} {n : RegNo} {a b x : Word}

theorem trans (h : StatusFrame nz c v latch ends s t) (g : StatusFrame nz c v latch ends t u) :
    StatusFrame nz c v latch ends s u where
  n e := (g.n e).trans (h.n e)
  z e := (g.z e).trans (h.z e)
  c e := (g.c e).trans (h.c e)
  v e := (g.v e).trans (h.v e)
  latch e := (g.latch e).trans (h.latch e)
  terminated e := (g.terminated e).trans (h.terminated e)

/-- The fields outside the frame are free. -/
theorem of_same (hp : t.cpsr = s.cpsr) (hl : t.latch = s.latch) (ht : t.terminated = s.terminated) :
    StatusFrame nz c v latch ends s t :=
  ⟨fun _ => by rw [hp], fun _ => by rw [hp], fun _ => by rw [hp], fun _ => by rw [hp], fun _ => hl, fun _ => ht⟩

theorem refl (s : State) : StatusFrame nz c v latch ends s s := of_same rfl rfl rfl

theorem withLatch (s : State) (l : Option Half) : StatusFrame nz c v true ends s { s with latch := l } :=
  ⟨fun _ => rfl, fun _ => rfl, fun _ => rfl, fun _ => rfl, nofun, fun _ => rfl⟩

theorem terminate (s : State) (r : Termination) : StatusFrame nz c v latch true s (s.terminate r) :=
  ⟨fun _ => rfl, fun _ => rfl, fun _ => rfl, fun _ => rfl, fun _ => rfl, nofun⟩

/-! #### Register writes and flag writes -/

theorem writeReg : StatusFrame nz c v latch ends s (s.writeReg n x) := of_same (by simp) (by simp) (by simp)

theorem setNZ (s : State) (x : Word) : StatusFrame true c v latch ends s { s with cpsr := s.cpsr.setNZ x } :=
  ⟨nofun, nofun, fun _ => rfl, fun _ => rfl, fun _ => rfl, fun _ => rfl⟩

theorem setAll (s : State) (p : Cpsr) : StatusFrame true true true latch ends s { s with cpsr := p } :=
  ⟨nofun, nofun, nofun, nofun, fun _ => rfl, fun _ => rfl⟩

theorem writeNZ : StatusFrame true c v latch ends s (s.writeNZ n x) := (setNZ s x).trans writeReg

theorem writeShifted {o : Word × Bool} : StatusFrame true true v latch ends s (s.writeShifted n o) :=
  .trans (t := { s with cpsr := (s.cpsr.setNZ o.1).setC o.2 })
    ⟨nofun, nofun, nofun, fun _ => rfl, fun _ => rfl, fun _ => rfl⟩ writeReg

theorem writeAdd {k : Bool} : StatusFrame true true true latch ends s (s.writeAdd n a b k) :=
  (setAll s (addWithFlags s.cpsr a b k).2).trans writeReg

theorem writeSub {k : Bool} : StatusFrame true true true latch ends s (s.writeSub n a b k) :=
  (setAll s (subWithFlags s.cpsr a b k).2).trans writeReg

theorem writeAddressAdd {k : Bool} (hk : s.params.addrArithSetsFlags = k) :
    StatusFrame k k k latch ends s (s.writeAddressAdd n a b) := by
  subst hk
  unfold State.writeAddressAdd
  cases s.params.addrArithSetsFlags
  · exact writeReg
  · exact writeAdd

theorem writeAddressSub {k : Bool} (hk : s.params.addrArithSetsFlags = k) :
    StatusFrame k k k latch ends s (s.writeAddressSub n a b) := by
  subst hk
  unfold State.writeAddressSub
  cases s.params.addrArithSetsFlags
  · exact writeReg
  · exact writeSub

/-! #### The bus -/

theorem memRead2 (s : State) (a : Word) : StatusFrame nz c v latch ends s (memRead2 s a).2 := by
  rw [memRead2_snd]; exact of_same rfl rfl rfl

theorem memRead4 (s : State) (a : Word) : StatusFrame nz c v latch ends s (memRead4 s a).2 := by
  rw [memRead4_snd]; exact of_same rfl rfl rfl

theorem loadRegs (l : List RegNo) (a : Word) (s : State) : StatusFrame nz c v latch ends s (loadRegs l a s).2 := by
  rw [loadRegs_snd]; exact of_same rfl rfl rfl

theorem memWrite2 (s : State) (a : Word) (h : Half) : StatusFrame nz c v latch ends s (memWrite2 s a h) := by
  rw [memWrite2_eq]; exact of_same rfl rfl rfl

theorem memWrite4 (s : State) (a w : Word) : StatusFrame nz c v latch ends s (memWrite4 s a w) := by
  rw [memWrite4_eq]; exact of_same rfl rfl rfl

theorem storeByte (s : State) (a : Word) (h : Byte) : StatusFrame nz c v latch ends s (storeByte s a h) := by
  rw [storeByte_eq]; exact of_same rfl rfl rfl

theorem storeRegs (l : List RegNo) (a : Word) (s : State) : StatusFrame nz c v latch ends s (storeRegs l a s).2 := by
  rw [storeRegs_snd]; exact of_same rfl rfl rfl

/-- The frame of the state that an answer holds is the frame of the answer. -/
theorem of_next (k : StatusFrame nz c v latch ends s u) (h : (.next u : Result) = .next t) :
    StatusFrame nz c v latch ends s t := by
  cases h; exact k

end StatusFrame

/-- Every instruction keeps the flags without a writer in the table of 10_state.md R29, the latch unless it is a half of
BL (R33), and the termination unless it is listed (60_exceptions.md R272). -/
theorem exec_statusFrame {i : Instr} {s t : State} (h : exec i s = .next t) :
    StatusFrame (i.writesNZ s.params.addrArithSetsFlags) (i.writesC s.params.addrArithSetsFlags)
      (i.writesV s.params.addrArithSetsFlags) (isBlHalf i) i.mayTerminate s t := by
  cases i with
  | and _ _ | eor _ _ | orr _ _ | mul _ _ | bic _ _ | mvn _ _ | mov1 _ _ => exact .of_next .writeNZ h
  | tst _ _ => exact .of_next (.setNZ s _) h
  | lsl1 _ _ _ | lsl2 _ _ | lsr1 _ _ _ | lsr2 _ _ | asr1 _ _ _ | asr2 _ _ | ror _ _ => exact .of_next .writeShifted h
  | adc _ _ | add1 _ _ _ | add2 _ _ | add3 _ _ _ => exact .of_next .writeAdd h
  | sbc _ _ | neg _ _ | sub1 _ _ _ | sub2 _ _ | sub3 _ _ _ => exact .of_next .writeSub h
  | cmp1 _ _ | cmp2 _ _ | cmp3 _ _ | cmn _ _ => exact .of_next (.setAll s _) h
  | mov2 _ _ => exact .of_next (.trans (.setAll s _) .writeReg) h
  | add4 _ _ | add5 _ _ | add6 _ _ | add7 _ => exact .of_next (.writeAddressAdd rfl) h
  | sub4 _ => exact .of_next (.writeAddressSub rfl) h
  | cpy _ _ | mov3 _ _ | sxth _ _ | sxtb _ _ | uxth _ _ | uxtb _ _ | rev _ _ | rev16 _ _ | revsh _ _ | b2 _ =>
    exact .of_next .writeReg h
  | b1 _ _ =>
    refine .of_next ?_ h
    split_ifs
    · exact .writeReg
    · exact .refl s
  | ldr1 _ _ _ | ldr2 _ _ _ | ldr3 _ _ | ldr4 _ _ => exact .of_next (.trans (.memRead4 s _) .writeReg) h
  | ldrh1 _ _ _ | ldrh2 _ _ _ | ldrsh _ _ _ | ldrb1 _ _ _ | ldrb2 _ _ _ | ldrsb _ _ _ =>
    exact .of_next (.trans (.memRead2 s _) .writeReg) h
  | str1 _ _ _ | str2 _ _ _ | str3 _ _ => exact .of_next (.memWrite4 _ _ _) h
  | strh1 _ _ _ | strh2 _ _ _ => exact .of_next (.memWrite2 _ _ _) h
  | strb1 _ _ _ | strb2 _ _ _ => exact .of_next (.storeByte _ _ _) h
  | ldmia _ _ => exact .of_next (.trans (.loadRegs _ _ s) .writeReg) h
  | stmia _ _ => exact .of_next (.trans (.storeRegs _ _ s) .writeReg) h
  | push _ _ =>
    refine .of_next (.trans ?_ .writeReg) h
    split_ifs
    · exact .trans (.storeRegs _ _ s) (.memWrite4 _ _ _)
    · exact .storeRegs _ _ s
  | pop _ _ =>
    simp only [exec, execPop] at h
    split_ifs at h
    · exact .of_next (.trans (.trans (.trans (.loadRegs _ _ s) (.memRead4 _ _)) .writeReg) .writeReg) h
    · exact .of_next (.trans (.loadRegs _ _ s) .writeReg) h
  | bkpt _ | swi _ | cps _ _ _ _ | setend _ | blx1Suffix _ => exact .of_next (.terminate s _) h
  | bx _ =>
    simp only [exec, execBx] at h
    split_ifs at h
    · exact .of_next .writeReg h
    · exact .of_next (.terminate s _) h
  | blx2 _ =>
    simp only [exec, execBlx2] at h
    split_ifs at h
    · exact .of_next (.trans (t := s.writeReg _ _) .writeReg .writeReg) h
    · exact .of_next (.terminate s _) h
  | blPrefix _ => exact .of_next (.withLatch s _) h
  | blSuffix _ =>
    simp only [exec, execBlSuffix] at h
    split at h
    · cases h
    · exact .of_next (.trans (.trans (t := s.writeReg _ _) .writeReg .writeReg) (.withLatch _ _)) h

/-- MOV(2) writes C and V 0 directly (44_move.md R181). -/
theorem exec_mov2_flags {rd rn : LowReg} {s t : State} (h : exec (.mov2 rd rn) s = .next t) :
    t.cpsr.c = false ∧ t.cpsr.v = false := by
  cases h; simp

/-- The instructions that end the run whatever the state, all of `mayTerminate` but BX and BLX(2), do end it. -/
theorem exec_terminates {i : Instr} {s t : State} (h : exec i s = .next t) (hi : i.mayTerminate = true)
    (hbx : ∀ r, i ≠ .bx r) (hblx : ∀ r, i ≠ .blx2 r) : t.terminated ≠ none := by
  cases i with
  | bkpt _ | swi _ | cps _ _ _ _ | setend _ | blx1Suffix _ => cases h; exact nofun
  | bx r => exact absurd rfl (hbx r)
  | blx2 r => exact absurd rfl (hblx r)
  | _ => cases hi

/-- Settles O57: the flags by the frame of the status, the masks and the mode by what every instruction keeps. -/
theorem flagFrame : Obligations.FlagFrame := by
  intro i s t h
  have frame := exec_statusFrame h
  have kept := exec_kept h
  refine ⟨fun e => ⟨frame.n e, frame.z e⟩, frame.c, frame.v, ?_, kept.irq, kept.fiq, kept.thumb, kept.mode⟩
  rintro rd rn rfl
  exact exec_mov2_flags h

/-- Settles O60: the latch and the termination by the frame of the status, the counters and the parameters by what
every instruction keeps. -/
theorem latchAndTerminationFrame : Obligations.LatchAndTerminationFrame := by
  intro i s t h
  have frame := exec_statusFrame h
  have kept := exec_kept h
  refine ⟨fun hp hs => frame.latch ?_, frame.terminated, exec_terminates h, kept.instructions, kept.fetches,
    kept.params⟩
  cases i with
  | blPrefix k => exact absurd rfl (hp k)
  | blSuffix k => exact absurd rfl (hs k)
  | _ => rfl

/-! ### What every step keeps -/

/-- Settles O15: the step's own actions write neither the status register nor the parameters, and what they dispatch to
keeps the mode and the masks. -/
theorem stepKeepsMode : Obligations.StepKeepsMode := by
  intro s t h
  obtain ⟨-, ⟨-, rfl⟩ | ⟨-, hd⟩⟩ := step_cases h
  · exact ⟨rfl, rfl, rfl, rfl, rfl⟩
  · have kept := dispatch_kept hd
    rw [fetchAdvance_snd] at kept
    exact ⟨by simpa using kept.mode, by simpa using kept.thumb, by simpa using kept.irq, by simpa using kept.fiq,
      by simpa using kept.params⟩

/-! ### The invariant of a run -/

/-- The latched opcode of a BL half has the five top bits of one (48_branch.md R242). -/
theorem blPrefixOpcode_top (imm11 : BitVec 11) : (blPrefixOpcode imm11).toNat / 2048 = 0b11110 := by
  have hi := imm11.isLt
  rw [blPrefixOpcode, BitVec.toNat_append, ← Nat.shiftLeft_add_eq_or_of_lt hi, Nat.shiftLeft_eq]
  simp only [BitVec.toNat_ofNat]
  omega

/-- An instruction keeps the latch, empties it, or latches the opcode of a BL half (10_state.md R33). -/
theorem exec_latch {i : Instr} {s t : State} (h : exec i s = .next t) :
    t.latch = s.latch ∨ t.latch = none ∨ ∃ imm11, t.latch = some (blPrefixOpcode imm11) := by
  cases i with
  | blPrefix k => cases h; exact .inr (.inr ⟨k, rfl⟩)
  | blSuffix k =>
    simp only [exec, execBlSuffix] at h
    split at h
    · cases h
    · cases h; exact .inr (.inl rfl)
  | _ => exact .inl ((exec_statusFrame h).latch rfl)

namespace State.Inv

variable {s t : State}

/-- The invariant is what every instruction keeps, and the condition on the latch. -/
theorem of_kept (h : s.Inv) (k : Kept s t) (hl : ∀ w, t.latch = some w → w.toNat / 2048 = 0b11110) : t.Inv where
  memory := k.wf h.memory
  arrays := k.arrays h.arrays
  mode := by unfold State.implemented; rw [k.mode, k.params]; exact h.mode
  thumb := k.thumb.trans h.thumb
  irqMasked := k.irq.trans h.irqMasked
  fiqMasked := k.fiq.trans h.fiqMasked
  latch := hl
  counted := k.instructions ▸ h.counted

theorem terminate (h : s.Inv) (r : Termination) : (s.terminate r).Inv := h.of_kept (.terminate s r) h.latch

/-- Below the ceiling the step's own actions keep the invariant: the instruction they count fits. -/
theorem fetchAdvance (h : s.Inv) (hc : s.instructions < insnCeiling) : (fetchAdvance s).2.Inv := by
  rw [fetchAdvance_snd]
  have written : (s.writeReg pcReg (s.readReg pcReg + 2#32)).Inv :=
    h.of_kept (.writeReg _ _ _) (by simpa using h.latch)
  exact { written with counted := hc }

theorem exec {i : Instr} (h : s.Inv) (hi : exec i s = .next t) : t.Inv := by
  refine h.of_kept (exec_kept hi) fun w hw => ?_
  obtain hl | hl | ⟨imm11, hl⟩ := exec_latch hi <;> rw [hl] at hw
  · exact h.latch w hw
  · cases hw
  · cases hw; exact blPrefixOpcode_top imm11

theorem dispatch {w : Half} (h : s.Inv) (hd : dispatch w s = .next t) : t.Inv := by
  obtain ⟨_, _, hi⟩ | ⟨_, rfl⟩ := dispatch_cases hd
  · exact h.exec hi
  · exact h.terminate _

end State.Inv

/-- Settles O12: the ceiling ends the run in place; below it the step's own actions and what they dispatch to keep the
invariant. -/
theorem stepKeepsInv : Obligations.StepKeepsInv := by
  intro s t h hs
  obtain ⟨-, ⟨-, rfl⟩ | ⟨hc, hd⟩⟩ := step_cases hs
  · exact h.terminate _
  · exact (h.fetchAdvance hc).dispatch hd

theorem State.Inv.resetAction {s : State} (hm : s.mem.wf) (ha : s.mem.inArrays) : s.resetAction.Inv where
  memory := hm
  arrays := ha
  mode := rfl
  thumb := rfl
  irqMasked := rfl
  fiqMasked := rfl
  latch := nofun
  counted := Nat.zero_le _

/-- Settles O13: the concrete reset is the reset action on a state whose memory lists nothing. -/
theorem invAtReset : Obligations.InvAtReset :=
  ⟨State.Inv.resetAction (s := State.launch) ⟨.nil, nofun⟩ nofun, fun _ => State.Inv.resetAction⟩

/-! ### States that no step can tell apart -/

/-- `R` relates states that agree on all that an instruction can read, and the updates which the instructions are made
of keep `R`. Every step then keeps `R`; the counters and the hidden registers are the two uses. -/
structure Unobservable (R : State → State → Prop) : Prop where
  /-- related states differ at most in the shared bank and the three counters of the bus -/
  agree : ∀ {s t}, R s t →
    t = { s with general := t.general, fetches := t.fetches, reads := t.reads, writes := t.writes }
  readReg : ∀ {s t}, R s t → ∀ n, t.readReg n = s.readReg n
  register : ∀ {s t}, R s t → ∀ n v, R (s.writeReg n v) (t.writeReg n v)
  withCpsr : ∀ {s t}, R s t → ∀ p, R { s with cpsr := p } { t with cpsr := p }
  withLatch : ∀ {s t}, R s t → ∀ l, R { s with latch := l } { t with latch := l }
  withMem : ∀ {s t}, R s t → ∀ m, R { s with mem := m } { t with mem := m }
  withMamcr : ∀ {s t}, R s t → ∀ q, R { s with mamcr := q } { t with mamcr := q }
  terminate : ∀ {s t}, R s t → ∀ r, R (s.terminate r) (t.terminate r)
  countRead : ∀ {s t}, R s t → R { s with reads := s.reads + 1 } { t with reads := t.reads + 1 }
  countWrite : ∀ {s t}, R s t → R { s with writes := s.writes + 1 } { t with writes := t.writes + 1 }
  countStep : ∀ {s t}, R s t →
    R { s with instructions := s.instructions + 1, fetches := s.fetches + 1 }
      { t with instructions := t.instructions + 1, fetches := t.fetches + 1 }

theorem answersRelated.next {R : State → State → Prop} {s t : State} (h : R s t) :
    answersRelated R (.next s) (.next t) := h

/-- A data read counts one read, unless it is guarded or odd (20_memory.md R58). -/
theorem memRead2_state (s : State) (a : Word) : (memRead2 s a).2 =
    if readGuarded a = false ∧ a.getLsbD 0 = false then { s with reads := s.reads + 1 } else s := by
  unfold memRead2
  cases readGuarded a <;> cases a.getLsbD 0 <;> simp

namespace Unobservable

variable {R : State → State → Prop} (U : Unobservable R) {s t : State} (r : R s t)
include U r

/-! #### What related states agree on -/

theorem cpsr_eq : t.cpsr = s.cpsr := by rw [U.agree r]
theorem mamcr_eq : t.mamcr = s.mamcr := by rw [U.agree r]
theorem latch_eq : t.latch = s.latch := by rw [U.agree r]
theorem mem_eq : t.mem = s.mem := by rw [U.agree r]
theorem params_eq : t.params = s.params := by rw [U.agree r]
theorem terminated_eq : t.terminated = s.terminated := by rw [U.agree r]
theorem instructions_eq : t.instructions = s.instructions := by rw [U.agree r]

theorem pc_eq : t.pc = s.pc := U.readReg r _

theorem alignedPc_eq : t.alignedPc = s.alignedPc := by unfold State.alignedPc; rw [U.pc_eq r]

theorem eaOffset_eq (rn : LowReg) (o : Word) : t.eaOffset rn o = s.eaOffset rn o := by
  unfold State.eaOffset; rw [U.readReg r]

theorem eaReg_eq (rn rm : LowReg) : t.eaReg rn rm = s.eaReg rn rm := by
  unfold State.eaReg; rw [U.readReg r, U.readReg r]

theorem eaPc_eq (imm8 : BitVec 8) : t.eaPc imm8 = s.eaPc imm8 := by unfold State.eaPc; rw [U.alignedPc_eq r]

theorem eaSp_eq (imm8 : BitVec 8) : t.eaSp imm8 = s.eaSp imm8 := by unfold State.eaSp; rw [U.readReg r]

theorem pushedSp_eq (b : Bool) (list : BitVec 8) : t.pushedSp b list = s.pushedSp b list := by
  unfold State.pushedSp; rw [U.readReg r]

theorem mov3Value_eq (rd : RegNo) (v : Word) : t.mov3Value rd v = s.mov3Value rd v := by
  unfold State.mov3Value; rw [U.params_eq r]

/-! #### Register writes and flag writes, of operands that agree -/

variable {n : RegNo} {a a' b b' v v' : Word} {c c' : Bool}

theorem writeReg (hv : v' = v) : R (s.writeReg n v) (t.writeReg n v') := hv ▸ U.register r n v

theorem setCpsr {p p' : Cpsr} (hp : p' = p) : R { s with cpsr := p } { t with cpsr := p' } := hp ▸ U.withCpsr r p

theorem writeNZ (hv : v' = v) : R (s.writeNZ n v) (t.writeNZ n v') := by
  subst hv
  exact U.writeReg (U.setCpsr r (by rw [U.cpsr_eq r])) rfl

theorem writeShifted {o o' : Word × Bool} (ho : o' = o) : R (s.writeShifted n o) (t.writeShifted n o') := by
  subst ho
  exact U.writeReg (U.setCpsr r (by rw [U.cpsr_eq r])) rfl

theorem writeAdd (ha : a' = a) (hb : b' = b) (hc : c' = c) : R (s.writeAdd n a b c) (t.writeAdd n a' b' c') := by
  subst ha hb hc
  exact U.writeReg (U.setCpsr r (by rw [U.cpsr_eq r])) rfl

theorem writeSub (ha : a' = a) (hb : b' = b) (hc : c' = c) : R (s.writeSub n a b c) (t.writeSub n a' b' c') := by
  subst ha hb hc
  exact U.writeReg (U.setCpsr r (by rw [U.cpsr_eq r])) rfl

theorem writeAddressAdd (ha : a' = a) (hb : b' = b) : R (s.writeAddressAdd n a b) (t.writeAddressAdd n a' b') := by
  unfold State.writeAddressAdd
  rw [U.params_eq r]
  split_ifs
  · exact U.writeAdd r ha hb rfl
  · exact U.writeReg r (by rw [ha, hb])

theorem writeAddressSub (ha : a' = a) (hb : b' = b) : R (s.writeAddressSub n a b) (t.writeAddressSub n a' b') := by
  unfold State.writeAddressSub
  rw [U.params_eq r]
  split_ifs
  · exact U.writeSub r ha hb rfl
  · exact U.writeReg r (by rw [ha, hb])

/-! #### The bus -/

theorem memRead2_fst (a : Word) : (memRead2 t a).1 = (memRead2 s a).1 :=
  memRead2_fst_congr a s t (U.mem_eq r) (U.mamcr_eq r)

theorem memRead4_fst (a : Word) : (memRead4 t a).1 = (memRead4 s a).1 :=
  memRead4_fst_congr a s t (U.mem_eq r) (U.mamcr_eq r)

theorem memRead2_snd (a : Word) : R (memRead2 s a).2 (memRead2 t a).2 := by
  rw [memRead2_state, memRead2_state]
  split_ifs
  · exact U.countRead r
  · exact r

theorem memRead4_snd (a : Word) : R (memRead4 s a).2 (memRead4 t a).2 := by
  unfold memRead4
  split_ifs
  · exact r
  · exact U.countRead r
  · exact U.memRead2_snd (U.memRead2_snd r _) _

theorem memWrite2 {h h' : Half} (ha : a' = a) (hv : h' = h) : R (memWrite2 s a h) (memWrite2 t a' h') := by
  subst ha hv
  unfold Machine.memWrite2
  dsimp only
  split_ifs
  · exact r
  · exact r
  · rw [U.mem_eq r]; exact U.withMem (U.countWrite r) _
  · exact U.withMamcr (U.countWrite r) _
  · exact U.countWrite r

theorem memWrite4 (ha : a' = a) (hv : v' = v) : R (memWrite4 s a v) (memWrite4 t a' v') := by
  subst ha hv
  unfold Machine.memWrite4
  split_ifs
  · exact r
  · exact U.withMamcr (U.countWrite r) _
  · exact U.memWrite2 (U.memWrite2 r rfl rfl) rfl rfl

theorem storeByte {h h' : Byte} (ha : a' = a) (hv : h' = h) : R (storeByte s a h) (storeByte t a' h') := by
  subst ha hv
  unfold Machine.storeByte
  dsimp only
  rw [U.memRead2_fst r]
  exact U.memWrite2 (U.memRead2_snd r _) rfl rfl

theorem loadWord {rd : LowReg} (ha : a' = a) : R (s.loadWord rd a) (t.loadWord rd a') := by
  subst ha; exact U.writeReg (U.memRead4_snd r _) (U.memRead4_fst r _)

theorem loadHalf {rd : LowReg} {f : Word → Word} (ha : a' = a) : R (s.loadHalf rd a f) (t.loadHalf rd a' f) := by
  subst ha; exact U.writeReg (U.memRead2_snd r _) (congrArg f (U.memRead2_fst r _))

theorem loadByteInto {rd : LowReg} {f : Byte → Word} (ha : a' = a) :
    R (s.loadByteInto rd a f) (t.loadByteInto rd a' f) := by
  subst ha
  exact U.writeReg (U.memRead2_snd r _) (congrArg f (loadByte_fst_congr _ s t (U.mem_eq r) (U.mamcr_eq r)))

omit r in
theorem loadRegs (l : List RegNo) (a : Word) :
    ∀ {s t : State}, R s t → R (loadRegs l a s).2 (loadRegs l a t).2 := by
  induction l generalizing a with
  | nil => exact id
  | cons q l ih => exact fun r => ih _ (U.writeReg (U.memRead4_snd r a) (U.memRead4_fst r a))

omit r in
theorem storeRegs (l : List RegNo) (a : Word) :
    ∀ {s t : State}, R s t → R (storeRegs l a s).2 (storeRegs l a t).2 := by
  induction l generalizing a with
  | nil => exact id
  | cons q l ih => exact fun r => ih _ (U.memWrite4 r rfl (U.readReg r q))

/-! #### Instructions and the step -/

/-- Every instruction answers related states with related answers. -/
theorem exec (i : Instr) : answersRelated R (exec i s) (exec i t) := by
  cases i with
  | and _ _ | eor _ _ | orr _ _ | mul _ _ | bic _ _ | mvn _ _ | mov1 _ _ =>
    exact .next (U.writeNZ r (by simp only [U.readReg r]))
  | tst _ _ => exact .next (U.setCpsr r (by simp only [U.readReg r, U.cpsr_eq r]))
  | lsl1 _ _ _ | lsl2 _ _ | lsr1 _ _ _ | lsr2 _ _ | asr1 _ _ _ | asr2 _ _ | ror _ _ =>
    exact .next (U.writeShifted r (by simp only [U.readReg r, U.cpsr_eq r]))
  | adc _ _ | add1 _ _ _ | add2 _ _ | add3 _ _ _ =>
    exact .next (U.writeAdd r (U.readReg r _) (by simp only [U.readReg r]) (by simp only [U.cpsr_eq r]))
  | sbc _ _ | neg _ _ | sub1 _ _ _ | sub2 _ _ | sub3 _ _ _ =>
    exact .next (U.writeSub r (by simp only [U.readReg r]) (by simp only [U.readReg r]) (by simp only [U.cpsr_eq r]))
  | cmp1 _ _ | cmp2 _ _ | cmp3 _ _ | cmn _ _ => exact .next (U.setCpsr r (by simp only [U.readReg r, U.cpsr_eq r]))
  | mov2 _ _ =>
    exact .next (U.writeReg (U.setCpsr r (by simp only [U.readReg r, U.cpsr_eq r])) (U.readReg r _))
  | add4 _ _ | add6 _ _ | add7 _ =>
    exact .next (U.writeAddressAdd r (U.readReg r _) (by simp only [U.readReg r]))
  | add5 _ _ => exact .next (U.writeAddressAdd r (U.alignedPc_eq r) rfl)
  | sub4 _ => exact .next (U.writeAddressSub r (U.readReg r _) rfl)
  | cpy _ _ | sxth _ _ | sxtb _ _ | uxth _ _ | uxtb _ _ | rev _ _ | rev16 _ _ | revsh _ _ =>
    exact .next (U.writeReg r (by simp only [U.readReg r]))
  | mov3 _ _ => exact .next (U.writeReg r (by rw [U.readReg r, U.mov3Value_eq r]))
  | b2 _ => exact .next (U.writeReg r (by rw [U.pc_eq r]))
  | b1 _ _ =>
    refine .next ?_
    rw [U.cpsr_eq r]
    split_ifs
    · exact U.writeReg r (by rw [U.pc_eq r])
    · exact r
  | ldr1 _ _ _ => exact .next (U.loadWord r (U.eaOffset_eq r _ _))
  | ldr2 _ _ _ => exact .next (U.loadWord r (U.eaReg_eq r _ _))
  | ldr3 _ _ => exact .next (U.loadWord r (U.eaPc_eq r _))
  | ldr4 _ _ => exact .next (U.loadWord r (U.eaSp_eq r _))
  | ldrh1 _ _ _ => exact .next (U.loadHalf r (U.eaOffset_eq r _ _))
  | ldrh2 _ _ _ | ldrsh _ _ _ => exact .next (U.loadHalf r (U.eaReg_eq r _ _))
  | ldrb1 _ _ _ => exact .next (U.loadByteInto r (U.eaOffset_eq r _ _))
  | ldrb2 _ _ _ | ldrsb _ _ _ => exact .next (U.loadByteInto r (U.eaReg_eq r _ _))
  | str1 _ _ _ => exact .next (U.memWrite4 r (U.eaOffset_eq r _ _) (U.readReg r _))
  | str2 _ _ _ => exact .next (U.memWrite4 r (U.eaReg_eq r _ _) (U.readReg r _))
  | str3 _ _ => exact .next (U.memWrite4 r (U.eaSp_eq r _) (U.readReg r _))
  | strh1 _ _ _ => exact .next (U.memWrite2 r (U.eaOffset_eq r _ _) (by rw [U.readReg r]))
  | strh2 _ _ _ => exact .next (U.memWrite2 r (U.eaReg_eq r _ _) (by rw [U.readReg r]))
  | strb1 _ _ _ => exact .next (U.storeByte r (U.eaOffset_eq r _ _) (by rw [U.readReg r]))
  | strb2 _ _ _ => exact .next (U.storeByte r (U.eaReg_eq r _ _) (by rw [U.readReg r]))
  | ldmia rn list =>
    simp only [Machine.exec, execLdmia, loadRegs_fst, U.readReg r]
    exact .next (U.register (U.loadRegs _ _ r) _ _)
  | stmia rn list =>
    simp only [Machine.exec, execStmia, storeRegs_fst, U.readReg r]
    exact .next (U.register (U.storeRegs _ _ r) _ _)
  | push b list =>
    simp only [Machine.exec, execPush, storeRegs_fst, U.pushedSp_eq r]
    refine .next (U.register ?_ _ _)
    have stored := U.storeRegs (regList list) (s.pushedSp b list) r
    split_ifs
    · exact U.memWrite4 stored rfl (U.readReg stored _)
    · exact stored
  | pop b list =>
    simp only [Machine.exec, execPop, loadRegs_fst, U.readReg r]
    have loaded := U.loadRegs (regList list) (s.readReg spReg) r
    split_ifs
    · exact .next (U.register (U.writeReg (U.memRead4_snd loaded _) (by rw [U.memRead4_fst loaded])) _ _)
    · exact .next (U.register loaded _ _)
  | bkpt _ | swi _ | cps _ _ _ _ | setend _ | blx1Suffix _ => exact .next (U.terminate r _)
  | bx _ =>
    simp only [Machine.exec, execBx, U.readReg r]
    split_ifs
    · exact .next (U.register r _ _)
    · exact .next (U.terminate r _)
  | blx2 _ =>
    simp only [Machine.exec, execBlx2, U.readReg r, U.pc_eq r]
    split_ifs
    · exact .next (U.register (U.register r _ _) _ _)
    · exact .next (U.terminate r _)
  | blPrefix _ => exact .next (U.withLatch r _)
  | blSuffix _ =>
    simp only [Machine.exec, execBlSuffix, U.latch_eq r, U.pc_eq r]
    split
    · rfl
    · exact .next (U.withLatch (U.register (U.register r _ _) _ _) _)

theorem dispatch (w : Half) : answersRelated R (dispatch w s) (dispatch w t) := by
  unfold Machine.dispatch
  rw [U.params_eq r]
  split
  · exact U.exec r _
  · exact .next (U.terminate r _)

theorem fetchAdvance_fst : (fetchAdvance t).1 = (fetchAdvance s).1 := by
  simp only [fetchAdvance, U.readReg r]
  exact fetch16_fst_congr _ s t (U.mem_eq r)

theorem fetchAdvance_snd : R (fetchAdvance s).2 (fetchAdvance t).2 := by
  have advanced := U.countStep (U.writeReg r (n := pcReg) (congrArg (· + 2#32) (U.readReg r pcReg)))
  simpa [Machine.fetchAdvance_snd] using advanced

theorem cycle : answersRelated R (cycle s) (cycle t) := by
  rw [cycle_eq, cycle_eq, U.fetchAdvance_fst r]
  exact U.dispatch (U.fetchAdvance_snd r) _

/-- The step answers related states with related answers. -/
theorem step : answersRelated R (step s) (step t) := by
  unfold Machine.step loopPass
  rw [U.terminated_eq r, U.instructions_eq r]
  split
  · rfl
  · split_ifs
    · exact .next (U.terminate r _)
    · exact U.cycle r

end Unobservable

/-! #### The fetch, read and write counters -/

theorem writeReg_with_counters (s : State) (n : RegNo) (v : Word) (f k w : Nat) :
    { s with fetches := f, reads := k, writes := w }.writeReg n v =
      { s.writeReg n v with fetches := f, reads := k, writes := w } := by
  unfold State.writeReg; dsimp only [State.implemented]; split_ifs <;> rfl

theorem sameButCounters_iff {s t : State} :
    sameButCounters s t ↔ ∃ f k w, t = { s with fetches := f, reads := k, writes := w } :=
  ⟨fun h => ⟨_, _, _, h⟩, by rintro ⟨f, k, w, rfl⟩; rfl⟩

theorem unobservable_sameButCounters : Unobservable sameButCounters where
  agree h := by obtain ⟨f, k, w, rfl⟩ := sameButCounters_iff.1 h; rfl
  readReg h n := by
    obtain ⟨f, k, w, rfl⟩ := sameButCounters_iff.1 h
    exact readReg_congr rfl rfl rfl rfl rfl n
  register h n v := by
    obtain ⟨f, k, w, rfl⟩ := sameButCounters_iff.1 h
    exact sameButCounters_iff.2 ⟨f, k, w, writeReg_with_counters _ n v f k w⟩
  withCpsr h p := (congrArg (fun u : State => { u with cpsr := p }) h :)
  withLatch h l := (congrArg (fun u : State => { u with latch := l }) h :)
  withMem h m := (congrArg (fun u : State => { u with mem := m }) h :)
  withMamcr h q := (congrArg (fun u : State => { u with mamcr := q }) h :)
  terminate h r := (congrArg (fun u : State => u.terminate r) h :)
  countRead h := (congrArg (fun u : State => { u with reads := u.reads + 1 }) h :)
  countWrite h := (congrArg (fun u : State => { u with writes := u.writes + 1 }) h :)
  countStep h :=
    (congrArg (fun u : State => { u with instructions := u.instructions + 1, fetches := u.fetches + 1 }) h :)

/-- Settles O16: no update of a step reads the three counters. -/
theorem countersHaveNoEffect : Obligations.CountersHaveNoEffect :=
  fun _ _ => unobservable_sameButCounters.step

/-! #### The hidden registers -/

theorem sameButHidden_iff {s t : State} : sameButHidden s t ↔ ∃ g, t = { s with general := g } ∧
    ∀ (k : Nat) (hk : k < 16), k ≠ 13 → k ≠ 14 → g[k] = s.general[k] :=
  ⟨fun h => ⟨_, h⟩, by rintro ⟨g, rfl, hg⟩; exact ⟨rfl, hg⟩⟩

theorem sameButHidden_readReg {s t : State} (h : sameButHidden s t) (n : RegNo) : t.readReg n = s.readReg n := by
  obtain ⟨g, rfl, hg⟩ := sameButHidden_iff.1 h
  unfold State.readReg
  dsimp only [State.implemented]
  split_ifs with hi h13 h14
  · rfl
  · rfl
  · exact hg _ n.isLt (fun e => h13 (BitVec.eq_of_toNat_eq e)) (fun e => h14 (BitVec.eq_of_toNat_eq e))
  · rfl

theorem sameButHidden_writeReg {s t : State} (h : sameButHidden s t) (n : RegNo) (v : Word) :
    sameButHidden (s.writeReg n v) (t.writeReg n v) := by
  obtain ⟨g, rfl, hg⟩ := sameButHidden_iff.1 h
  unfold State.writeReg
  dsimp only [State.implemented]
  split_ifs
  · exact ⟨rfl, hg⟩
  · exact ⟨rfl, hg⟩
  · refine ⟨rfl, fun k hk h13 h14 => ?_⟩
    simp only [Vector.getElem_set, hg k hk h13 h14]
  · exact ⟨rfl, hg⟩

theorem unobservable_sameButHidden : Unobservable sameButHidden where
  agree h := by obtain ⟨g, rfl, -⟩ := sameButHidden_iff.1 h; rfl
  readReg := sameButHidden_readReg
  register := sameButHidden_writeReg
  withCpsr h p := ⟨congrArg (fun u => { u with cpsr := p }) h.1, h.2⟩
  withLatch h l := ⟨congrArg (fun u => { u with latch := l }) h.1, h.2⟩
  withMem h m := ⟨congrArg (fun u => { u with mem := m }) h.1, h.2⟩
  withMamcr h q := ⟨congrArg (fun u => { u with mamcr := q }) h.1, h.2⟩
  terminate h r := ⟨congrArg (fun u => u.terminate r) h.1, h.2⟩
  countRead h := ⟨congrArg (fun u => { u with reads := u.reads + 1 }) h.1, h.2⟩
  countWrite h := ⟨congrArg (fun u => { u with writes := u.writes + 1 }) h.1, h.2⟩
  countStep h :=
    ⟨congrArg (fun u => { u with instructions := u.instructions + 1, fetches := u.fetches + 1 }) h.1, h.2⟩

/-- Settles O17: the register selection reaches neither of the two entries, and nothing else reads the shared bank. -/
theorem hiddenRegistersUnreachable : Obligations.HiddenRegistersUnreachable :=
  fun _ _ => unobservable_sameButHidden.step

end Sys2Proof.Machine
end

