-- ==== Sys2Proof/Proofs/AddressBus.lean ====
section
/-! The address bus (20_memory.md): the bytes of words and cells, what a fetch, a data read and a data write are in the
terms of the address map of R67, and the statements about them. -/

namespace Sys2Proof.Machine

/-! ### Bytes of words and halfwords -/

/-- Byte `j` of a word is the eight bits from bit `8 * j` on. -/
theorem byteOf_eq_extract (v : Word) (j : Nat) : byteOf v j = v.extractLsb' (8 * j) 8 := by
  apply BitVec.eq_of_toNat_eq
  rw [byteOf, BitVec.toNat_ofNat, BitVec.extractLsb'_toNat, Nat.shiftRight_eq_div_pow, pow_mul]
  rfl

/-- The two low bytes of a word are its low halfword. -/
theorem byteOf_append_low (v : Word) : byteOf v 1 ++ byteOf v 0 = v.extractLsb 15 0 := by
  rw [byteOf_eq_extract, byteOf_eq_extract]
  exact BitVec.extractLsb'_append_extractLsb'_eq_extractLsb' rfl

theorem extractLow_setWidth (h : Half) : (h.setWidth 32 : Word).extractLsb 15 0 = h := by
  apply BitVec.eq_of_toNat_eq
  simpa [BitVec.extractLsb] using h.isLt

theorem byteOf_setWidth_zero (h : Half) : byteOf (h.setWidth 32) 0 = h.extractLsb 7 0 := by
  apply BitVec.eq_of_toNat_eq
  simp [byteOf, BitVec.extractLsb]

theorem byteOf_setWidth_one (h : Half) : byteOf (h.setWidth 32) 1 = h.extractLsb 15 8 := by
  have := h.isLt
  apply BitVec.eq_of_toNat_eq
  simp only [byteOf, BitVec.extractLsb, BitVec.toNat_ofNat, BitVec.toNat_setWidth, BitVec.extractLsb'_toNat,
    Nat.shiftRight_eq_div_pow]
  omega

/-- The bytes of the low halfword of a word. -/
theorem byteOf_lowHalf (v : Word) {j : Nat} (hj : j < 2) : byteOf ((v.extractLsb 15 0).setWidth 32) j = byteOf v j := by
  rw [← byteOf_append_low]
  obtain rfl | rfl : j = 0 ∨ j = 1 := by omega
  · rw [byteOf_setWidth_zero]; exact BitVec.extractLsb'_append_eq_right
  · rw [byteOf_setWidth_one]; exact BitVec.extractLsb'_append_eq_left

/-- The bytes of the high halfword of a word. -/
theorem byteOf_highHalf (v : Word) (j : Nat) : byteOf ((v.extractLsb 31 16).setWidth 32) j = byteOf v (j + 2) := by
  have high : ((v.extractLsb 31 16).setWidth 32).toNat = v.toNat / 256 ^ 2 := by
    have := v.isLt
    simp only [BitVec.extractLsb, BitVec.toNat_setWidth, BitVec.extractLsb'_toNat, Nat.shiftRight_eq_div_pow]
    omega
  rw [byteOf, byteOf, high, Nat.div_div_eq_div_mul, ← pow_add, Nat.add_comm 2 j]

variable (s : State) (a : Word)

/-! ### Addresses of the bytes and halves of an aligned access -/

theorem succ_toNat_of_even {a : Word} (h : a.toNat % 2 = 0) : (a + 1#32).toNat = a.toNat + 1 := by
  have := a.isLt
  rw [BitVec.toNat_add, BitVec.toNat_ofNat]
  omega

theorem add2_toNat_of_aligned {a : Word} (h : a.toNat % 4 = 0) : (a + 2#32).toNat = a.toNat + 2 := by
  have := a.isLt
  rw [BitVec.toNat_add, BitVec.toNat_ofNat]
  omega

/-! ### Instruction fetch (R55, R56) -/

/-- The cell of a fetch by ranges of addresses. -/
theorem fetchKey_eq : fetchKey a =
    if a.toNat < 0x10000000 then
      if a.toNat % 0x8000 < 0x50 then none else some (a.toNat % 0x8000 / 2 * 2)
    else if 0x40000000 ≤ a.toNat ∧ a.toNat < 0x50000000 then some ((0x40000000 + a.toNat % 0x2000) / 2 * 2)
    else none := by
  have window : (a &&& romMask < vectorWindow) = (a.toNat % 0x8000 < 0x50) := by
    rw [BitVec.lt_def, romMask_toNat]; rfl
  have ram : 0x40000000 + a.toNat % 0x2000 / 2 * 2 = (0x40000000 + a.toNat % 0x2000) / 2 * 2 := by omega
  unfold fetchKey
  simp only [window, romKey_eq, ramKey_eq, ram, region_eq]
  split_ifs <;> rfl

/-- A fetch sees the map and counts itself, and does nothing else. -/
theorem fetch16_eq : fetch16 s a = (s.mapFetch a, { s with fetches := s.fetches + 1 }) := by
  unfold fetch16 State.mapFetch Memory.cell
  rw [fetchKey_eq]
  split_ifs <;> rfl

/-- What a fetch sees is the cell of its address, bit 0 dropped. -/
theorem mapFetch_congr {a b : Word} (h : a.toNat / 2 = b.toNat / 2) : s.mapFetch a = s.mapFetch b := by
  have key : fetchKey a = fetchKey b := by
    have rom : a.toNat < 0x10000000 ↔ b.toNat < 0x10000000 := by omega
    have window : a.toNat % 0x8000 < 0x50 ↔ b.toNat % 0x8000 < 0x50 := by omega
    have ram : (0x40000000 ≤ a.toNat ∧ a.toNat < 0x50000000) ↔ (0x40000000 ≤ b.toNat ∧ b.toNat < 0x50000000) := by
      omega
    have romCell : a.toNat % 0x8000 / 2 = b.toNat % 0x8000 / 2 := by omega
    have ramCell : (0x40000000 + a.toNat % 0x2000) / 2 = (0x40000000 + b.toNat % 0x2000) / 2 := by omega
    simp only [fetchKey_eq, rom, window, ram, romCell, ramCell]
  have fetch : (fetch16 s a).1 = (fetch16 s b).1 := by simp only [fetch16, key]
  rwa [fetch16_eq, fetch16_eq] at fetch

/-- Settles O26: the fetch by ranges, and that its cell does not depend on bit 0 of the address. -/
theorem fetchMap : Obligations.FetchMap := by
  intro s a
  refine ⟨fetch16_eq s a, mapFetch_congr s ?_⟩
  have := a.isLt
  rw [BitVec.toNat_ofNat]
  omega

/-! ### Data reads (R58, R60) -/

/-- A 16-bit read at an even address by ranges of addresses. -/
theorem mapHalf_even {a : Word} (h : a.toNat % 2 = 0) : s.mapHalf a =
    if readableKey a.toNat then s.mem.cell a.toNat
    else if a.toNat = mamcrAt then s.mamcr.extractLsb 15 0
    else 0#16 := by
  have readable : readableKey (a.toNat + 1) ↔ readableKey a.toNat := by omega
  have notLow : a.toNat + 1 ≠ mamcrAt := by unfold mamcrAt; omega
  have notHigh : a.toNat ≠ mamcrAt + 1 := by unfold mamcrAt; omega
  have high : a.toNat + 1 = mamcrAt + 1 ↔ a.toNat = mamcrAt := Nat.succ_inj
  rw [State.mapHalf, if_pos h, State.mapByte, State.mapByte, succ_toNat_of_even h]
  simp only [readable, notLow, notHigh, high, if_false]
  split_ifs
  · rfl
  · exact byteOf_append_low s.mamcr
  · rfl

theorem mapHalf_odd {a : Word} (h : a.toNat % 2 ≠ 0) : s.mapHalf a = 0#16 := if_neg h

theorem mapHalf_unmapped {a : Word} (unreadable : ¬ readableKey a.toNat) (other : a.toNat ≠ mamcrAt) :
    s.mapHalf a = 0#16 := by
  by_cases even : a.toNat % 2 = 0
  · rw [mapHalf_even s even, if_neg unreadable, if_neg other]
  · exact mapHalf_odd s even

/-- A 16-bit read is counted where neither of its two tests stops it (R57, R58). -/
theorem readCounted_iff : readCounted a.toNat ↔ ¬ readGuarded a = true ∧ ¬ a.getLsbD 0 = true := by
  rw [readGuarded_iff, bit0_iff]
  omega

theorem memRead2_uncounted {a : Word} (h : ¬ readCounted a.toNat) : memRead2 s a = (0#32, s) := by
  rw [readCounted_iff, not_and_or, not_not, not_not] at h
  unfold memRead2
  obtain guarded | odd := h
  · exact if_pos guarded
  · rw [if_pos odd, ite_self]

/-- An uncounted read sees 0: nothing is readable in the guard windows, nor at odd addresses. -/
theorem mapHalf_uncounted {a : Word} (h : ¬ readCounted a.toNat) : s.mapHalf a = 0#16 := by
  by_cases even : a.toNat % 2 = 0
  · exact mapHalf_unmapped s (by omega) (by unfold mamcrAt; omega)
  · exact mapHalf_odd s even

/-- A 16-bit read sees the map, counts itself, and does nothing else. -/
theorem memRead2_eq : memRead2 s a =
    ((s.mapHalf a).setWidth 32, { s with reads := s.reads + if readCounted a.toNat then 1 else 0 }) := by
  by_cases counted : readCounted a.toNat
  swap
  · rw [memRead2_uncounted s counted, mapHalf_uncounted s counted, if_neg counted]
    rfl
  obtain ⟨unguarded, even⟩ := (readCounted_iff a).1 counted
  rw [memRead2, if_neg unguarded, if_neg even, if_pos counted, mapHalf_even s counted.1]
  congr 1
  split
  next rom =>
    rw [region_rom] at rom
    have key : romKey a = a.toNat := by rw [romKey_eq]; omega
    have readable : readableKey a.toNat := by omega
    rw [key, if_pos readable]
  next ram =>
    rw [region_ram] at ram
    have key : ramKey a = a.toNat := by rw [ramKey_eq]; omega
    have readable : readableKey a.toNat := by omega
    rw [key, if_pos readable]
  next rom ram =>
    have notRom := mt (region_rom a).2 rom
    have notRam := mt (region_ram a).2 ram
    have unreadable : ¬ readableKey a.toNat := by omega
    simp only [if_neg unreadable, mamcrAddr_iff]
    split_ifs <;> rfl

theorem memRead4_misaligned {a : Word} (h : a.toNat % 4 ≠ 0) : memRead4 s a = (0#32, s) :=
  if_pos (mt (low2_iff a).1 h)

/-- A 32-bit read sees the map, counts its halves or MAMCR once, and does nothing else. -/
theorem memRead4_eq : memRead4 s a = (s.mapWord a,
    { s with reads := s.reads +
        if a.toNat % 4 ≠ 0 then 0
        else if a.toNat = mamcrAt then 1
        else (if readCounted a.toNat then 1 else 0) + (if readCounted (a.toNat + 2) then 1 else 0) }) := by
  unfold State.mapWord
  by_cases aligned : a.toNat % 4 = 0
  swap
  · rw [memRead4_misaligned s aligned, if_pos aligned, if_pos aligned]
    rfl
  unfold memRead4
  simp only [ne_eq, low2_iff, mamcrAddr_iff, aligned, not_true_eq_false, if_false]
  by_cases mamcr : a.toNat = mamcrAt
  · rw [if_pos mamcr, if_pos mamcr, if_pos mamcr]
  · rw [if_neg mamcr, if_neg mamcr, if_neg mamcr, memRead2_eq s a, memRead2_eq _ (a + 2#32),
      add2_toNat_of_aligned aligned]
    simp only [extractLow_setWidth, Nat.add_assoc]
    rfl

/-- Settles O28: the two reads by ranges of addresses. -/
theorem dataReadMap : Obligations.DataReadMap := fun s a => ⟨memRead2_eq s a, memRead4_eq s a⟩

/-- Settles O27: the read-through is a data read, and elsewhere the two fetches are those of the map. -/
theorem fetch32Map : Obligations.Fetch32Map := by
  intro s a window
  have inWindow : (region a = .rom ∧ a &&& romMask < vectorWindow) ↔ window := by
    rw [region_rom, BitVec.lt_def, romMask_toNat]; rfl
  have inArrays : (region a = .rom ∨ region a = .ram) ↔
      (a.toNat < 0x10000000 ∨ (0x40000000 ≤ a.toNat ∧ a.toNat < 0x50000000)) := by
    rw [region_rom, region_ram]
  have vector : (a = 0#32 ∨ a = 4#32) ↔ (a.toNat = 0 ∨ a.toNat = 4) := by
    rw [← BitVec.toNat_inj, ← BitVec.toNat_inj]; rfl
  unfold fetch32
  simp only [inWindow, inArrays, vector]
  refine ⟨fun hw hv => ?_, fun hw h0 h4 => ?_, fun hw ha => ?_, fun hw ha => ?_⟩
  · rw [if_pos hw, if_pos hv, memRead4_eq]
    obtain h | h := hv <;> rw [h] <;> rfl
  · rw [if_pos hw, if_neg (by omega)]
  · rw [if_neg hw, if_pos ha, fetch16_eq s, fetch16_eq _ a]
    rfl
  · rw [if_neg hw, if_neg ha]

/-! ### Data writes (R59, R61) -/

/-- A 16-bit write reaches memory at an even address of the writable ranges only, and there its own cell. -/
theorem memWrite2_mem_eq (h : Half) : (memWrite2 s a h).mem =
    if a.toNat % 2 = 0 ∧ writableKey a.toNat then s.mem.setCell a.toNat h else s.mem := by
  have stored : (writeGuarded a = false ∧ a.getLsbD 0 = false ∧ region a = .ram) ↔
      (a.toNat % 2 = 0 ∧ writableKey a.toNat) := by
    rw [← Bool.not_eq_true, ← Bool.not_eq_true, writeGuarded_iff, bit0_iff, region_ram]
    omega
  rw [memWrite2_mem]
  simp only [stored]
  split_ifs with w
  · have key : ramKey a = a.toNat := by
      have := w.2
      rw [ramKey_eq]
      omega
    rw [key]
  · rfl

/-- The bytes of memory after a 16-bit write. -/
theorem memWrite2_byte (h : Half) (k : Nat) (wf : s.mem.wf) : (memWrite2 s a h).mem.byte k =
    if a.toNat % 2 = 0 ∧ a.toNat ≤ k ∧ k < a.toNat + 2 ∧ writableKey k then byteOf (h.setWidth 32) (k - a.toNat)
    else s.mem.byte k := by
  rw [memWrite2_mem_eq]
  by_cases w : a.toNat % 2 = 0 ∧ writableKey a.toNat
  · have both : a.toNat ≤ k → k < a.toNat + 2 → writableKey k := by
      obtain ⟨even, w⟩ := w
      omega
    rw [if_pos w, Memory.byte_setCell _ _ _ _ wf]
    by_cases low : k = a.toNat
    · subst low
      rw [if_pos rfl, if_pos ⟨w.1, le_rfl, by omega, w.2⟩, Nat.sub_self, byteOf_setWidth_zero]
    by_cases high : k = a.toNat + 1
    · rw [if_neg low, if_pos high, if_pos ⟨w.1, by omega, by omega, both (by omega) (by omega)⟩, high,
        Nat.add_sub_cancel_left, byteOf_setWidth_one]
    · rw [if_neg low, if_neg high, if_neg (by omega)]
  · have none : ¬ (a.toNat % 2 = 0 ∧ a.toNat ≤ k ∧ k < a.toNat + 2 ∧ writableKey k) := by omega
    rw [if_neg w, if_neg none]

/-- A 16-bit write is counted where neither of its two tests stops it (R57, R59). -/
theorem writeCounted_iff : writeCounted a.toNat ↔ ¬ writeGuarded a = true ∧ ¬ a.getLsbD 0 = true := by
  rw [writeGuarded_iff, bit0_iff]
  omega

theorem memWrite2_uncounted {a : Word} (v : Half) (h : ¬ writeCounted a.toNat) : memWrite2 s a v = s := by
  rw [writeCounted_iff, not_and_or, not_not, not_not] at h
  unfold memWrite2
  obtain guarded | odd := h
  · exact if_pos guarded
  · rw [if_pos odd, ite_self]

theorem memWrite2_writes (h : Half) :
    (memWrite2 s a h).writes = s.writes + if writeCounted a.toNat then 1 else 0 := by
  by_cases counted : writeCounted a.toNat
  swap
  · rw [memWrite2_uncounted s h counted, if_neg counted, Nat.add_zero]
  obtain ⟨unguarded, even⟩ := (writeCounted_iff a).1 counted
  rw [memWrite2, if_neg unguarded, if_neg even, if_pos counted]
  dsimp only
  split_ifs <;> rfl

/-- A 32-bit write that is aligned and not to MAMCR is two 16-bit writes, low first. -/
theorem memWrite4_halves {a : Word} (v : Word) (aligned : a.toNat % 4 = 0) (other : a.toNat ≠ mamcrAt) :
    memWrite4 s a v = memWrite2 (memWrite2 s a (v.extractLsb 15 0)) (a + 2#32) (v.extractLsb 31 16) := by
  rw [memWrite4, if_neg (not_not.2 ((low2_iff a).2 aligned)), if_neg (mt (mamcrAddr_iff a).1 other)]

theorem memWrite4_mamcrAddr {a : Word} (v : Word) (h : a.toNat = mamcrAt) :
    memWrite4 s a v = { s with writes := s.writes + 1, mamcr := v } := by
  rw [(mamcrAddr_iff a).2 h]
  rfl

theorem memWrite4_misaligned {a : Word} (v : Word) (h : a.toNat % 4 ≠ 0) : memWrite4 s a v = s :=
  if_pos (mt (low2_iff a).1 h)

/-- The bytes of memory after a 32-bit write. -/
theorem memWrite4_byte (v : Word) (k : Nat) (wf : s.mem.wf) : (memWrite4 s a v).mem.byte k =
    if a.toNat % 4 = 0 ∧ a.toNat ≤ k ∧ k < a.toNat + 4 ∧ writableKey k then byteOf v (k - a.toNat)
    else s.mem.byte k := by
  by_cases aligned : a.toNat % 4 = 0
  swap
  · rw [memWrite4_misaligned s v aligned, if_neg fun h => aligned h.1]
  by_cases mamcr : a.toNat = mamcrAt
  · rw [memWrite4_mamcrAddr s v mamcr, if_neg (by unfold mamcrAt at mamcr; omega)]
  rw [memWrite4_halves s v aligned mamcr, memWrite2_byte _ _ _ _ (memWrite2_wf _ _ _ wf),
    memWrite2_byte _ _ _ _ wf, add2_toNat_of_aligned aligned]
  split_ifs with high whole low whole whole
  · have shift : k - a.toNat = k - (a.toNat + 2) + 2 := by omega
    rw [byteOf_highHalf, shift]
  · omega
  · exact byteOf_lowHalf v (by omega)
  · omega
  · omega
  · rfl

/-- MAMCR after a 32-bit write. -/
theorem memWrite4_mamcr (v : Word) : (memWrite4 s a v).mamcr = if a.toNat = mamcrAt then v else s.mamcr := by
  by_cases mamcr : a.toNat = mamcrAt
  · rw [memWrite4_mamcrAddr s v mamcr, if_pos mamcr]
  rw [if_neg mamcr]
  by_cases aligned : a.toNat % 4 = 0
  swap
  · rw [memWrite4_misaligned s v aligned]
  have high : (a + 2#32).toNat ≠ mamcrAt := by rw [add2_toNat_of_aligned aligned]; unfold mamcrAt; omega
  rw [memWrite4_halves s v aligned mamcr, memWrite2_mamcr, memWrite2_mamcr, if_neg (mt (mamcrAddr_iff _).1 high),
    if_neg (mt (mamcrAddr_iff _).1 mamcr)]

/-- A 32-bit write counts its halves, or MAMCR once. -/
theorem memWrite4_writes (v : Word) : (memWrite4 s a v).writes = s.writes +
    if a.toNat % 4 ≠ 0 then 0
    else if a.toNat = mamcrAt then 1
    else (if writeCounted a.toNat then 1 else 0) + (if writeCounted (a.toNat + 2) then 1 else 0) := by
  by_cases aligned : a.toNat % 4 = 0
  swap
  · rw [memWrite4_misaligned s v aligned, if_pos aligned, Nat.add_zero]
  rw [if_neg (not_not.2 aligned)]
  by_cases mamcr : a.toNat = mamcrAt
  · rw [memWrite4_mamcrAddr s v mamcr, if_pos mamcr]
  · rw [memWrite4_halves s v aligned mamcr, memWrite2_writes, memWrite2_writes, add2_toNat_of_aligned aligned,
      if_neg mamcr, Nat.add_assoc]

theorem memWrite2_storedAt (h : Half) (wf : s.mem.wf) :
    StoredAt s a 2 (h.setWidth 32) (h.setWidth 32) (memWrite2 s a h) := by
  refine ⟨⟨(memWrite2 s a h).mem, (memWrite2 s a h).writes, (memWrite2_eq a s h).trans ?_⟩,
    fun k => memWrite2_byte s a h k wf⟩
  simp only [memWrite2_mamcr, mamcrAddr_iff]

theorem memWrite4_storedAt (v : Word) (wf : s.mem.wf) : StoredAt s a 4 v v (memWrite4 s a v) := by
  refine ⟨⟨(memWrite4 s a v).mem, (memWrite4 s a v).writes, (memWrite4_eq a s v).trans ?_⟩,
    fun k => memWrite4_byte s a v k wf⟩
  rw [memWrite4_mamcr]

/-- Settles O29: for each width, the bytes and MAMCR, then the write counter. -/
theorem dataWriteMap : Obligations.DataWriteMap := fun s a v h wf =>
  ⟨memWrite2_storedAt s a h wf, memWrite2_writes s a h, memWrite4_storedAt s a v wf, memWrite4_writes s a v⟩

/-! ### Addresses that are neither array nor MAMCR (R53, R57) -/

theorem mapWord_unmapped {a : Word} (unreadable : ¬ readableKey a.toNat) (other : a.toNat ≠ mamcrAt) :
    s.mapWord a = 0#32 := by
  unfold State.mapWord
  by_cases aligned : a.toNat % 4 = 0
  swap
  · exact if_pos aligned
  have high : s.mapHalf (a + 2#32) = 0#16 := by
    apply mapHalf_unmapped <;> rw [add2_toNat_of_aligned aligned]
    · omega
    · unfold mamcrAt; omega
  rw [if_neg (not_not.2 aligned), if_neg other, high, mapHalf_unmapped s unreadable other]
  rfl

/-- Outside writable RAM and MAMCR a 16-bit write moves at most the write counter. -/
theorem memWrite2_unmapped {a : Word} (h : Half) (unwritable : ¬ writableKey a.toNat) (other : a.toNat ≠ mamcrAt) :
    memWrite2 s a h = { s with writes := (memWrite2 s a h).writes } := by
  have mem : (memWrite2 s a h).mem = s.mem := by
    rw [memWrite2_mem_eq]
    exact if_neg fun w => unwritable w.2
  have mamcr : (memWrite2 s a h).mamcr = s.mamcr := by
    rw [memWrite2_mamcr]
    exact if_neg (mt (mamcrAddr_iff a).1 other)
  exact (memWrite2_eq a s h).trans (by rw [mem, mamcr])

/-- Outside writable RAM and MAMCR a 32-bit write moves at most the write counter. -/
theorem memWrite4_unmapped {a : Word} (v : Word) (unwritable : ¬ writableKey a.toNat) (other : a.toNat ≠ mamcrAt) :
    memWrite4 s a v = { s with writes := (memWrite4 s a v).writes } := by
  by_cases aligned : a.toNat % 4 = 0
  swap
  · rw [memWrite4_misaligned s v aligned]
  have high : ¬ writableKey (a + 2#32).toNat ∧ (a + 2#32).toNat ≠ mamcrAt := by
    rw [add2_toNat_of_aligned aligned]; unfold mamcrAt; omega
  rw [memWrite4_halves s v aligned other, memWrite2_unmapped _ _ high.1 high.2, memWrite2_unmapped s _ unwritable other]

/-- Settles O30: MAMCR moves whole at its own address; the rest of its region is unmapped. -/
theorem mamcrReadBack : Obligations.MamcrReadBack := by
  intro s a v h
  refine ⟨rfl, ?_, ?_, rfl, fun above below other => ?_⟩
  · show ((v.extractLsb 15 0).setWidth 32).toNat = v.toNat % 65536
    rw [BitVec.toNat_setWidth_of_le (by decide)]
    simp [BitVec.extractLsb]
  · show (((h.setWidth 32 : Word).extractLsb 15 0).setWidth 32).toNat = h.toNat
    rw [extractLow_setWidth]
    exact BitVec.toNat_setWidth_of_le (by decide)
  · have unreadable : ¬ readableKey a.toNat := by omega
    have unwritable : ¬ writableKey a.toNat := by omega
    refine ⟨?_, ?_, memWrite2_unmapped s h unwritable other, memWrite4_unmapped s v unwritable other⟩
    · rw [memRead2_eq, mapHalf_unmapped s unreadable other]; rfl
    · rw [memRead4_eq, mapWord_unmapped s unreadable other]

/-! ### A store and the next fetch (R72) -/

/-- Settles O31: the store sets the cell of its own address, and the fetch reads that cell through its mirror. -/
theorem fetchSeesStore : Obligations.FetchSeesStore := by
  intro s a f h wf even writable above below same
  have key : fetchKey f = some a.toNat := by
    rw [fetchKey_eq, if_neg (by omega), if_pos ⟨above, below⟩]
    congr 1
    omega
  simp only [fetch16, key, memWrite2_mem_eq, if_pos (And.intro even writable)]
  exact Memory.cell_setCell_self s.mem a.toNat h wf

/-! ### Misaligned loads and stores (R65) -/

theorem memRead2_odd {a : Word} (h : a.toNat % 2 ≠ 0) : memRead2 s a = (0#32, s) :=
  memRead2_uncounted s fun counted => h counted.1

theorem memWrite2_odd {a : Word} (v : Half) (h : a.toNat % 2 ≠ 0) : memWrite2 s a v = s :=
  memWrite2_uncounted s v fun counted => h counted.1

theorem loadWord_misaligned (rd : LowReg) {a : Word} (h : a.toNat % 4 ≠ 0) :
    s.loadWord rd a = s.writeReg (low rd) 0#32 := by
  rw [State.loadWord, memRead4_misaligned s h]

theorem loadHalf_odd (rd : LowReg) {a : Word} (extend : Word → Word) (h : a.toNat % 2 ≠ 0) :
    s.loadHalf rd a extend = s.writeReg (low rd) (extend 0#32) := by
  rw [State.loadHalf, memRead2_odd s h]

/-- Settles O46: a misaligned load writes the extended 0, a misaligned store does nothing. -/
theorem misalignedAccess : Obligations.MisalignedAccess := fun s rd _ _ _ _ =>
  ⟨fun h => ⟨congrArg _ (loadWord_misaligned s rd h), congrArg _ (memWrite4_misaligned s _ h)⟩,
   fun h => ⟨congrArg _ (loadWord_misaligned s rd h), congrArg _ (memWrite4_misaligned s _ h)⟩,
   fun h => ⟨congrArg _ (loadWord_misaligned s rd h), congrArg _ (memWrite4_misaligned s _ h)⟩,
   fun h => ⟨congrArg _ (loadHalf_odd s rd zext16 h), congrArg _ (memWrite2_odd s _ h)⟩,
   fun h => ⟨congrArg _ (loadHalf_odd s rd zext16 h), congrArg _ (memWrite2_odd s _ h),
     congrArg _ (loadHalf_odd s rd sext16 h)⟩⟩

/-! ### Steps (R51, R57, R59) -/

/-- Settles O14: the step's own actions do not touch memory, and what they dispatch to keeps every unwritable byte. -/
theorem stepKeepsUnwritable : Obligations.StepKeepsUnwritable := by
  intro s t k hstep hk
  obtain ⟨-, ⟨-, rfl⟩ | ⟨-, hd⟩⟩ := step_cases hstep
  · rfl
  · calc t.mem.byte k = (fetchAdvance s).2.mem.byte k := (dispatch_kept hd).unwritable k hk
      _ = s.mem.byte k := by rw [fetchAdvance_snd, writeReg_mem]

end Sys2Proof.Machine
end

