-- ==== Sys2Proof/Proofs/Encoding.lean ====
section
/-! Encoding (30_encoding.md). Opcodes are read as numbers: a mask tests a quotient, a field is a remainder. So each
format of R93 has one lemma that says which opcodes carry given fields, and every instruction one row that accepts and
builds exactly its encoding (`Row.Reads`). With the rows exclusive (R97), `decode` and `encode` are then inverse. -/

namespace Sys2Proof

/-! ### Opcodes as numbers -/

theorem append_toNat {u n : Nat} (x : BitVec u) (y : BitVec n) : (x ++ y).toNat = x.toNat * 2 ^ n + y.toNat := by
  rw [BitVec.toNat_append, ← Nat.shiftLeft_add_eq_or_of_lt y.isLt, Nat.shiftLeft_eq]

theorem append_zero_mod {u n : Nat} (x : BitVec u) : (x ++ 0#n).toNat % 2 ^ n = 0 := by
  rw [append_toNat, BitVec.toNat_ofNat, Nat.zero_mod, Nat.add_zero, Nat.mul_mod_left]

theorem bit_eq_iff {n k : Nat} {x : BitVec n} {b : Bool} : x.getLsbD k = b ↔ x.toNat / 2 ^ k % 2 = b.toNat := by
  rw [BitVec.getLsbD, Nat.testBit_eq_decide_div_mod_eq]
  cases b <;> simp

theorem and_high_toNat {u n : Nat} (x : BitVec u) : (x &&& BitVec.allOnes u <<< n).toNat = x.toNat / 2 ^ n * 2 ^ n := by
  rw [← BitVec.shiftLeft_ushiftRight, BitVec.toNat_shiftLeft, BitVec.toNat_ushiftRight, Nat.shiftRight_eq_div_pow,
    Nat.shiftLeft_eq]
  exact Nat.mod_eq_of_lt (lt_of_le_of_lt (Nat.div_mul_le_self _ _) x.isLt)

variable {w v : Half}

theorem field_toNat (hi lo : Nat) : (w.extractLsb hi lo).toNat = w.toNat / 2 ^ lo % 2 ^ (hi - lo + 1) := by
  rw [BitVec.extractLsb_toNat, Nat.shiftRight_eq_div_pow]

theorem field_eq_iff {hi lo : Nat} {x : BitVec (hi - lo + 1)} :
    w.extractLsb hi lo = x ↔ w.toNat / 2 ^ lo % 2 ^ (hi - lo + 1) = x.toNat := by
  rw [← BitVec.toNat_inj, field_toNat]

/-- A mask of all the bits from bit `n` on tests a quotient. -/
theorem and_high_iff (m : Half) (n : Nat) (hm : m = BitVec.allOnes 16 <<< n) (hv : v.toNat % 2 ^ n = 0) :
    w &&& m = v ↔ w.toNat / 2 ^ n = v.toNat / 2 ^ n := by
  rw [← BitVec.toNat_inj, hm, and_high_toNat, ← Nat.div_add_mod' v.toNat (2 ^ n), hv, Nat.add_zero,
    Nat.mul_div_cancel _ (Nat.two_pow_pos n), Nat.mul_left_inj (Nat.two_pow_pos n).ne']

/-- A mask of the lowest `n` bits tests a remainder. -/
theorem and_low_iff (m : Half) (n : Nat) (hm : m.toNat = 2 ^ n - 1) : w &&& m = v ↔ w.toNat % 2 ^ n = v.toNat := by
  rw [← BitVec.toNat_inj, BitVec.toNat_and, hm, Nat.and_two_pow_sub_one_eq_mod]

/-- A mask of two parts, the second tested for 0, is a test of each part. -/
theorem and_or_iff (m a b : Half) (hm : m = a ||| b) (ha : v &&& a = v) (hb : v &&& b = 0#16) :
    w &&& m = v ↔ w &&& a = v ∧ w &&& b = 0#16 := by
  have absorb_left : m &&& a = a := by subst hm; ext i; grind
  have absorb_right : m &&& b = b := by subst hm; ext i; grind
  constructor
  · intro h
    rw [← h, BitVec.and_assoc] at ha hb
    rw [absorb_left] at ha
    rw [absorb_right] at hb
    exact ⟨ha.trans h, hb⟩
  · rintro ⟨ha, hb⟩
    rw [hm, BitVec.and_or_distrib_left, ha, hb, BitVec.or_zero]

/-! The masks of BX and BLX(2), of SETEND and of CPS leave out bits in their middle. -/

theorem and_FF87_iff (hv : v.toNat % 128 = 0) : w &&& 0xFF87#16 = v ↔
    w.toNat / 128 = v.toNat / 128 ∧ w.toNat % 8 = 0 := by
  have low : v &&& 7#16 = 0#16 := by
    rw [and_low_iff 7#16 3 rfl, BitVec.toNat_ofNat]
    omega
  have high : v &&& 0xFF80#16 = v := (and_high_iff 0xFF80#16 7 rfl hv).2 rfl
  rw [and_or_iff 0xFF87#16 0xFF80#16 7#16 rfl high low, and_high_iff 0xFF80#16 7 rfl hv, and_low_iff 7#16 3 rfl]
  rfl

theorem and_FFF7_iff : w &&& 0xFFF7#16 = 0xB650#16 ↔ w.toNat / 16 = 0xB65 ∧ w.toNat % 8 = 0 := by
  rw [and_or_iff 0xFFF7#16 0xFFF0#16 7#16 rfl rfl rfl, and_high_iff 0xFFF0#16 4 rfl rfl, and_low_iff 7#16 3 rfl]
  rfl

theorem and_FFE8_iff : w &&& 0xFFE8#16 = 0xB660#16 ↔ w.toNat / 32 = 0x5B3 ∧ w.toNat / 8 % 2 = 0 := by
  have bit3 : w &&& 8#16 = 0#16 ↔ w.getLsbD 3 = false := by
    have one : w &&& 8#16 = if w.getLsbD 3 then 8#16 else 0#16 := BitVec.and_twoPow w 3
    rw [one]
    cases w.getLsbD 3 <;> simp
  rw [and_or_iff 0xFFE8#16 0xFFE0#16 8#16 rfl rfl rfl, and_high_iff 0xFFE0#16 5 rfl rfl, bit3, bit_eq_iff]
  rfl

/-! ### The formats (R93): the opcodes with given fields -/

theorem regPair_iff {p : BitVec 10} {d m : LowReg} :
    (w &&& 0xFFC0#16 = p ++ 0#6 ∧ w.extractLsb 2 0 = d ∧ w.extractLsb 5 3 = m) ↔ w = p ++ m ++ d := by
  rw [and_high_iff (v := p ++ 0#6) 0xFFC0#16 6 rfl (append_zero_mod p)]
  simp only [← BitVec.toNat_inj, append_toNat, field_toNat, BitVec.toNat_ofNat]
  omega

theorem regPairImm5_iff {p imm5 : BitVec 5} {d m : LowReg} :
    (w &&& 0xF800#16 = p ++ 0#11 ∧ w.extractLsb 2 0 = d ∧ w.extractLsb 5 3 = m ∧ w.extractLsb 10 6 = imm5) ↔
      w = p ++ imm5 ++ m ++ d := by
  rw [and_high_iff (v := p ++ 0#11) 0xF800#16 11 rfl (append_zero_mod p)]
  simp only [← BitVec.toNat_inj, append_toNat, field_toNat, BitVec.toNat_ofNat]
  omega

theorem regTriple_iff {p : BitVec 7} {d n m : LowReg} :
    (w &&& 0xFE00#16 = p ++ 0#9 ∧ w.extractLsb 2 0 = d ∧ w.extractLsb 5 3 = n ∧ w.extractLsb 8 6 = m) ↔
      w = p ++ m ++ n ++ d := by
  rw [and_high_iff (v := p ++ 0#9) 0xFE00#16 9 rfl (append_zero_mod p)]
  simp only [← BitVec.toNat_inj, append_toNat, field_toNat, BitVec.toNat_ofNat]
  omega

theorem regImm8_iff {p : BitVec 5} {d : LowReg} {imm8 : BitVec 8} :
    (w &&& 0xF800#16 = p ++ 0#11 ∧ w.extractLsb 10 8 = d ∧ w.extractLsb 7 0 = imm8) ↔ w = p ++ d ++ imm8 := by
  rw [and_high_iff (v := p ++ 0#11) 0xF800#16 11 rfl (append_zero_mod p)]
  simp only [← BitVec.toNat_inj, append_toNat, field_toNat, BitVec.toNat_ofNat]
  omega

theorem highField_toNat : (highField w).toNat = w.toNat / 128 % 2 * 8 + w.toNat % 8 := by
  rw [highField, append_toNat, field_toNat, field_toNat]
  omega

theorem highRegs_iff {p : BitVec 8} {d m : RegNo} :
    (w &&& 0xFF00#16 = p ++ 0#8 ∧ highField w = d ∧ w.extractLsb 6 3 = m) ↔
      w = p ++ d.extractLsb 3 3 ++ m ++ d.extractLsb 2 0 := by
  rw [and_high_iff (v := p ++ 0#8) 0xFF00#16 8 rfl (append_zero_mod p)]
  simp only [← BitVec.toNat_inj, append_toNat, field_toNat, highField_toNat, BitVec.extractLsb_toNat,
    Nat.shiftRight_eq_div_pow, BitVec.toNat_ofNat]
  omega

theorem branchReg_iff {p : BitVec 9} {m : RegNo} :
    (w &&& 0xFF87#16 = p ++ 0#7 ∧ w.extractLsb 6 3 = m) ↔ w = p ++ m ++ 0#3 := by
  rw [and_FF87_iff (v := p ++ 0#7) (append_zero_mod p)]
  simp only [← BitVec.toNat_inj, append_toNat, field_toNat, BitVec.toNat_ofNat]
  omega

theorem imm7_iff {p : BitVec 9} {imm7 : BitVec 7} :
    (w &&& 0xFF80#16 = p ++ 0#7 ∧ w.extractLsb 6 0 = imm7) ↔ w = p ++ imm7 := by
  rw [and_high_iff (v := p ++ 0#7) 0xFF80#16 7 rfl (append_zero_mod p)]
  simp only [← BitVec.toNat_inj, append_toNat, field_toNat, BitVec.toNat_ofNat]
  omega

theorem pushPop_iff {p : BitVec 7} {r : Bool} {list : BitVec 8} :
    (w &&& 0xFE00#16 = p ++ 0#9 ∧ w.getLsbD 8 = r ∧ w.extractLsb 7 0 = list) ↔ w = p ++ BitVec.ofBool r ++ list := by
  have := r.toNat_le
  rw [and_high_iff (v := p ++ 0#9) 0xFE00#16 9 rfl (append_zero_mod p), bit_eq_iff]
  simp only [← BitVec.toNat_inj, append_toNat, field_toNat, BitVec.toNat_ofBool, BitVec.toNat_ofNat]
  omega

theorem setend_iff {e : Bool} :
    (w &&& 0xFFF7#16 = 0xB650#16 ∧ w.getLsbD 3 = e) ↔ w = 0xB65#12 ++ BitVec.ofBool e ++ 0#3 := by
  have := e.toNat_le
  rw [and_FFF7_iff, bit_eq_iff]
  simp only [← BitVec.toNat_inj, append_toNat, BitVec.toNat_ofBool, BitVec.toNat_ofNat]
  omega

theorem cps_iff {imod a i f : Bool} :
    (w &&& 0xFFE8#16 = 0xB660#16 ∧
      w.getLsbD 4 = imod ∧ w.getLsbD 2 = a ∧ w.getLsbD 1 = i ∧ w.getLsbD 0 = f) ↔
      w = 0x5B3#11 ++ BitVec.ofBool imod ++ 0#1 ++ BitVec.ofBool a ++ BitVec.ofBool i ++ BitVec.ofBool f := by
  have := imod.toNat_le
  have := a.toNat_le
  have := i.toNat_le
  have := f.toNat_le
  rw [and_FFE8_iff]
  simp only [bit_eq_iff, ← BitVec.toNat_inj, append_toNat, BitVec.toNat_ofBool, BitVec.toNat_ofNat]
  omega

theorem imm8_iff {p imm8 : BitVec 8} :
    (w &&& 0xFF00#16 = p ++ 0#8 ∧ w.extractLsb 7 0 = imm8) ↔ w = p ++ imm8 := by
  rw [and_high_iff (v := p ++ 0#8) 0xFF00#16 8 rfl (append_zero_mod p)]
  simp only [← BitVec.toNat_inj, append_toNat, field_toNat, BitVec.toNat_ofNat]
  omega

theorem condBranch_iff {p code : BitVec 4} {imm8 : BitVec 8} :
    (w &&& 0xF000#16 = p ++ 0#12 ∧ w.extractLsb 11 8 = code ∧ w.extractLsb 7 0 = imm8) ↔ w = p ++ code ++ imm8 := by
  rw [and_high_iff (v := p ++ 0#12) 0xF000#16 12 rfl (append_zero_mod p)]
  simp only [← BitVec.toNat_inj, append_toNat, field_toNat, BitVec.toNat_ofNat]
  omega

theorem imm11_iff {p : BitVec 5} {imm11 : BitVec 11} :
    (w &&& 0xF800#16 = p ++ 0#11 ∧ w.extractLsb 10 0 = imm11) ↔ w = p ++ imm11 := by
  rw [and_high_iff (v := p ++ 0#11) 0xF800#16 11 rfl (append_zero_mod p)]
  simp only [← BitVec.toNat_inj, append_toNat, field_toNat, BitVec.toNat_ofNat]
  omega

/-! ### Condition codes and the constraint of MOV(3) -/

theorem ofCode_eq_some_iff {code : BitVec 4} {c : Cond} : Cond.ofCode code = some c ↔ code = c.code := by
  revert code
  cases c <;> decide

theorem ofCode_isSome_iff {code : BitVec 4} : (Cond.ofCode code).isSome ↔ code.toNat < 14 := by
  simp [Cond.ofCode]

theorem code_lt (c : Cond) : c.code.toNat < 14 := by
  cases c <;> decide

theorem mov3Proper_iff {rd rm : RegNo} : mov3Proper rd rm = true ↔ 8 ≤ rd.toNat ∨ 8 ≤ rm.toNat := by
  rw [mov3Proper, Bool.or_eq_true, bit_eq_iff, bit_eq_iff, Bool.toNat_true]
  omega

/-- The constraint of row 32 on the opcode is that of `mov3Proper` on its fields. -/
theorem mov3_constraint : (w.extractLsb 7 6 != 0#2) = mov3Proper (highField w) (w.extractLsb 6 3) := by
  rw [Bool.eq_iff_iff, mov3Proper_iff, bne_iff_ne, ne_eq, field_eq_iff, highField_toNat, field_toNat,
    BitVec.toNat_ofNat]
  omega

/-! ### The row of an instruction -/

theorem Row.accepts_iff {r : Row} {hasMul : Bool} :
    r.accepts hasMul w = true ↔ w &&& r.mask = r.value ∧ r.constraint hasMul w = true := by
  rw [accepts, Bool.and_eq_true, beq_iff_eq]

/-- Row `r` accepts an opcode and builds `i` from it exactly where `i` is well formed and the opcode is its encoding. -/
def Row.Reads (r : Row) (i : Instr) : Prop :=
  ∀ hasMul w, r.accepts hasMul w = true ∧ r.build w = some i ↔ i.wellFormed hasMul = true ∧ w = encode i

/-- The fixed bits and the fields of a row are one question, its constraint another. -/
theorem Row.Reads.of_fields {r : Row} {i : Instr}
    (fields : ∀ w, w &&& r.mask = r.value ∧ r.build w = some i ↔ w = encode i)
    (constraint : ∀ hasMul, r.constraint hasMul (encode i) = i.wellFormed hasMul) : r.Reads i := by
  intro hasMul w
  rw [accepts_iff, and_right_comm, fields, and_comm]
  exact and_congr_left fun hw => by rw [hw, constraint]

/-- The rows stand in the order of the instruction type's constructors, each of them its constructor's row. -/
theorem exists_reads (i : Instr) : ∃ r, rows[i.ctorIdx]? = some r ∧ r.Reads i := by
  cases i
  case and | eor | lsl2 | lsr2 | asr2 | adc | sbc | ror | tst | neg | cmp2 | cmn | orr | mul | bic | mvn | mov2 | cpy
      | sxth | sxtb | uxth | uxtb | rev | rev16 | revsh =>
    exact ⟨_, rfl, .of_fields (fun w => by simp [encode, ← regPair_iff]) fun _ => rfl⟩
  case lsl1 | lsr1 | asr1 | str1 | ldr1 | strb1 | ldrb1 | strh1 | ldrh1 =>
    exact ⟨_, rfl, .of_fields (fun w => by simp [encode, ← regPairImm5_iff]) fun _ => rfl⟩
  case add3 | sub3 | sub1 | str2 | strh2 | strb2 | ldrsb | ldr2 | ldrh2 | ldrb2 | ldrsh =>
    exact ⟨_, rfl, .of_fields (fun w => by simp [encode, ← regTriple_iff]) fun _ => rfl⟩
  case add1 rd rn imm3 =>
    refine ⟨_, rfl, .of_fields (fun w => by simp [encode, ← regTriple_iff]) fun _ => ?_⟩
    obtain ⟨-, -, -, field⟩ := regTriple_iff.2 (Eq.refl (encode (.add1 rd rn imm3)))
    exact congrArg (· != 0#3) field
  case mov1 | cmp1 | add2 | sub2 | ldr3 | str3 | ldr4 | add5 | add6 | stmia | ldmia =>
    exact ⟨_, rfl, .of_fields (fun w => by simp [encode, ← regImm8_iff]) fun _ => rfl⟩
  case add4 | cmp3 =>
    exact ⟨_, rfl, .of_fields (fun w => .trans (by simp) highRegs_iff) fun _ => rfl⟩
  case mov3 rd rm =>
    refine ⟨_, rfl, .of_fields (fun w => .trans (by simp) highRegs_iff) fun _ => ?_⟩
    obtain ⟨-, hd, hm⟩ := highRegs_iff.2 (Eq.refl (encode (.mov3 rd rm)))
    exact mov3_constraint.trans (congrArg₂ mov3Proper hd hm)
  case bx | blx2 =>
    exact ⟨_, rfl, .of_fields (fun w => by simp [encode, ← branchReg_iff]) fun _ => rfl⟩
  case add7 | sub4 =>
    exact ⟨_, rfl, .of_fields (fun w => by simp [encode, ← imm7_iff]) fun _ => rfl⟩
  case push | pop =>
    exact ⟨_, rfl, .of_fields (fun w => by simp [encode, ← pushPop_iff]) fun _ => rfl⟩
  case setend =>
    exact ⟨_, rfl, .of_fields (fun w => by simp [encode, ← setend_iff]) fun _ => rfl⟩
  case cps =>
    exact ⟨_, rfl, .of_fields (fun w => by simp [encode, ← cps_iff]) fun _ => rfl⟩
  case bkpt | swi =>
    exact ⟨_, rfl, .of_fields (fun w => by simp [encode, ← imm8_iff]) fun _ => rfl⟩
  case b1 c imm8 =>
    refine ⟨_, rfl, .of_fields (fun w => by simp [encode, ← condBranch_iff, ofCode_eq_some_iff]) fun _ => ?_⟩
    obtain ⟨-, field, -⟩ := condBranch_iff.2 (Eq.refl (encode (.b1 c imm8)))
    exact decide_eq_true (field ▸ code_lt c)
  case b2 | blx1Suffix | blPrefix | blSuffix =>
    exact ⟨_, rfl, .of_fields (fun w => by simp [encode, ← imm11_iff]) fun _ => rfl⟩

theorem build_ctorIdx : ∀ p ∈ rows.zipIdx, ∀ w i, p.1.build w = some i → i.ctorIdx = p.2 := by
  simp [rows, aluRows, shiftImmRows, addSubRows, imm8Rows, hiRegRows, loadStoreRegRows, loadStoreImmRows, addressRows,
    extendRows, miscRows, blockAndBranchRows, Instr.ctorIdx]

/-- A row of the table is the row of whatever it builds. -/
theorem reads_of_build {r : Row} {i : Instr} (hr : r ∈ rows) (hb : r.build w = some i) : r.Reads i := by
  obtain ⟨k, hk⟩ := List.mem_iff_getElem?.1 hr
  have index : i.ctorIdx = k := build_ctorIdx (r, k) (List.mk_mem_zipIdx_iff_getElem?.2 hk) w i hb
  obtain ⟨r', hr', reads⟩ := exists_reads i
  rw [index, hk] at hr'
  cases hr'
  exact reads

/-! ### The rows exclude each other (R97) -/

/-- The fixed bits of the two rows agree wherever both fix a bit. -/
def Row.overlaps (q r : Row) : Bool := q.value &&& r.mask == r.value &&& q.mask

theorem Row.overlaps_of_accepts {q r : Row} {hasMul : Bool} (hq : q.accepts hasMul w = true)
    (hr : r.accepts hasMul w = true) : q.overlaps r = true := by
  obtain ⟨hq, -⟩ := accepts_iff.1 hq
  obtain ⟨hr, -⟩ := accepts_iff.1 hr
  rw [overlaps, beq_iff_eq, ← hq, ← hr, BitVec.and_assoc, BitVec.and_assoc, BitVec.and_comm q.mask]

/-- Three pairs of rows overlap: MOV(2) and ADD(1), CPY and MOV(3), SWI and B(1). -/
theorem rows_overlaps : ∀ k < 75, ∀ j < k, ∀ q ∈ rows[j]?, ∀ r ∈ rows[k]?, q.overlaps r = true →
    (j, k) = (21, 22) ∨ (j, k) = (30, 31) ∨ (j, k) = (69, 70) := by
  decide

theorem mov2_not_add1 (h : w &&& 0xFFC0#16 = 0x1C00#16) : ¬ (w.extractLsb 8 6 != 0#3) = true := by
  rw [and_high_iff 0xFFC0#16 6 rfl rfl, BitVec.toNat_ofNat] at h
  rw [bne_iff_ne, ne_eq, not_not, field_eq_iff, BitVec.toNat_ofNat]
  omega

theorem cpy_not_mov3 (h : w &&& 0xFFC0#16 = 0x4600#16) : ¬ (w.extractLsb 7 6 != 0#2) = true := by
  rw [and_high_iff 0xFFC0#16 6 rfl rfl, BitVec.toNat_ofNat] at h
  rw [bne_iff_ne, ne_eq, not_not, field_eq_iff, BitVec.toNat_ofNat]
  omega

theorem swi_not_b1 (h : w &&& 0xFF00#16 = 0xDF00#16) : ¬ decide ((w.extractLsb 11 8).toNat < 14) = true := by
  rw [and_high_iff 0xFF00#16 8 rfl rfl, BitVec.toNat_ofNat] at h
  rw [decide_eq_true_iff, field_toNat]
  omega

section Exclusive

variable {hasMul : Bool} {i : Instr} {j k : Nat} {q r : Row}

/-- Where rows overlap, the constraint of the later one excludes the earlier. -/
theorem not_accepts_later (hjk : j < k) (hj : rows[j]? = some q) (hk : rows[k]? = some r)
    (hq : q.accepts hasMul w = true) : ¬ r.accepts hasMul w = true := by
  intro hr
  obtain ⟨bound, -⟩ := List.getElem?_eq_some_iff.1 hk
  have pair := rows_overlaps k bound j hjk q hj r hk (Row.overlaps_of_accepts hq hr)
  obtain ⟨fixed, -⟩ := Row.accepts_iff.1 hq
  obtain ⟨-, constraint⟩ := Row.accepts_iff.1 hr
  simp only [Prod.mk.injEq] at pair
  obtain ⟨rfl, rfl⟩ | ⟨rfl, rfl⟩ | ⟨rfl, rfl⟩ := pair <;>
    obtain rfl := Option.some.inj (hj : some _ = some q) <;> obtain rfl := Option.some.inj (hk : some _ = some r)
  · exact mov2_not_add1 fixed constraint
  · exact cpy_not_mov3 fixed constraint
  · exact swi_not_b1 fixed constraint

theorem accepts_unique (hj : rows[j]? = some q) (hk : rows[k]? = some r) (hq : q.accepts hasMul w = true)
    (hr : r.accepts hasMul w = true) : j = k := by
  obtain h | h | h := lt_trichotomy j k
  · exact absurd hr (not_accepts_later h hj hk hq)
  · exact h
  · exact absurd hq (not_accepts_later h hk hj hr)

/-- The first row that accepts is the row that accepts. -/
theorem find?_eq_some_iff : rows.find? (·.accepts hasMul w) = some r ↔ r ∈ rows ∧ r.accepts hasMul w = true := by
  have sound {q : Row} (hq : rows.find? (fun r => r.accepts hasMul w) = some q) :
      q ∈ rows ∧ q.accepts hasMul w = true :=
    ⟨List.mem_of_find?_eq_some hq, List.find?_some (p := fun r : Row => r.accepts hasMul w) hq⟩
  refine ⟨sound, fun ⟨hr, ha⟩ => ?_⟩
  have found : (rows.find? (·.accepts hasMul w)).isSome := List.find?_isSome.2 ⟨r, hr, ha⟩
  obtain ⟨q, hq⟩ := Option.isSome_iff_exists.1 found
  obtain ⟨hqr, hqa⟩ := sound hq
  obtain ⟨j, hj⟩ := List.mem_iff_getElem?.1 hqr
  obtain ⟨k, hk⟩ := List.mem_iff_getElem?.1 hr
  obtain rfl := accepts_unique hj hk hqa ha
  rw [hq, ← hj, hk]

theorem decode_eq_ok_iff : decode hasMul w = .ok i ↔ ∃ r ∈ rows, r.accepts hasMul w = true ∧ r.build w = some i := by
  have first : decode hasMul w = .ok i ↔ (rows.find? (·.accepts hasMul w)).bind (·.build w) = some i := by
    rw [decode]
    split
    next h => rw [h, Except.ok.injEq, Option.some.injEq]
    next h => rw [h]; simp
  simp only [first, Option.bind_eq_some_iff, find?_eq_some_iff, and_assoc]

/-- Decoding is the inverse of encoding. -/
theorem decode_eq_ok_iff_encode : decode hasMul w = .ok i ↔ i.wellFormed hasMul = true ∧ w = encode i := by
  rw [decode_eq_ok_iff]
  constructor
  · rintro ⟨r, hr, h⟩
    exact (reads_of_build hr h.2 hasMul w).1 h
  · intro h
    obtain ⟨r, hr, reads⟩ := exists_reads i
    exact ⟨r, List.mem_of_getElem? hr, (reads hasMul w).2 h⟩

end Exclusive

/-- Settles O1: the row of the instruction accepts its encoding and builds it back. -/
theorem decodeOfEncode : Obligations.DecodeOfEncode := fun _ _ wf => decode_eq_ok_iff_encode.2 ⟨wf, rfl⟩

/-- Settles O2: the row that accepts the opcode is the row of the instruction it builds. -/
theorem encodeOfDecode : Obligations.EncodeOfDecode := by
  intro hasMul w i h
  obtain ⟨wf, hw⟩ := decode_eq_ok_iff_encode.1 h
  exact ⟨wf, hw.symm⟩

/-- Settles O3: fixed bits that differ, or a constraint, keep any two rows apart. -/
theorem rowsExclusive : Obligations.RowsExclusive :=
  ⟨fun _ _ _ _ _ _ hj hk hq hr => accepts_unique hj hk hq hr, fun _ _ _ => decode_eq_ok_iff⟩

/-! ### The opcode table (R96) -/

theorem highRegs_append (p : BitVec 8) (b : Bool) (d : LowReg) (m : RegNo) :
    (p ++ (BitVec.ofBool b ++ d : RegNo).extractLsb 3 3 ++ m ++ (BitVec.ofBool b ++ d : RegNo).extractLsb 2 0 : Half) =
      p ++ BitVec.ofBool b ++ m ++ d := by
  have high : (BitVec.ofBool b ++ d : RegNo).extractLsb 3 3 = BitVec.ofBool b := BitVec.extractLsb'_append_eq_left
  have low : (BitVec.ofBool b ++ d : RegNo).extractLsb 2 0 = d := BitVec.extractLsb'_append_eq_right
  rw [high, low]

/-- Settles O4: each pattern is the encoding of its instruction, and each guard its well-formedness. -/
theorem opcodeTable : Obligations.OpcodeTable := by
  intro hasMul d n m h g imm3 imm5 imm7 imm8 imm11 b e f k c reads bit
  have read {w : Half} {i : Instr} (wf : i.wellFormed hasMul = true) (hw : w = encode i) : reads w i :=
    decode_eq_ok_iff_encode.2 ⟨wf, hw⟩
  have high {p : BitVec 8} {d : LowReg} {m : RegNo} :
      p ++ bit b ++ m ++ d = p ++ (bit b ++ d : RegNo).extractLsb 3 3 ++ m ++ (bit b ++ d : RegNo).extractLsb 2 0 :=
    (highRegs_append p b d m).symm
  have add1 : imm3.toNat ≠ 0 → reads (0b0001110#7 ++ imm3 ++ n ++ d) (.add1 d n imm3) :=
    fun h => read (bne_iff_ne.2 fun h0 => h (congrArg BitVec.toNat h0)) rfl
  have mov3 : b = true ∨ 8 ≤ g.toNat → reads (0b01000110#8 ++ bit b ++ g ++ d) (.mov3 (bit b ++ d) g) := by
    intro h
    refine read (mov3Proper_iff.2 (h.imp_left fun hb => ?_)) high
    rw [append_toNat, hb]
    exact Nat.le_add_right 8 _
  exact ⟨read rfl rfl, read rfl rfl, read rfl rfl, read rfl rfl, read rfl rfl, read rfl rfl, read rfl rfl,
    read rfl rfl, read rfl rfl, read rfl rfl, read rfl rfl, read rfl rfl, read rfl rfl, fun mul => read mul rfl,
    read rfl rfl, read rfl rfl, read rfl rfl, read rfl rfl, read rfl rfl, read rfl rfl, read rfl rfl, read rfl rfl,
    add1, read rfl rfl, read rfl rfl, read rfl rfl, read rfl rfl, read rfl rfl, read rfl high, read rfl high,
    read rfl rfl, mov3, read rfl rfl, read rfl rfl, read rfl rfl, read rfl rfl, read rfl rfl, read rfl rfl,
    read rfl rfl, read rfl rfl, read rfl rfl, read rfl rfl, read rfl rfl, read rfl rfl, read rfl rfl, read rfl rfl,
    read rfl rfl, read rfl rfl, read rfl rfl, read rfl rfl, read rfl rfl, read rfl rfl, read rfl rfl, read rfl rfl,
    read rfl rfl, read rfl rfl, read rfl rfl, read rfl rfl, read rfl rfl, read rfl rfl, read rfl rfl, read rfl rfl,
    read rfl rfl, read rfl rfl, read rfl rfl, read rfl rfl, read rfl rfl, read rfl rfl, read rfl rfl, read rfl rfl,
    read rfl rfl, read rfl rfl, read rfl rfl, read rfl rfl, read rfl rfl⟩

/-- Settles O6, by running the decoder on each word. -/
theorem sampleWords : Obligations.SampleWords := by
  unfold Obligations.SampleWords
  decide

/-! ### The opcodes that no row accepts (R98) -/

/-- Some row of `rs` accepts the opcode. -/
def Accepted (rs : List Row) (hasMul : Bool) (w : Half) : Prop := ∃ r ∈ rs, r.accepts hasMul w = true

section Accepted

variable {hasMul : Bool}

theorem accepted_nil : Accepted [] hasMul w ↔ False := by
  simp only [Accepted, List.not_mem_nil, false_and, exists_false]

theorem accepted_cons {r : Row} {rs : List Row} : Accepted (r :: rs) hasMul w ↔
    (w &&& r.mask = r.value ∧ r.constraint hasMul w = true) ∨ Accepted rs hasMul w := by
  simp only [Accepted, List.exists_mem_cons_iff, Row.accepts_iff]

theorem accepted_append {rs rs' : List Row} :
    Accepted (rs ++ rs') hasMul w ↔ Accepted rs hasMul w ∨ Accepted rs' hasMul w := by
  simp only [Accepted, List.mem_append, or_and_right, exists_or]

theorem noConstraint_eq : noConstraint hasMul w = true := rfl

theorem aluRows_accepted : Accepted aluRows hasMul w ↔
    0x4000 ≤ w.toNat ∧ w.toNat < 0x4400 ∧ (hasMul = false → w.toNat < 0x4340 ∨ 0x4380 ≤ w.toNat) := by
  simp (disch := decide) only [aluRows, accepted_cons, accepted_nil, noConstraint_eq, and_true, or_false,
    and_high_iff 0xFFC0#16 6 rfl, BitVec.toNat_ofNat]
  cases hasMul
  · simp only [Bool.false_eq_true, and_false, false_or, forall_const]
    omega
  · simp only [and_true, Bool.true_eq_false, false_imp_iff]
    omega

theorem shiftImmRows_accepted : Accepted shiftImmRows hasMul w ↔ w.toNat < 0x1800 := by
  simp (disch := decide) only [shiftImmRows, accepted_cons, accepted_nil, noConstraint_eq, and_true, or_false,
    and_high_iff 0xF800#16 11 rfl, BitVec.toNat_ofNat]
  omega

theorem addSubRows_accepted : Accepted addSubRows hasMul w ↔ 0x1800 ≤ w.toNat ∧ w.toNat < 0x2000 := by
  simp (disch := decide) only [addSubRows, accepted_cons, accepted_nil, noConstraint_eq, and_true, or_false,
    bne_iff_ne, ne_eq, and_high_iff 0xFE00#16 9 rfl, and_high_iff 0xFFC0#16 6 rfl, field_eq_iff, BitVec.toNat_ofNat]
  omega

theorem imm8Rows_accepted : Accepted imm8Rows hasMul w ↔ 0x2000 ≤ w.toNat ∧ w.toNat < 0x4000 := by
  simp (disch := decide) only [imm8Rows, accepted_cons, accepted_nil, noConstraint_eq, and_true, or_false,
    and_high_iff 0xF800#16 11 rfl, BitVec.toNat_ofNat]
  omega

theorem hiRegRows_accepted : Accepted hiRegRows hasMul w ↔
    0x4400 ≤ w.toNat ∧ w.toNat < 0x4800 ∧ (0x4700 ≤ w.toNat → w.toNat % 8 = 0) := by
  simp (disch := decide) only [hiRegRows, accepted_cons, accepted_nil, noConstraint_eq, and_true, or_false,
    bne_iff_ne, ne_eq, and_high_iff 0xFF00#16 8 rfl, and_high_iff 0xFFC0#16 6 rfl, and_FF87_iff, field_eq_iff,
    BitVec.toNat_ofNat]
  omega

theorem loadStoreRegRows_accepted : Accepted loadStoreRegRows hasMul w ↔ 0x4800 ≤ w.toNat ∧ w.toNat < 0x6000 := by
  simp (disch := decide) only [loadStoreRegRows, accepted_cons, accepted_nil, noConstraint_eq, and_true, or_false,
    and_high_iff 0xF800#16 11 rfl, and_high_iff 0xFE00#16 9 rfl, BitVec.toNat_ofNat]
  omega

theorem loadStoreImmRows_accepted : Accepted loadStoreImmRows hasMul w ↔ 0x6000 ≤ w.toNat ∧ w.toNat < 0xA000 := by
  simp (disch := decide) only [loadStoreImmRows, accepted_cons, accepted_nil, noConstraint_eq, and_true, or_false,
    and_high_iff 0xF800#16 11 rfl, BitVec.toNat_ofNat]
  omega

theorem addressRows_accepted : Accepted addressRows hasMul w ↔ 0xA000 ≤ w.toNat ∧ w.toNat < 0xB100 := by
  simp (disch := decide) only [addressRows, accepted_cons, accepted_nil, noConstraint_eq, and_true, or_false,
    and_high_iff 0xF800#16 11 rfl, and_high_iff 0xFF80#16 7 rfl, BitVec.toNat_ofNat]
  omega

theorem extendRows_accepted : Accepted extendRows hasMul w ↔ 0xB200 ≤ w.toNat ∧ w.toNat < 0xB300 := by
  simp (disch := decide) only [extendRows, accepted_cons, accepted_nil, noConstraint_eq, and_true, or_false,
    and_high_iff 0xFFC0#16 6 rfl, BitVec.toNat_ofNat]
  omega

theorem miscRows_accepted : Accepted miscRows hasMul w ↔
    (0xB400 ≤ w.toNat ∧ w.toNat < 0xB600) ∨ w.toNat = 0xB650 ∨ w.toNat = 0xB658 ∨
    (0xB660 ≤ w.toNat ∧ w.toNat < 0xB668) ∨ (0xB670 ≤ w.toNat ∧ w.toNat < 0xB678) ∨
    (0xBA00 ≤ w.toNat ∧ w.toNat < 0xBA80) ∨ (0xBAC0 ≤ w.toNat ∧ w.toNat < 0xBB00) ∨
    (0xBC00 ≤ w.toNat ∧ w.toNat < 0xBF00) := by
  simp (disch := decide) only [miscRows, accepted_cons, accepted_nil, noConstraint_eq, and_true, or_false,
    and_high_iff 0xFE00#16 9 rfl, and_FFF7_iff, and_FFE8_iff, and_high_iff 0xFFC0#16 6 rfl,
    and_high_iff 0xFF00#16 8 rfl, BitVec.toNat_ofNat]
  omega

theorem blockAndBranchRows_accepted : Accepted blockAndBranchRows hasMul w ↔
    0xC000 ≤ w.toNat ∧ (w.toNat < 0xDE00 ∨ 0xDF00 ≤ w.toNat) := by
  simp (disch := decide) only [blockAndBranchRows, accepted_cons, accepted_nil, noConstraint_eq, and_true, or_false,
    decide_eq_true_eq, and_high_iff 0xF800#16 11 rfl, and_high_iff 0xFF00#16 8 rfl, and_high_iff 0xF000#16 12 rfl,
    field_toNat, BitVec.toNat_ofNat]
  omega

/-- Only B(1) can fail to build, and its constraint says that it does not. -/
theorem build_isSome : ∀ r ∈ rows, ∀ hasMul w, r.accepts hasMul w = true → (r.build w).isSome := by
  simp [rows, aluRows, shiftImmRows, addSubRows, imm8Rows, hiRegRows, loadStoreRegRows, loadStoreImmRows, addressRows,
    extendRows, miscRows, blockAndBranchRows, Row.accepts_iff, ofCode_isSome_iff, -BitVec.extractLsb_toNat]

theorem not_decoded_iff : (∀ i, decode hasMul w ≠ .ok i) ↔ ¬ Accepted rows hasMul w := by
  rw [← not_exists, not_iff_not]
  constructor
  · rintro ⟨i, hi⟩
    obtain ⟨r, hr, ha, -⟩ := decode_eq_ok_iff.1 hi
    exact ⟨r, hr, ha⟩
  · rintro ⟨r, hr, ha⟩
    obtain ⟨i, hb⟩ := Option.isSome_iff_exists.1 (build_isSome r hr hasMul w ha)
    exact ⟨i, decode_eq_ok_iff.2 ⟨r, hr, ha, hb⟩⟩

end Accepted

/-- Settles O5: the ranges are what the groups of rows leave over. -/
theorem unmatchedOpcodes : Obligations.UnmatchedOpcodes := by
  intro hasMul w k
  rw [not_decoded_iff, rows]
  simp only [accepted_append, aluRows_accepted, shiftImmRows_accepted, addSubRows_accepted, imm8Rows_accepted,
    hiRegRows_accepted, loadStoreRegRows_accepted, loadStoreImmRows_accepted, addressRows_accepted,
    extendRows_accepted, miscRows_accepted, blockAndBranchRows_accepted]
  cases hasMul
  · simp only [forall_const, true_and]
    omega
  · simp only [Bool.true_eq_false, false_imp_iff, and_true, false_and, or_false]
    omega

end Sys2Proof

namespace Sys2Proof.Machine

/-! ### Immediates (R94) and effective addresses (R200 to R203) -/

section Immediates

variable {n : Nat} {imm : BitVec n}

theorem setWidth_shiftLeft_toNat (k : Nat) (h : n + k ≤ 32) : (imm.setWidth 32 <<< k).toNat = 2 ^ k * imm.toNat := by
  have wide : 2 ^ k * imm.toNat < 2 ^ 32 := calc
    2 ^ k * imm.toNat < 2 ^ k * 2 ^ n := Nat.mul_lt_mul_of_pos_left imm.isLt (Nat.two_pow_pos k)
    _ = 2 ^ (n + k) := by rw [← pow_add, Nat.add_comm]
    _ ≤ 2 ^ 32 := Nat.pow_le_pow_right Nat.two_pos h
  rw [BitVec.toNat_shiftLeft, BitVec.toNat_setWidth_of_le (by omega), Nat.shiftLeft_eq, Nat.mul_comm,
    Nat.mod_eq_of_lt wide]

theorem immX1_toNat (h : n ≤ 32) : (immX1 imm).toNat = imm.toNat := BitVec.toNat_setWidth_of_le h

theorem immX2_toNat (h : n ≤ 31) : (immX2 imm).toNat = 2 * imm.toNat := setWidth_shiftLeft_toNat 1 (by omega)

theorem immX4_toNat (h : n ≤ 30) : (immX4 imm).toNat = 4 * imm.toNat := setWidth_shiftLeft_toNat 2 (by omega)

theorem displacement_toInt (h : n ≤ 31) : (displacement imm).toInt = 2 * imm.toInt := by
  have low := BitVec.le_two_mul_toInt (x := imm)
  have high := BitVec.two_mul_toInt_lt (x := imm)
  have wide : (2 : Int) ^ n ≤ 2 ^ 31 := pow_le_pow_right₀ (by decide) h
  have two : (BitVec.twoPow 32 1).toInt = 2 := rfl
  rw [displacement, BitVec.shiftLeft_eq_mul_twoPow, BitVec.toInt_mul, BitVec.toInt_signExtend_of_le (by omega), two,
    Int.bmod_eq_of_le (by omega) (by omega), Int.mul_comm]

end Immediates

/-- A concatenation is sign-extended in its high part. -/
theorem signExtend_append {u v : Nat} (x : BitVec u) (y : BitVec v) (hu : 0 < u) :
    (x ++ y).signExtend 32 = x.signExtend 32 <<< v ||| y.setWidth 32 := by
  ext i hi
  simp only [BitVec.getElem_signExtend, BitVec.getElem_or, BitVec.getElem_shiftLeft, BitVec.getElem_setWidth,
    BitVec.getElem_append, BitVec.msb_append]
  by_cases low : i < v
  · simp [low, show i < u + v by omega]
  · have above : y.getLsbD i = false := BitVec.getLsbD_of_ge y i (by omega)
    by_cases mid : i < u + v
    · simp [low, mid, show i - v < u by omega, above]
    · simp [low, mid, show ¬ i - v < u by omega, hu.ne', above]

/-- The offset of branch-with-link is the displacement of the two halves' fields, joined. -/
theorem blOffset_eq (w : Half) (imm11 : BitVec 11) :
    blOffset w imm11 = displacement (w.extractLsb 10 0 ++ imm11) := by
  rw [blOffset, displacement, signExtend_append _ _ (by decide)]

theorem blOffset_toInt (w : Half) (imm11 : BitVec 11) :
    (blOffset w imm11).toInt = 4096 * (BitVec.ofNat 11 w.toNat).toInt + 2 * imm11.toNat := by
  have low : w.extractLsb 10 0 = BitVec.ofNat 11 w.toNat := rfl
  rw [blOffset_eq, displacement_toInt (by decide), low, BitVec.toInt_append, if_neg (by decide)]
  ring

theorem alignedPc_toNat (s : State) : s.alignedPc.toNat = (s.readReg 15#4).toNat / 4 * 4 := and_high_toNat (n := 2) s.pc

/-- Settles O25: shifts by constants as products that fit, and sums modulo 2^32. -/
theorem immediatesAndAddresses : Obligations.ImmediatesAndAddresses := by
  intro s rn rm imm3 imm5 imm7 imm8 imm11 w offset
  refine ⟨immX1_toNat (by decide), immX1_toNat (by decide), immX1_toNat (by decide), immX2_toNat (by decide),
    immX4_toNat (by decide), immX4_toNat (by decide), immX4_toNat (by decide), displacement_toInt (by decide),
    displacement_toInt (by decide), blOffset_toInt w imm11, BitVec.toNat_add _ _, BitVec.toNat_add _ _, ?_, ?_⟩
  · rw [State.eaPc, BitVec.toNat_add, alignedPc_toNat, immX4_toNat (by decide)]
  · rw [State.eaSp, BitVec.toNat_add, immX4_toNat (by decide), spReg]

end Sys2Proof.Machine
end

