-- ==== Sys2Proof/Proofs/StepAndAlu.lean ====
section
/-! The step and the flags (40_step_and_alu.md): what a step of a running state is, when an instruction answers no next
state, the flags of sums and differences in exact arithmetic, and what the conditions say after a comparison. -/

namespace Sys2Proof.Machine

/-! ### The step as a dispatch (R110 to R112) -/

section Step

variable {s : State}

/-- The opcode of a step is what the map of 20_memory.md R67 shows at `x[15] - 2`. -/
theorem fetchAdvance_fst (s : State) : (fetchAdvance s).1 = s.mapFetch (s.readReg pcReg - 2#32) := by
  simp [fetchAdvance, fetch16_eq]

/-- The step's own actions leave the parameters, `HAS_MUL` among them. -/
theorem fetchAdvance_params (s : State) : (fetchAdvance s).2.params = s.params := by simp [fetchAdvance_snd]

theorem fetchAdvance_latch (s : State) : (fetchAdvance s).2.latch = s.latch := by simp [fetchAdvance_snd]

/-- Below the ceiling a step of a running state dispatches what it fetched. -/
theorem step_of_running (hs : s.terminated = none) (hc : s.instructions < insnCeiling) :
    step s = dispatch (fetchAdvance s).1 (fetchAdvance s).2 := by
  simp only [step, loopPass, hs, if_neg (Nat.not_le.2 hc), cycle_eq]

/-- At the ceiling a step of a running state ends the run. -/
theorem step_at_ceiling (hs : s.terminated = none) (hc : insnCeiling ≤ s.instructions) :
    step s = .next (s.terminate .ceiling) := by
  simp only [step, loopPass, hs, if_pos hc]

theorem dispatch_of_decoded {w : Half} {i : Instr} (h : decode s.params.hasMul w = .ok i) :
    dispatch w s = exec i s := by
  simp only [dispatch, h]

theorem dispatch_of_unmatched {w : Half} (h : ∀ i, decode s.params.hasMul w ≠ .ok i) :
    dispatch w s = .next (s.terminate (.undefined w)) := by
  unfold dispatch
  split
  next i hd => exact absurd hd (h i)
  next => rfl

/-- Settles O7: the step is a dispatch, and the dispatch of a decoded opcode is its instruction. -/
theorem stepRunsDecoded : Obligations.StepRunsDecoded := by
  intro s i hs hc hd
  rw [step_of_running hs hc, fetchAdvance_fst, dispatch_of_decoded (by rwa [fetchAdvance_params]), fetchAdvance_snd]
  rfl

/-- Every instruction answers a next state, but for a BL suffix with the latch empty (48_branch.md R243). -/
theorem exec_total (i : Instr) (s : State) : (∃ t, exec i s = .next t) ∨
    (exec i s = .refused .blSuffixLatchEmpty ∧ s.latch = none ∧ ∃ imm11, i = .blSuffix imm11) := by
  cases i with
  | pop _ _ => simp only [exec, execPop]; split_ifs <;> exact .inl ⟨_, rfl⟩
  | bx _ => simp only [exec, execBx]; split_ifs <;> exact .inl ⟨_, rfl⟩
  | blx2 _ => simp only [exec, execBlx2]; split_ifs <;> exact .inl ⟨_, rfl⟩
  | blSuffix imm11 =>
    cases hl : s.latch with
    | none => exact .inr ⟨by simp only [exec, execBlSuffix, hl], rfl, imm11, rfl⟩
    | some _ => exact .inl ⟨_, by simp only [exec, execBlSuffix, hl]; rfl⟩
  | _ => exact .inl ⟨_, rfl⟩

/-- Settles O10: the ceiling and an unmatched opcode answer a next state, and so does every decoded instruction but a BL
suffix with the latch empty, which the step's own actions leave as it was. -/
theorem stepTotal : Obligations.StepTotal := by
  intro s hs
  by_cases hc : s.instructions < insnCeiling
  swap
  · exact .inl ⟨_, step_at_ceiling hs (Nat.not_lt.1 hc)⟩
  rw [step_of_running hs hc]
  by_cases hd : ∃ i, decode (fetchAdvance s).2.params.hasMul (fetchAdvance s).1 = .ok i
  swap
  · exact .inl ⟨_, dispatch_of_unmatched (not_exists.1 hd)⟩
  obtain ⟨i, hd⟩ := hd
  rw [dispatch_of_decoded hd]
  obtain answered | ⟨refused, hl, imm11, rfl⟩ := exec_total i (fetchAdvance s).2
  · exact .inl answered
  · rw [fetchAdvance_params, fetchAdvance_fst] at hd
    exact .inr ⟨refused, by rwa [fetchAdvance_latch] at hl, hc, imm11, hd⟩

end Step

/-! ### Carry and overflow in exact arithmetic (R114, R115) -/

section Flags

variable (s : State) (n : RegNo) (p : Cpsr) (a b : Word) (c : Bool)

/-- `t` of R114 holds the carry into bit 31 in its top bit, and `u` counts that carry and the two top bits, so that bit 1
of `u` is set exactly if two of the three are. -/
theorem carryOut_eq : carryOut a b c = decide (2 ^ 32 ≤ a.toNat + b.toNat + c.toNat) := by
  have ha := a.isLt
  have hb := b.isLt
  have hc := c.toNat_le
  have t : ((a.extractLsb 30 0).setWidth 32 + (b.extractLsb 30 0).setWidth 32 +
      (BitVec.ofBool c).setWidth 32 : Word).toNat = a.toNat % 2 ^ 31 + b.toNat % 2 ^ 31 + c.toNat := by
    simp only [BitVec.toNat_add, BitVec.toNat_setWidth, BitVec.extractLsb_toNat, BitVec.toNat_ofBool,
      Nat.shiftRight_zero]
    omega
  rw [Bool.eq_iff_iff, decide_eq_true_iff, carryOut, bit_eq_iff]
  simp only [BitVec.toNat_add, BitVec.toNat_setWidth, BitVec.extractLsb_toNat, t, Nat.shiftRight_eq_div_pow,
    Bool.toNat_true]
  obtain topA | topA : a.toNat / 2 ^ 31 = 0 ∨ a.toNat / 2 ^ 31 = 1 := by omega
  all_goals obtain topB | topB : b.toNat / 2 ^ 31 = 0 ∨ b.toNat / 2 ^ 31 = 1 := by omega
  all_goals
    simp only [topA, topB]
    omega

/-- Settles O21, by the carry into bit 31 and the count of the three top bits. -/
theorem carryOutMeaning : Obligations.CarryOutMeaning := carryOut_eq

/-- A subtraction adds the complement, so that its carry out says that there is no borrow (R117). -/
theorem carryOut_not_eq : carryOut a (~~~b) c = decide (b.toNat + (1 - c.toNat) ≤ a.toNat) := by
  have hb := b.isLt
  have hc := c.toNat_le
  rw [carryOut_eq, BitVec.toNat_not, decide_eq_decide]
  omega

theorem toNat_add_carry : (a + b + carryWord c).toNat = (a.toNat + b.toNat + c.toNat) % 2 ^ 32 := by
  rw [← sumOf_eq, sumOf, BitVec.toNat_ofNat]

theorem toNat_sub_borrow : (a - b - (1#32 - carryWord c)).toNat =
    (2 ^ 32 + a.toNat - b.toNat - (1 - c.toNat)) % 2 ^ 32 := by
  have hb := b.isLt
  have borrow : (1#32 - carryWord c).toNat = 1 - c.toNat := by cases c <;> rfl
  rw [BitVec.toNat_sub (a - b), BitVec.toNat_sub a, borrow]
  omega

/-- Operands of one sign overflow exactly if the wrapped sum has the other sign. -/
theorem addOverflow_iff : addOverflow a b (a + b + carryWord c) = true ↔
    a.toInt + b.toInt + c.toNat < -(2 ^ 31) ∨ 2 ^ 31 ≤ a.toInt + b.toInt + c.toNat := by
  have ha := a.isLt
  have hb := b.isLt
  have hc := c.toNat_le
  simp only [addOverflow, getLsbD_31_eq, toNat_add_carry, BitVec.toInt_eq_toNat_cond, Bool.and_eq_true, beq_iff_eq,
    bne_iff_ne, ne_eq, decide_eq_decide]
  split_ifs <;> omega

/-- Operands of two signs overflow exactly if the wrapped difference has the subtrahend's sign. -/
theorem subOverflow_iff : subOverflow a b (a - b - (1#32 - carryWord c)) = true ↔
    a.toInt - b.toInt - (1 - c.toNat : Int) < -(2 ^ 31) ∨ 2 ^ 31 ≤ a.toInt - b.toInt - (1 - c.toNat : Int) := by
  have ha := a.isLt
  have hb := b.isLt
  have hc := c.toNat_le
  simp only [subOverflow, getLsbD_31_eq, toNat_sub_borrow, BitVec.toInt_eq_toNat_cond, Bool.and_eq_true, beq_iff_eq,
    bne_iff_ne, ne_eq, decide_eq_decide]
  split_ifs <;> omega

/-- Settles O22, by the signs of the operands and of the wrapped result. -/
theorem overflowMeaning : Obligations.OverflowMeaning := fun a b c => ⟨addOverflow_iff a b c, subOverflow_iff a b c⟩

/-! ### Additions and subtractions (R116, R117) -/

theorem getLsbD_31_eq_msb (r : Word) : r.getLsbD 31 = r.msb := by rw [getLsbD_31_eq, BitVec.msb_eq_decide]

/-- `AddWithFlags` is the exact sum, narrowed, and its flags. -/
theorem addWithFlags_eq : addWithFlags p a b c = (sumOf a b c, sumFlags p a b c) := by
  simp only [addWithFlags, sumFlags, sumOf_eq, nzOf_eq, carryOut_eq, addOverflow, getLsbD_31_eq_msb]
  rfl

/-- `SubWithFlags` is the exact difference, narrowed, and its flags. -/
theorem subWithFlags_eq : subWithFlags p a b c = (differenceOf a b c, differenceFlags p a b c) := by
  simp only [subWithFlags, differenceFlags, differenceOf_eq, nzOf_eq, carryOut_not_eq, subOverflow, getLsbD_31_eq_msb]
  rfl

theorem writeAdd_eq_addInto : s.writeAdd n a b c = s.addInto n a b c := by
  rw [writeAdd_eq, addWithFlags_eq, State.addInto]

theorem writeSub_eq_subInto : s.writeSub n a b c = s.subInto n a b c := by
  rw [writeSub_eq, subWithFlags_eq, State.subInto]

theorem compareAdd_eq : s.compareAdd a b = { s with cpsr := sumFlags s.cpsr a b false } := by
  rw [State.compareAdd, addWithFlags_eq]

theorem compareSub_eq : s.compareSub a b = { s with cpsr := differenceFlags s.cpsr a b true } := by
  rw [State.compareSub, subWithFlags_eq]

theorem immX1_eq_ofNat {k : Nat} (imm : BitVec k) : immX1 imm = BitVec.ofNat 32 imm.toNat :=
  (BitVec.ofNat_toNat 32 imm).symm

/-- Settles O32: each form is the common body of R116 at its operands and carry-in. -/
theorem additions : Obligations.Additions := by
  intro s rd rn rm imm3 imm8
  simp only [exec, execAdc, execAdd1, execAdd2, execAdd3, execCmn, immX1_eq_ofNat, writeAdd_eq_addInto, compareAdd_eq,
    and_self]

/-- Settles O33: each form is the common body of R117 at its operands and carry-in. -/
theorem subtractions : Obligations.Subtractions := by
  intro s rd rn rm hn hm imm3 imm8
  simp only [exec, execSub1, execSub2, execSub3, execSbc, execNeg, execCmp1, execCmp2, execCmp3, immX1_eq_ofNat,
    writeSub_eq_subInto, compareSub_eq, and_self]

/-! ### The conditions (R118) -/

/-- Settles O23: the sixteen settings of the flags, for each condition. -/
theorem conditionTable : Obligations.ConditionTable := by
  rintro ⟨n, z, c, v, -, -, -, -⟩ cond
  cases cond
  all_goals
    dsimp only [condPassed, condTruth]
    revert n z c v
    decide

theorem toNat_differenceOf : (differenceOf a b true).toNat = (2 ^ 32 + a.toNat - b.toNat) % 2 ^ 32 := by
  rw [differenceOf_eq, toNat_sub_borrow]; rfl

theorem differenceFlags_z : (differenceFlags p a b true).z = decide (a = b) := by
  have ha := a.isLt
  have hb := b.isLt
  simp only [differenceFlags, nzOf, toNat_differenceOf, ← BitVec.toNat_inj, decide_eq_decide]
  omega

theorem differenceFlags_c : (differenceFlags p a b true).c = decide (b.toNat ≤ a.toNat) := rfl

theorem differenceFlags_v : (differenceFlags p a b true).v = true ↔
    a.toInt - b.toInt < -(2 ^ 31) ∨ 2 ^ 31 ≤ a.toInt - b.toInt := by
  have v : (differenceFlags p a b true).v = subOverflow a b (a - b - (1#32 - carryWord true)) :=
    congrArg (·.2.v) (subWithFlags_eq p a b true).symm
  simpa [v] using subOverflow_iff a b true

/-- The sign of the wrapped difference is that of the exact one, unless the exact one overflows. -/
theorem differenceFlags_n_eq_v :
    ((differenceFlags p a b true).n == (differenceFlags p a b true).v) = decide (b.toInt ≤ a.toInt) := by
  have ha := a.isLt
  have hb := b.isLt
  have sign : (differenceFlags p a b true).n = true ↔ 2 ^ 31 ≤ (2 ^ 32 + a.toNat - b.toNat) % 2 ^ 32 := by
    simp only [differenceFlags, nzOf, toNat_differenceOf, decide_eq_true_iff]
  rw [Bool.eq_iff_iff, beq_iff_eq, Bool.eq_iff_iff, sign, differenceFlags_v, decide_eq_true_iff]
  simp only [BitVec.toInt_eq_toNat_cond]
  split_ifs <;> omega

end Flags

/-- CMP(1), CMP(2) and CMP(3) leave the flags of the difference of their operands (41_arithmetic.md R145 to R147). -/
theorem exec_compare_cpsr {s t : State} {i : Instr} {a b : Word}
    (hi : (∃ n imm8, i = .cmp1 n imm8 ∧ a = s.readReg (low n) ∧ b.toNat = imm8.toNat) ∨
      (∃ n m, i = .cmp2 n m ∧ a = s.readReg (low n) ∧ b = s.readReg (low m)) ∨
      (∃ n m, i = .cmp3 n m ∧ a = s.readReg n ∧ b = s.readReg m))
    (h : exec i s = .next t) : t.cpsr = differenceFlags s.cpsr a b true := by
  have compared : exec i s = .next (s.compareSub a b) := by
    obtain ⟨n, imm8, rfl, rfl, hb⟩ | ⟨n, m, rfl, rfl, rfl⟩ | ⟨n, m, rfl, rfl, rfl⟩ := hi
    · have immediate : b = immX1 imm8 := BitVec.eq_of_toNat_eq (by rw [immX1_toNat (by decide), hb])
      rw [immediate]; rfl
    · rfl
    · rfl
  cases compared.symm.trans h
  rw [compareSub_eq]

/-- Settles O24: Z says that the operands are equal, C that there is no borrow, and N = V that the signed difference is
not negative. -/
theorem compareThenCondition : Obligations.CompareThenCondition := by
  intro s t i a b hi h
  rw [exec_compare_cpsr hi h]
  clear hi h
  simp only [condPassed, bne, differenceFlags_z, differenceFlags_c, differenceFlags_n_eq_v, Bool.and_eq_true,
    Bool.or_eq_true, Bool.not_eq_true', decide_eq_true_iff, decide_eq_false_iff_not, Nat.not_le, Int.not_le, true_and]
  refine ⟨?hi, ?ls, ?gt, ?le⟩
  case hi | ls => rw [← BitVec.toNat_inj]; omega
  case gt | le => rw [← BitVec.toInt_inj]; omega

end Sys2Proof.Machine
end

