-- ==== Sys2Proof/Proofs/Arithmetic.lean ====
section
/-! The arithmetic instructions (41_arithmetic.md): the address-forming sums at both values of
`ADDR_ARITH_SETS_FLAGS`, and the multiplication. -/

namespace Sys2Proof.Machine

/-! ### Address arithmetic (R134 to R137, R141) -/

section Address

variable {s : State} {n : RegNo} {a b : Word}

theorem writeAddressAdd_of_not_setsFlags (h : s.params.addrArithSetsFlags = false) :
    s.writeAddressAdd n a b = s.writeReg n (sumOf a b false) := by
  have plain : sumOf a b false = a + b := (sumOf_eq a b false).trans (BitVec.add_zero (a + b))
  simp [State.writeAddressAdd, h, plain]

theorem writeAddressAdd_of_setsFlags (h : s.params.addrArithSetsFlags = true) :
    s.writeAddressAdd n a b = s.addInto n a b false := by
  simp [State.writeAddressAdd, h, writeAdd_eq_addInto]

theorem writeAddressSub_of_not_setsFlags (h : s.params.addrArithSetsFlags = false) :
    s.writeAddressSub n a b = s.writeReg n (differenceOf a b true) := by
  have plain : differenceOf a b true = a - b := (differenceOf_eq a b true).trans (BitVec.sub_zero (a - b))
  simp [State.writeAddressSub, h, plain]

theorem writeAddressSub_of_setsFlags (h : s.params.addrArithSetsFlags = true) :
    s.writeAddressSub n a b = s.subInto n a b true := by
  simp [State.writeAddressSub, h, writeSub_eq_subInto]

end Address

theorem immX4_eq_ofNat {k : Nat} (hk : k ≤ 30) (imm : BitVec k) : immX4 imm = BitVec.ofNat 32 (4 * imm.toNat) := by
  rw [← immX4_toNat hk, BitVec.ofNat_toNat, BitVec.setWidth_eq]

theorem alignedPc_eq_ofNat (s : State) : s.alignedPc = BitVec.ofNat 32 ((s.readReg 15#4).toNat / 4 * 4) := by
  rw [← alignedPc_toNat, BitVec.ofNat_toNat, BitVec.setWidth_eq]

/-- Settles O34: each form is the common body of the address arithmetic at its operands, which sets the flags or not as
the parameter says. -/
theorem addressArithmetic : Obligations.AddressArithmetic := by
  intro s hd hm rd imm7 imm8
  simp (disch := decide) only [exec, execAdd4, execAdd5, execAdd6, execAdd7, execSub4, spReg, alignedPc_eq_ofNat,
    immX4_eq_ofNat]
  constructor
  · intro plain
    simp only [writeAddressAdd_of_not_setsFlags plain, writeAddressSub_of_not_setsFlags plain, and_self]
  · intro flags
    simp only [writeAddressAdd_of_setsFlags flags, writeAddressSub_of_setsFlags flags, and_self]

/-! ### Multiplication (R148) -/

theorem writeNZ_eq_nzInto (s : State) (n : RegNo) (v : Word) : s.writeNZ n v = s.nzInto n v := by
  rw [writeNZ_eq, State.nzInto, nzOf_eq]

/-- Without `HAS_MUL` the opcodes of MUL are one of the ranges that no row accepts (30_encoding.md R98). -/
theorem mul_not_decoded (rd rm : LowReg) : ∀ i, decode false (0b0100001101#10 ++ rm ++ rd) ≠ .ok i := by
  have hd := rd.isLt
  have hm := rm.isLt
  have range : 0x4340 ≤ (0b0100001101#10 ++ rm ++ rd).toNat ∧ (0b0100001101#10 ++ rm ++ rd).toNat ≤ 0x437F := by
    simp only [append_toNat, BitVec.toNat_ofNat]
    omega
  refine (unmatchedOpcodes false (0b0100001101#10 ++ rm ++ rd)).2 ?_
  simp only [true_and]
  omega

/-- Settles O35: the product of words is that of their values, unsigned or signed, modulo 2^32; the encoding of MUL is
decoded with `HAS_MUL` and unmatched without it. -/
theorem multiplyResult : Obligations.MultiplyResult := by
  intro s rd rm a b
  have unsigned : a * b = BitVec.ofNat 32 (a.toNat * b.toNat) := by
    rw [BitVec.ofNat_mul, BitVec.ofNat_toNat, BitVec.ofNat_toNat, BitVec.setWidth_eq, BitVec.setWidth_eq]
  have signed : a * b = BitVec.ofInt 32 (a.toInt * b.toInt) := by
    rw [BitVec.ofInt_mul, BitVec.ofInt_toInt, BitVec.ofInt_toInt]
  refine ⟨?_, unsigned.symm.trans signed, decodeOfEncode true (.mul rd rm) rfl, mul_not_decoded rd rm⟩
  rw [← unsigned, ← writeNZ_eq_nzInto]
  rfl

end Sys2Proof.Machine
end

