-- ==== Sys2Proof/Proofs/Logical.lean ====
section
/-! The logical instructions (42_logical.md R160 to R165): the result bit by bit, with N and Z by its value. -/

namespace Sys2Proof.Machine

/-- An instruction that ends in the model's write of a result with N and Z answers that write as the statements put it. -/
theorem exec_eq_next_nzInto {i : Instr} {s : State} {n : RegNo} {r : Word} (h : exec i s = .next (s.writeNZ n r)) :
    exec i s = .next (s.nzInto n r) := by
  rw [h, writeNZ_eq_nzInto]

/-- TST writes no register: N and Z of the conjunction are all it leaves (42_logical.md R165). -/
theorem exec_tst_eq_next_nzOf (rn rm : LowReg) (s : State) :
    exec (.tst rn rm) s = .next { s with cpsr := nzOf s.cpsr (s.readReg (low rn) &&& s.readReg (low rm)) } := by
  rw [nzOf_eq]; rfl

/-- Below the width, the complement of a word has the negated bit. -/
theorem getLsbD_not_of_lt (v : Word) {k : Nat} (hk : k < 32) : (~~~v).getLsbD k = !v.getLsbD k := by
  rw [BitVec.getLsbD_not, decide_eq_true hk, Bool.true_and]

/-- Settles O36: each result is the operation on words of its rule, which acts on each bit by itself. -/
theorem logicalResults : Obligations.LogicalResults := by
  intro s rd rn rm x
  let d := s.readReg (low rd)
  let m := s.readReg (low rm)
  refine ⟨⟨d &&& m, exec_eq_next_nzInto rfl, ?and⟩, ⟨d ||| m, exec_eq_next_nzInto rfl, ?orr⟩,
    ⟨d ^^^ m, exec_eq_next_nzInto rfl, ?eor⟩, ⟨d &&& ~~~m, exec_eq_next_nzInto rfl, ?bic⟩,
    ⟨~~~m, exec_eq_next_nzInto rfl, ?mvn⟩, ⟨s.readReg (low rn) &&& m, exec_tst_eq_next_nzOf rn rm s, ?tst⟩⟩
  case and | tst => exact fun k _ => BitVec.getLsbD_and
  case orr => exact fun k _ => BitVec.getLsbD_or
  case eor => exact fun k _ => BitVec.getLsbD_xor
  case bic => exact fun k hk => by rw [BitVec.getLsbD_and, getLsbD_not_of_lt m hk]
  case mvn => exact fun k hk => getLsbD_not_of_lt m hk

end Sys2Proof.Machine
end

