-- ==== Sys2Proof/Proofs/ShiftRotate.lean ====
section
/-! The shift and rotate instructions (43_shift_rotate.md R170 to R176): the shifter's result and carry, for every amount
at once, as the exact product, the quotient rounded down and the rotation. -/

namespace Sys2Proof.Machine

variable (v : Word) (a : Nat) (c : Bool) (imm5 : BitVec 5)

/-! ### Amounts and the write of the result -/

theorem shiftAmount_eq_mod : shiftAmount v = v.toNat % 256 := by
  rw [shiftAmount, BitVec.extractLsb_toNat, Nat.shiftRight_zero]

theorem imm5_eq_zero_iff : imm5 = 0#5 ↔ imm5.toNat = 0 := BitVec.toNat_inj.symm

theorem writeShifted_eq_shiftInto (s : State) (n : RegNo) (out : Word × Bool) :
    s.writeShifted n out = s.shiftInto n out.1 out.2 := by
  rw [writeShifted_eq, State.shiftInto, nzOf_eq]; rfl

/-! ### Left (R170, R171) -/

theorem ofNat_mul_two_pow : BitVec.ofNat 32 (v.toNat * 2 ^ a) = v <<< a := by
  apply BitVec.eq_of_toNat_eq
  rw [BitVec.toNat_ofNat, BitVec.toNat_shiftLeft, Nat.shiftLeft_eq]

/-- The bit of weight 2^32 of the product is the one that the shift moved there, if it came from the word. -/
theorem carry_mul_two_pow :
    decide (v.toNat * 2 ^ a / 2 ^ 32 % 2 = 1) = (decide (a ≤ 32) && v.getLsbD (32 - a)) := by
  rw [← Nat.testBit_eq_decide_div_mod_eq, Nat.testBit_mul_two_pow, BitVec.getLsbD]

/-- A register shift to the left is an exact product. -/
theorem lslReg_eq : lslReg v a c = (BitVec.ofNat 32 (v.toNat * 2 ^ a),
    if a = 0 then c else decide (v.toNat * 2 ^ a / 2 ^ 32 % 2 = 1)) := by
  rw [ofNat_mul_two_pow, carry_mul_two_pow, lslReg]
  split_ifs with zero below all
  · simp [zero]
  · simp [below.le]
  · simp [all]
  · simp [show 32 ≤ a by omega, show ¬ a ≤ 32 by omega]

/-- The amount of LSL(1) is below 32, where the two forms are one. -/
theorem lslImm_eq_lslReg : lslImm v imm5 c = lslReg v imm5.toNat c := by
  simp only [lslImm, lslReg, imm5_eq_zero_iff, imm5.isLt, if_true]

/-- Settles O37: both forms shift by the rule of the register form, which is the exact product for every amount. -/
theorem shiftsLeft : Obligations.ShiftsLeft := by
  intro s rd rm imm5
  simp only [exec, execLsl1, execLsl2, writeShifted_eq_shiftInto, lslImm_eq_lslReg, lslReg_eq, shiftAmount_eq_mod,
    and_self]

/-! ### Right (R172 to R175) -/

theorem ofNat_div_two_pow : BitVec.ofNat 32 (v.toNat / 2 ^ a) = v >>> a := by
  rw [← Nat.shiftRight_eq_div_pow, ← BitVec.toNat_ushiftRight, BitVec.ofNat_toNat, BitVec.setWidth_eq]

/-- A logical register shift to the right is an exact quotient, rounded down. -/
theorem lsrReg_eq : lsrReg v a c = (BitVec.ofNat 32 (v.toNat / 2 ^ a),
    if a = 0 then c else decide (v.toNat / 2 ^ (a - 1) % 2 = 1)) := by
  rw [ofNat_div_two_pow, ← Nat.testBit_eq_decide_div_mod_eq, ← BitVec.getLsbD, lsrReg]
  split_ifs with zero below all
  · simp [zero]
  · rfl
  · rw [all, BitVec.ushiftRight_eq_zero le_rfl]
  · rw [BitVec.ushiftRight_eq_zero (by omega), BitVec.getLsbD_of_ge v _ (by omega)]

/-- LSR(1) is the register form at an amount that is never 0. -/
theorem lsrImm_eq_lsrReg : lsrImm v imm5 = lsrReg v (if imm5.toNat = 0 then 32 else imm5.toNat) c := by
  simp only [lsrImm, imm5_eq_zero_iff]
  split_ifs with zero
  · rfl
  · simp only [lsrReg, zero, imm5.isLt, if_true, if_false]

theorem toInt_div_two_pow : v.toInt / 2 ^ a = (v.sshiftRight a).toInt := by
  rw [BitVec.toInt_sshiftRight, Int.shiftRight_eq_div_pow, Nat.cast_pow, Nat.cast_ofNat]

theorem toInt_odd_eq_getLsbD : decide (v.toInt % 2 = 1) = v.getLsbD 0 := by
  rw [BitVec.getLsbD, Nat.testBit_zero, BitVec.toInt_eq_toNat_cond, decide_eq_decide]
  split_ifs <;> omega

/-- Above the word the bits of the signed value are its sign. -/
theorem toInt_bit_eq : decide (v.toInt / 2 ^ a % 2 = 1) = if a < 32 then v.getLsbD a else v.msb := by
  rw [toInt_div_two_pow, toInt_odd_eq_getLsbD, BitVec.getLsbD_sshiftRight]
  simp

theorem signFill_eq_sshiftRight (h : 32 ≤ a) : signFill v = v.sshiftRight a := by
  rw [signFill, getLsbD_31_eq_msb]
  split_ifs with negative
  · rw [BitVec.sshiftRight_eq_of_msb_true negative, BitVec.ushiftRight_eq_zero h]; rfl
  · rw [BitVec.sshiftRight_eq_of_msb_false (Bool.eq_false_of_not_eq_true negative), BitVec.ushiftRight_eq_zero h]

/-- An arithmetic register shift to the right is an exact quotient of the signed value, rounded down. -/
theorem asrReg_eq : asrReg v a c = (BitVec.ofInt 32 (v.toInt / 2 ^ a),
    if a = 0 then c else decide (v.toInt / 2 ^ (a - 1) % 2 = 1)) := by
  rw [toInt_bit_eq, toInt_div_two_pow, BitVec.ofInt_toInt, asrReg]
  split_ifs with zero below inside inside
  · rw [zero, BitVec.sshiftRight_zero]
  · rfl
  · omega
  · rw [signFill_eq_sshiftRight v a (by omega), show a - 1 = 31 by omega]
  · rw [signFill_eq_sshiftRight v a (by omega), getLsbD_31_eq_msb]

/-- ASR(1) is the register form at an amount that is never 0. -/
theorem asrImm_eq_asrReg : asrImm v imm5 = asrReg v (if imm5.toNat = 0 then 32 else imm5.toNat) c := by
  simp only [asrImm, imm5_eq_zero_iff]
  split_ifs with zero
  · rfl
  · simp only [asrReg, zero, imm5.isLt, if_true, if_false]

/-- Settles O38: the immediate forms are the register forms at an amount from 1 to 32, and those are exact quotients for
every amount. -/
theorem shiftsRight : Obligations.ShiftsRight := by
  intro s rd rm imm5
  simp only [exec, execLsr1, execLsr2, execAsr1, execAsr2, writeShifted_eq_shiftInto, lsrImm_eq_lsrReg _ s.cpsr.c,
    asrImm_eq_asrReg _ s.cpsr.c, lsrReg_eq, asrReg_eq, shiftAmount_eq_mod, and_self]

/-! ### Rotation (R176) -/

theorem getLsbD_rotateRight_eq_mod {k : Nat} (hk : k < 32) :
    (v.rotateRight a).getLsbD k = v.getLsbD ((k + a) % 32) := by
  rw [BitVec.getLsbD_rotateRight, Bool.cond_decide]
  split_ifs with inside
  · rw [show (k + a) % 32 = a % 32 + k by omega]
  · rw [decide_eq_true hk, Bool.true_and, show (k + a) % 32 = k - (32 - a % 32) by omega]

/-- ROR rotates the word, and its carry is bit 31 of the result. -/
theorem rorReg_eq : rorReg v a c = (v.rotateRight a, if a = 0 then c else (v.rotateRight a).msb) := by
  rw [← getLsbD_31_eq_msb, getLsbD_rotateRight_eq_mod v a (by decide), rorReg, BitVec.rotateRight_def]
  dsimp only
  split_ifs with zero whole
  · simp [zero]
  · simp [whole, show (31 + a) % 32 = 31 by omega]
  · rw [show (31 + a) % 32 = a % 32 - 1 by omega]

/-- Settles O39: the rotation of words has the bits of R176. -/
theorem rotateRight : Obligations.RotateRight := by
  intro s rd rs v a
  refine ⟨v.rotateRight a, ?_, fun k hk => getLsbD_rotateRight_eq_mod v a hk⟩
  simp only [exec, execRor, writeShifted_eq_shiftInto, rorReg_eq, shiftAmount_eq_mod, v, a]

end Sys2Proof.Machine
end

