-- ==== Sys2Proof/Proofs/Move.lean ====
section
/-! The move instructions (44_move.md R180 to R183): what each writes, and the value that MOV(3) writes to register 15
at both values of `MOV_PC_CLEARS_BIT0`. -/

namespace Sys2Proof.Machine

/-! ### The value of MOV(3) (R182) -/

section Mov3Value

variable {s : State} (v : Word)

theorem mov3Value_of_ne_pc {rd : RegNo} (h : rd.toNat ≠ 15) : s.mov3Value rd v = v :=
  if_neg fun e => h (congrArg BitVec.toNat e)

theorem add_two_eq_ofNat : v + 2#32 = BitVec.ofNat 32 ((v.toNat + 2) % 2 ^ 32) :=
  BitVec.eq_of_toNat_eq (by simp)

theorem evenAddr_eq_ofNat : evenAddr v = BitVec.ofNat 32 (v.toNat / 2 * 2) := by
  rw [← evenAddr_toNat, BitVec.ofNat_toNat, BitVec.setWidth_eq]

theorem mov3Value_pc_of_keepsBit0 (h : s.params.movPcClearsBit0 = false) :
    s.mov3Value 15#4 v = BitVec.ofNat 32 ((v.toNat + 2) % 2 ^ 32) := by
  rw [← add_two_eq_ofNat]
  simp [State.mov3Value, pcReg, h]

theorem mov3Value_pc_of_clearsBit0 (h : s.params.movPcClearsBit0 = true) :
    s.mov3Value 15#4 v = BitVec.ofNat 32 ((v.toNat + 2) % 2 ^ 32 / 2 * 2) := by
  have even : s.mov3Value 15#4 v = evenAddr (v + 2#32) := by simp [State.mov3Value, pcReg, h, evenAddr]
  rw [even, evenAddr_eq_ofNat, BitVec.toNat_add]
  rfl

end Mov3Value

/-! ### The four instructions -/

/-- MOV(2) writes the register and all four flags, C and V directly (R181). -/
theorem exec_mov2_eq (rd rn : LowReg) (s : State) :
    exec (.mov2 rd rn) s = .next { s.writeReg (low rd) (s.readReg (low rn)) with
      cpsr := { nzOf s.cpsr (s.readReg (low rn)) with c := false, v := false } } := by
  rw [nzOf_eq]
  exact congrArg Host.Outcome.next (writeReg_with_cpsr _ _ _ _ rfl)

theorem exec_mov3_eq {rd rm : RegNo} {s : State} {v : Word} (h : s.mov3Value rd (s.readReg rm) = v) :
    exec (.mov3 rd rm) s = .next (s.writeReg rd v) := by
  rw [← h]; rfl

/-- Settles O40: MOV(3) turns on the value it writes, by its destination and the parameter; the others write theirs
directly. -/
theorem moveResults : Obligations.MoveResults := by
  intro s rd rm hd hm imm8
  refine ⟨?mov1, exec_mov2_eq rd rm s, fun other => exec_mov3_eq (mov3Value_of_ne_pc _ other),
    fun keeps => exec_mov3_eq (mov3Value_pc_of_keepsBit0 _ keeps),
    fun clears => exec_mov3_eq (mov3Value_pc_of_clearsBit0 _ clears), rfl⟩
  case mov1 =>
    rw [← immX1_eq_ofNat]
    exact exec_eq_next_nzInto rfl

end Sys2Proof.Machine
end

