-- ==== Sys2Proof/Proofs/ExtendReverse.lean ====
section
/-! The extend and byte-reverse instructions (45_extend_reverse.md R190 to R196): the extends by value, the reversals as
the bytes of the word put together in another order. -/

namespace Sys2Proof.Machine

variable (v : Word)

/-! ### Extends by value (R190 to R193) -/

theorem sext8_eq_ofInt : sext8 v = BitVec.ofInt 32 (BitVec.ofNat 8 v.toNat).toInt := rfl

theorem sext16_eq_ofInt : sext16 v = BitVec.ofInt 32 (BitVec.ofNat 16 v.toNat).toInt := rfl

theorem zext8_eq_ofNat : zext8 v = BitVec.ofNat 32 (v.toNat % 2 ^ 8) := by
  rw [← BitVec.toNat_ofNat, BitVec.ofNat_toNat]; rfl

theorem zext16_eq_ofNat : zext16 v = BitVec.ofNat 32 (v.toNat % 2 ^ 16) := by
  rw [← BitVec.toNat_ofNat, BitVec.ofNat_toNat]; rfl

/-! ### Reversals by bytes (R194 to R196) -/

theorem revWord_eq_append : revWord v = byteOf v 0 ++ byteOf v 1 ++ byteOf v 2 ++ byteOf v 3 := by
  simp only [byteOf_eq_extract]; rfl

theorem revHalves_eq_append : revHalves v = byteOf v 2 ++ byteOf v 3 ++ byteOf v 0 ++ byteOf v 1 := by
  simp only [byteOf_eq_extract]; rfl

theorem revSigned_eq_append : revSigned v = (byteOf v 0 ++ byteOf v 1).signExtend 32 := by
  simp only [byteOf_eq_extract]; rfl

/-- The bytes of a word put together from four, the leftmost the most significant. -/
theorem byteOf_append_bytes (b3 b2 b1 b0 : Byte) :
    byteOf (b3 ++ b2 ++ b1 ++ b0) 0 = b0 ∧ byteOf (b3 ++ b2 ++ b1 ++ b0) 1 = b1 ∧
    byteOf (b3 ++ b2 ++ b1 ++ b0) 2 = b2 ∧ byteOf (b3 ++ b2 ++ b1 ++ b0) 3 = b3 := by
  simp only [byteOf, append_toNat, ← BitVec.toNat_inj, BitVec.toNat_ofNat]
  omega

/-- The value of REVSH: byte 0 gives the sign and counts 256, byte 1 is the low byte. -/
theorem revSigned_eq_ofInt : revSigned v = BitVec.ofInt 32 (256 * (byteOf v 0).toInt + (byteOf v 1).toNat) := by
  rw [revSigned_eq_append, BitVec.signExtend, BitVec.toInt_append, if_neg (by decide)]
  rfl

/-- Settles O41: the extends and REVSH by the value they write, REV and REV16 by the four bytes they write. -/
theorem extendsAndReverses : Obligations.ExtendsAndReverses := by
  intro s rd rm v
  refine ⟨?sxtb, ?sxth, ?uxtb, ?uxth, ⟨revWord v, rfl, ?rev⟩, ⟨revHalves v, rfl, ?rev16⟩, ?revsh⟩
  case sxtb => rw [← sext8_eq_ofInt]; rfl
  case sxth => rw [← sext16_eq_ofInt]; rfl
  case uxtb => rw [← zext8_eq_ofNat]; rfl
  case uxth => rw [← zext16_eq_ofNat]; rfl
  case rev => rw [revWord_eq_append]; exact byteOf_append_bytes _ _ _ _
  case rev16 => rw [revHalves_eq_append]; exact byteOf_append_bytes _ _ _ _
  case revsh => rw [← revSigned_eq_ofInt]; rfl

end Sys2Proof.Machine
end

