-- ==== Sys2Proof/Proofs/LoadStore.lean ====
section
/-! The single loads and stores (46_load_store.md): the effective addresses as wrapped sums, the lanes of the byte
accesses, and each load and store in the terms of the address map of 20_memory.md R67. -/

namespace Sys2Proof.Machine

variable (s : State)

/-! ### Effective addresses (R200 to R203) -/

section Addresses

variable (rn rm : LowReg) (imm8 : BitVec 8)

theorem eaOffset_eq_ofNat {offset : Word} {k : Nat} (h : offset.toNat = k) :
    s.eaOffset rn offset = BitVec.ofNat 32 ((s.readReg (low rn)).toNat + k) := by
  rw [State.eaOffset, BitVec.add_def, h]

theorem eaReg_eq_ofNat :
    s.eaReg rn rm = BitVec.ofNat 32 ((s.readReg (low rn)).toNat + (s.readReg (low rm)).toNat) :=
  BitVec.add_def _ _

theorem eaPc_eq_ofNat : s.eaPc imm8 = BitVec.ofNat 32 ((s.readReg 15#4).toNat / 4 * 4 + 4 * imm8.toNat) := by
  rw [State.eaPc, BitVec.add_def, alignedPc_toNat, immX4_toNat (by decide)]

theorem eaSp_eq_ofNat : s.eaSp imm8 = BitVec.ofNat 32 ((s.readReg 13#4).toNat + 4 * imm8.toNat) := by
  rw [State.eaSp, BitVec.add_def, immX4_toNat (by decide), spReg]

end Addresses

/-! ### Word loads -/

theorem loadWord_eq (rd : LowReg) (a : Word) :
    s.loadWord rd a = { s.writeReg (low rd) (s.mapWord a) with reads := (memRead4 s a).2.reads } := by
  rw [State.loadWord, memRead4_eq]
  exact writeReg_with_reads s (low rd) (s.mapWord a) _

/-- A word load answers with the word of the map in `rd` and another read count, its address spelled in any equal way. -/
theorem loadWord_answer (rd : LowReg) {a ea : Word} (h : a = ea) :
    ∃ k, (.next (s.loadWord rd a) : Result) = .next { s.writeReg (low rd) (s.mapWord ea) with reads := k } :=
  ⟨_, by rw [loadWord_eq, h]⟩

/-- Settles O42: each form loads the word at its effective address, a wrapped sum. -/
theorem wordLoads : Obligations.WordLoads := fun s rd rn rm _ imm8 =>
  ⟨loadWord_answer s rd (eaOffset_eq_ofNat s rn (immX4_toNat (by decide))),
   loadWord_answer s rd (eaReg_eq_ofNat s rn rm),
   loadWord_answer s rd (eaPc_eq_ofNat s imm8),
   loadWord_answer s rd (eaSp_eq_ofNat s imm8)⟩

/-! ### Halfword loads -/

theorem zext16_setWidth (h : Half) : zext16 (h.setWidth 32) = BitVec.ofNat 32 h.toNat := by
  rw [zext16, extractLow_setWidth, BitVec.ofNat_toNat]

theorem sext16_setWidth (h : Half) : sext16 (h.setWidth 32) = BitVec.ofInt 32 h.toInt := by
  rw [sext16, extractLow_setWidth, BitVec.signExtend]

theorem loadHalf_eq (rd : LowReg) (a : Word) (extend : Word → Word) : s.loadHalf rd a extend =
    { s.writeReg (low rd) (extend ((s.mapHalf a).setWidth 32)) with reads := (memRead2 s a).2.reads } := by
  rw [State.loadHalf, memRead2_eq]
  exact writeReg_with_reads s (low rd) _ _

theorem loadHalf_answer (rd : LowReg) {a ea v : Word} {extend : Word → Word} (h : a = ea)
    (hv : extend ((s.mapHalf ea).setWidth 32) = v) :
    ∃ k, (.next (s.loadHalf rd a extend) : Result) = .next { s.writeReg (low rd) v with reads := k } :=
  ⟨_, by rw [loadHalf_eq, h, hv]⟩

/-! ### The lanes of a cell (R217) -/

section Lanes

variable {a : Word} (hi lo : Byte)

theorem evenAddr_of_even (h : a.toNat % 2 = 0) : evenAddr a = a := by
  apply BitVec.eq_of_toNat_eq
  rw [evenAddr_toNat]
  omega

theorem evenAddr_succ_of_even (h : a.toNat % 2 = 0) : evenAddr (a + 1#32) = a := by
  apply BitVec.eq_of_toNat_eq
  rw [evenAddr_toNat, succ_toNat_of_even h]
  omega

/-- An address is that of a cell's low byte, or the next after one. -/
theorem even_or_succ_of_even (a : Word) : a.toNat % 2 = 0 ∨ ∃ e : Word, e.toNat % 2 = 0 ∧ a = e + 1#32 := by
  by_cases even : a.toNat % 2 = 0
  · exact .inl even
  have cell : (evenAddr a).toNat % 2 = 0 := by rw [evenAddr_toNat]; omega
  refine .inr ⟨evenAddr a, cell, BitVec.eq_of_toNat_eq ?_⟩
  rw [succ_toNat_of_even cell, evenAddr_toNat]
  omega

theorem bit0_of_even (h : a.toNat % 2 = 0) : ¬ a.getLsbD 0 = true := by
  rw [bit0_iff]
  omega

theorem bit0_succ_of_even (h : a.toNat % 2 = 0) : (a + 1#32).getLsbD 0 = true := by
  rw [bit0_iff, succ_toNat_of_even h]
  omega

theorem memRead2_fst_of_even (h : a.toNat % 2 = 0) :
    (memRead2 s a).1 = (s.mapByte (a + 1#32) ++ s.mapByte a : Half).setWidth 32 := by
  rw [memRead2_eq, State.mapHalf, if_pos h]

theorem extractLow_append : ((hi ++ lo : Half).setWidth 32 : Word).extractLsb 7 0 = lo :=
  (byteOf_eq_extract _ 0).symm.trans ((byteOf_setWidth_zero _).trans BitVec.extractLsb'_append_eq_right)

theorem extractHigh_append : ((hi ++ lo : Half).setWidth 32 : Word).extractLsb 15 8 = hi :=
  (byteOf_eq_extract _ 1).symm.trans ((byteOf_setWidth_one _).trans BitVec.extractLsb'_append_eq_left)

theorem setWidth_append : ((hi ++ lo : Half).setWidth 32 : Word) = BitVec.ofNat 32 (hi.toNat * 256 + lo.toNat) :=
  (BitVec.ofNat_toNat 32 _).symm.trans (congrArg _ (append_toNat hi lo))

end Lanes

/-! ### Byte loads -/

/-- The lane that bit 0 of the address selects is the byte that the map shows at the address. -/
theorem loadByte_fst (a : Word) : (loadByte s a).1 = s.mapByte a := by
  obtain even | ⟨e, even, rfl⟩ := even_or_succ_of_even a
  · simp only [loadByte, evenAddr_of_even even, if_neg (bit0_of_even even), memRead2_fst_of_even s even,
      extractLow_append]
  · simp only [loadByte, evenAddr_succ_of_even even, if_pos (bit0_succ_of_even even), memRead2_fst_of_even s even,
      extractHigh_append]

theorem loadByteInto_eq (rd : LowReg) (a : Word) (extend : Byte → Word) : s.loadByteInto rd a extend =
    { s.writeReg (low rd) (extend (s.mapByte a)) with reads := (loadByte s a).2.reads } := by
  have split : s.loadByteInto rd a extend = (loadByte s a).2.writeReg (low rd) (extend (loadByte s a).1) := rfl
  rw [split, loadByte_fst, loadByte_snd, writeReg_with_reads]

theorem loadByteInto_answer (rd : LowReg) {a ea v : Word} {extend : Byte → Word} (h : a = ea)
    (hv : extend (s.mapByte ea) = v) :
    ∃ k, (.next (s.loadByteInto rd a extend) : Result) = .next { s.writeReg (low rd) v with reads := k } :=
  ⟨_, by rw [loadByteInto_eq, h, hv]⟩

/-- Settles O43: each form extends the byte or halfword at its effective address, a wrapped sum. -/
theorem byteAndHalfLoads : Obligations.ByteAndHalfLoads := by
  intro s rd rn rm imm5 loaded eaImm eaReg
  have byteAddr : s.eaOffset rn (immX1 imm5) = eaImm 1 :=
    eaOffset_eq_ofNat s rn (by rw [immX1_toNat (by decide), Nat.one_mul])
  have halfAddr : s.eaOffset rn (immX2 imm5) = eaImm 2 := eaOffset_eq_ofNat s rn (immX2_toNat (by decide))
  have regAddr : s.eaReg rn rm = eaReg := eaReg_eq_ofNat s rn rm
  exact ⟨loadByteInto_answer s rd byteAddr (BitVec.ofNat_toNat 32 _).symm,
    loadByteInto_answer s rd regAddr (BitVec.ofNat_toNat 32 _).symm,
    loadHalf_answer s rd halfAddr (zext16_setWidth _),
    loadHalf_answer s rd regAddr (zext16_setWidth _),
    loadByteInto_answer s rd regAddr rfl,
    loadHalf_answer s rd regAddr (sext16_setWidth _)⟩

/-! ### Word and halfword stores -/

/-- Settles O44: each form is the bus write of its width at its effective address, the halfword zero-extended. -/
theorem wordAndHalfStores : Obligations.WordAndHalfStores := by
  intro s rd rn rm imm5 imm8 wf v h
  have half : (v.extractLsb 15 0).setWidth 32 = h := zext16_eq_ofNat v
  have stored (ea : Word) : StoredAt s ea 2 h h (memWrite2 s ea (v.extractLsb 15 0)) := by
    rw [← half]
    exact memWrite2_storedAt s ea _ wf
  exact ⟨⟨_, rfl, memWrite4_storedAt s _ v wf⟩, ⟨_, rfl, memWrite4_storedAt s _ v wf⟩,
    ⟨_, rfl, memWrite4_storedAt s _ v wf⟩, ⟨_, rfl, stored _⟩, ⟨_, rfl, stored _⟩⟩

/-! ### Byte stores -/

/-- A byte that the map shows is what memory holds wherever a write of it can reach. -/
theorem mapByte_written_back (a : Word) (k : Nat) :
    (if k = a.toNat ∧ writableKey k then s.mapByte a else s.mem.byte k) = s.mem.byte k := by
  refine ite_eq_right_iff.2 fun ⟨own, writable⟩ => ?_
  rw [State.mapByte, if_pos (by omega), own]

theorem mapByte_mamcrAt {a : Word} (h : a.toNat = mamcrAt) : s.mapByte a = byteOf s.mamcr 0 := by
  rw [State.mapByte, if_neg (by unfold mamcrAt at h; omega), if_pos h]

theorem mapByte_mamcrAt_succ {a : Word} (h : a.toNat = mamcrAt + 1) : s.mapByte a = byteOf s.mamcr 1 := by
  rw [State.mapByte, if_neg (by unfold mamcrAt at h; omega), if_neg (by omega), if_pos h]

section Pair

variable {a : Word} (hi lo : Byte)

/-- The bytes of memory after a 16-bit write of two bytes. -/
theorem memWrite2_append_byte (even : a.toNat % 2 = 0) (k : Nat) (wf : s.mem.wf) :
    (memWrite2 s a (hi ++ lo)).mem.byte k =
      if k = a.toNat ∧ writableKey k then lo
      else if k = a.toNat + 1 ∧ writableKey k then hi
      else s.mem.byte k := by
  rw [memWrite2_byte _ _ _ _ wf]
  by_cases low : k = a.toNat ∧ writableKey k
  · rw [if_pos low, if_pos (by omega), low.1, Nat.sub_self, byteOf_setWidth_zero]
    exact BitVec.extractLsb'_append_eq_right
  by_cases high : k = a.toNat + 1 ∧ writableKey k
  · rw [if_neg low, if_pos high, if_pos (by omega), high.1, Nat.add_sub_cancel_left, byteOf_setWidth_one]
    exact BitVec.extractLsb'_append_eq_left
  · rw [if_neg low, if_neg high, if_neg (by omega)]

/-- MAMCR after a 16-bit write of two bytes. -/
theorem memWrite2_append_mamcr : (memWrite2 s a (hi ++ lo)).mamcr =
    if a.toNat = mamcrAt then BitVec.ofNat 32 (hi.toNat * 256 + lo.toNat) else s.mamcr := by
  simp only [memWrite2_mamcr, mamcrAddr_iff, setWidth_append]

end Pair

theorem storeByte_of_even {a : Word} (b : Byte) (h : a.toNat % 2 = 0) :
    storeByte s a b = memWrite2 (memRead2 s a).2 a (s.mapByte (a + 1#32) ++ b) := by
  simp only [storeByte, evenAddr_of_even h, if_neg (bit0_of_even h), memRead2_fst_of_even s h, extractHigh_append]

theorem storeByte_succ_of_even {a : Word} (b : Byte) (h : a.toNat % 2 = 0) :
    storeByte s (a + 1#32) b = memWrite2 (memRead2 s a).2 a (b ++ s.mapByte a) := by
  simp only [storeByte, evenAddr_succ_of_even h, if_pos (bit0_succ_of_even h), memRead2_fst_of_even s h,
    extractLow_append]

/-- The bytes of memory after a byte store: the other byte of the cell is written back as it was read. -/
theorem storeByte_byte (a : Word) (b : Byte) (k : Nat) (wf : s.mem.wf) :
    (storeByte s a b).mem.byte k = if k = a.toNat ∧ writableKey k then b else s.mem.byte k := by
  have read (e : Word) : (memRead2 s e).2.mem.wf := by rwa [memRead2_mem]
  obtain even | ⟨e, even, rfl⟩ := even_or_succ_of_even a
  · rw [storeByte_of_even s b even, memWrite2_append_byte _ _ _ even k (read a), memRead2_mem,
      ← succ_toNat_of_even even, mapByte_written_back]
  · rw [storeByte_succ_of_even s b even, memWrite2_append_byte _ _ _ even k (read e), memRead2_mem,
      succ_toNat_of_even even]
    by_cases stored : k = e.toNat + 1 ∧ writableKey k
    · rw [if_neg (by omega), if_pos stored]
    · rw [if_neg stored, mapByte_written_back]

/-- MAMCR after a byte store: the other lane is written back as it was read, and the upper half is cleared. -/
theorem storeByte_mamcr (a : Word) (b : Byte) : (storeByte s a b).mamcr =
    if a.toNat = mamcrAt then BitVec.ofNat 32 ((byteOf s.mamcr 1).toNat * 256 + b.toNat)
    else if a.toNat = mamcrAt + 1 then BitVec.ofNat 32 (b.toNat * 256 + (byteOf s.mamcr 0).toNat)
    else s.mamcr := by
  have read (e : Word) : (memRead2 s e).2.mamcr = s.mamcr := by rw [memRead2_snd]
  obtain even | ⟨e, even, rfl⟩ := even_or_succ_of_even a
  · rw [storeByte_of_even s b even, memWrite2_append_mamcr, read]
    by_cases mamcr : a.toNat = mamcrAt
    · rw [if_pos mamcr, if_pos mamcr, mapByte_mamcrAt_succ s (by rw [succ_toNat_of_even even, mamcr])]
    · rw [if_neg mamcr, if_neg mamcr, if_neg (by unfold mamcrAt; omega)]
  · have odd : e.toNat + 1 ≠ mamcrAt := by unfold mamcrAt; omega
    have high : e.toNat + 1 = mamcrAt + 1 ↔ e.toNat = mamcrAt := Nat.succ_inj
    simp only [storeByte_succ_of_even s b even, memWrite2_append_mamcr, read, succ_toNat_of_even even, odd, high,
      if_false]
    by_cases mamcr : e.toNat = mamcrAt
    · rw [mapByte_mamcrAt s mamcr]
    · rw [if_neg mamcr, if_neg mamcr]

theorem storeByte_byteStoredAt (a : Word) (b : Byte) (wf : s.mem.wf) : ByteStoredAt s a b (storeByte s a b) := by
  refine ⟨⟨(storeByte s a b).mem, (storeByte s a b).reads, (storeByte s a b).writes, (storeByte_eq a s b).trans ?_⟩,
    fun k => storeByte_byte s a b k wf⟩
  rw [storeByte_mamcr]

/-- Settles O45: each form stores the register's low byte at its effective address. -/
theorem byteStores : Obligations.ByteStores := by
  intro s rd rn rm imm5 wf b
  have lowByte : (s.readReg (low rd)).extractLsb 7 0 = b := (byteOf_eq_extract _ 0).symm
  have stored (ea : Word) :
      ByteStoredAt s ea b (storeByte s ea ((s.readReg (low rd)).extractLsb 7 0)) := by
    rw [lowByte]
    exact storeByte_byteStoredAt s ea b wf
  exact ⟨⟨_, rfl, stored _⟩, ⟨_, rfl, stored _⟩⟩

end Sys2Proof.Machine
end

