-- ==== Sys2Proof/Proofs/BlockTransfer.lean ====
section
/-! The block transfers (47_block_transfer.md R230 to R233). A register list is taken as the slots that it lists, and each
loop is run slot by slot: `regsBelow slots n` are the registers of the slots below `n`, which the loop handles first. What
is loaded and what is stored is then one induction on `n` each. -/

namespace Sys2Proof.Machine

/-! ### Slots -/

section Slots

variable {base : Word} {slots : BitVec 9} {i n : Nat}

theorem countBelow_eq_count (slots : BitVec 9) (n : Nat) :
    countBelow slots n = Nat.count (fun j => slots.getLsbD j = true) n := by
  induction n with
  | zero => rfl
  | succ n ih =>
    rw [Nat.count_succ, ← ih, countBelow, countBelow, List.range_succ, List.filter_append, List.length_append]
    by_cases listed : slots.getLsbD n <;> simp [listed]

theorem countBelow_le (slots : BitVec 9) (n : Nat) : countBelow slots n ≤ n :=
  (List.length_filter_le _ _).trans_eq List.length_range

theorem countBelow_lt (listed : slots.getLsbD i = true) (below : i < n) : countBelow slots i < countBelow slots n := by
  rw [countBelow_eq_count, countBelow_eq_count]
  exact Nat.count_strict_mono listed below

theorem countBelow_succ (slots : BitVec 9) (n : Nat) :
    countBelow slots (n + 1) = countBelow slots n + if slots.getLsbD n then 1 else 0 := by
  rw [countBelow_eq_count, countBelow_eq_count, Nat.count_succ]

theorem slotAddr_succ (base : Word) (slots : BitVec 9) (n : Nat) :
    slotAddr base slots (n + 1) = if slots.getLsbD n then slotAddr base slots n + 4#32 else slotAddr base slots n := by
  unfold slotAddr
  rw [countBelow_succ]
  split_ifs
  · rw [Nat.mul_add, BitVec.ofNat_add, BitVec.add_assoc]
  · rfl

/-- A listed slot has another address than the slots after it: nine words do not come round the address space. -/
theorem slotAddr_ne (listed : slots.getLsbD i = true) (below : i < n) (nine : n ≤ 9) :
    slotAddr base slots i ≠ slotAddr base slots n := by
  have counts := countBelow_lt listed below
  have few := countBelow_le slots n
  intro same
  have offsets := congrArg BitVec.toNat ((BitVec.add_right_inj base).1 same)
  simp only [BitVec.toNat_ofNat] at offsets
  omega

end Slots

/-- The registers of the slots below `n`. -/
def regsBelow (slots : BitVec 9) (n : Nat) : List RegNo :=
  ((List.range n).filter fun i => slots.getLsbD i).map (BitVec.ofNat 4)

theorem regsBelow_succ (slots : BitVec 9) (n : Nat) :
    regsBelow slots (n + 1) = regsBelow slots n ++ if slots.getLsbD n then [BitVec.ofNat 4 n] else [] := by
  unfold regsBelow
  rw [List.range_succ, List.filter_append, List.map_append]
  by_cases listed : slots.getLsbD n <;> simp [listed]

theorem length_regsBelow (slots : BitVec 9) (n : Nat) : (regsBelow slots n).length = countBelow slots n :=
  List.length_map _

/-- The slots of an instruction's list are those of its registers. -/
theorem regsBelow_eight {slots : BitVec 9} {list : BitVec 8} (h : ∀ i < 8, slots.getLsbD i = list.getLsbD i) :
    regsBelow slots 8 = regList list := by
  have eight : List.range 8 = [0, 1, 2, 3, 4, 5, 6, 7] := rfl
  unfold regsBelow regList
  rw [← eight]
  exact congrArg _ (List.filter_congr fun i hi => h i (List.mem_range.1 hi))

/-! LDMIA and STMIA have no ninth slot, PUSH and POP may have one. -/

theorem getLsbD_setWidth_nine (list : BitVec 8) (i : Nat) (h : i < 8) :
    (list.setWidth 9).getLsbD i = list.getLsbD i := by
  rw [BitVec.getLsbD_setWidth, decide_eq_true (by omega), Bool.true_and]

theorem getLsbD_setWidth_nine_eight (list : BitVec 8) : (list.setWidth 9).getLsbD 8 = false := by
  rw [BitVec.getLsbD_setWidth, BitVec.getLsbD_of_ge list 8 le_rfl, Bool.and_false]

theorem getLsbD_ofBool_append (r : Bool) (list : BitVec 8) (i : Nat) (h : i < 8) :
    (BitVec.ofBool r ++ list).getLsbD i = list.getLsbD i := by
  rw [BitVec.getLsbD_append, if_pos h]

theorem getLsbD_ofBool_append_eight (r : Bool) (list : BitVec 8) : (BitVec.ofBool r ++ list).getLsbD 8 = r := by
  rw [BitVec.getLsbD_append, if_neg (by decide), BitVec.getLsbD_ofBool]
  rfl

/-! ### The low registers -/

theorem low_toNat (r : LowReg) : (low r).toNat = r.toNat := BitVec.toNat_setWidth_of_le (by decide)

/-- A register number below 8 is none of the shadow pair. -/
theorem ne_shadow_of_toNat_lt {n : RegNo} (h : n.toNat < 8) : n ≠ 13#4 ∧ n ≠ 14#4 := by
  constructor <;> rintro rfl <;> exact absurd h (by decide)

theorem low_ne_shadow (r : LowReg) : low r ≠ 13#4 ∧ low r ≠ 14#4 :=
  ne_shadow_of_toNat_lt ((low_toNat r).trans_lt r.isLt)

theorem ofNat_toNat_of_lt_eight {i : Nat} (h : i < 8) : (BitVec.ofNat 4 i).toNat = i :=
  BitVec.toNat_ofNat .. |>.trans (Nat.mod_eq_of_lt (by omega))

theorem Kept.implemented {s t : State} (k : Kept s t) : t.implemented ↔ s.implemented := by
  unfold State.implemented
  rw [k.mode, k.params]

/-- A register write does not see the fields that a store changes. -/
theorem writeReg_with_bus (s : State) (n : RegNo) (v : Word) (m : Memory) (q : Word) (k : Nat) :
    { s with mem := m, mamcr := q, writes := k }.writeReg n v =
      { s.writeReg n v with mem := m, mamcr := q, writes := k } := by
  unfold State.writeReg
  dsimp only [State.implemented]
  split_ifs <;> rfl

/-! ### Loads -/

section Loads

variable (s : State) (a : Word) (slots : BitVec 9)

/-- The map shows memory and MAMCR, and nothing else of the state. -/
theorem mapWord_congr {s t : State} (hm : t.mem = s.mem) (hq : t.mamcr = s.mamcr) (a : Word) :
    t.mapWord a = s.mapWord a := by
  simpa only [memRead4_eq] using memRead4_fst_congr a s t hm hq

theorem memRead4_fst_eq : (memRead4 s a).1 = s.mapWord a := by rw [memRead4_eq]

theorem loadRegs_mapWord (l : List RegNo) (b : Word) : (loadRegs l a s).2.mapWord b = s.mapWord b :=
  mapWord_congr (by rw [loadRegs_snd]) (by rw [loadRegs_snd]) b

theorem loadRegs_append (l m : List RegNo) :
    loadRegs (l ++ m) a s = loadRegs m (loadRegs l a s).1 (loadRegs l a s).2 := by
  induction l generalizing a s with
  | nil => rfl
  | cons r l ih => exact ih _ _

theorem loadRegs_singleton (r : RegNo) :
    loadRegs [r] a s = (a + 4#32, (memRead4 s a).2.writeReg r (s.mapWord a)) := by
  rw [← memRead4_fst_eq]
  rfl

/-- In an unimplemented mode every load is dropped. -/
theorem loadRegs_general_unimplemented (h : ¬ s.implemented) (l : List RegNo) :
    (loadRegs l a s).2.general = s.general := by
  induction l generalizing a s with
  | nil => rfl
  | cons r l ih =>
    have read : ¬ (memRead4 s a).2.implemented := mt (Kept.memRead4 s a).implemented.1 h
    rw [loadRegs, ih _ _ (by rwa [writeReg_unimplemented _ _ _ read]), writeReg_unimplemented _ _ _ read, memRead4_snd]

theorem loadRegs_regsBelow_fst (n : Nat) : (loadRegs (regsBelow slots n) a s).1 = slotAddr a slots n := by
  rw [loadRegs_fst, length_regsBelow, slotAddr]

/-- One more slot loads the word at it into its register, if it is listed. -/
theorem loadRegs_regsBelow_succ_general (hs : s.implemented) {n : Nat} (eight : n < 8) (i : Nat) (hi : i < 16) :
    (loadRegs (regsBelow slots (n + 1)) a s).2.general[i] =
      if i = n ∧ slots.getLsbD n = true then s.mapWord (slotAddr a slots n)
      else (loadRegs (regsBelow slots n) a s).2.general[i] := by
  rw [regsBelow_succ]
  by_cases listed : slots.getLsbD n = true
  · have number := ofNat_toNat_of_lt_eight eight
    obtain ⟨h13, h14⟩ := ne_shadow_of_toNat_lt (number.trans_lt eight)
    have loading := ((Kept.loadRegs (regsBelow slots n) a s).trans (.memRead4 _ (slotAddr a slots n))).implemented.2 hs
    rw [if_pos listed, loadRegs_append, loadRegs_regsBelow_fst, loadRegs_singleton, loadRegs_mapWord,
      writeReg_shared _ _ _ loading h13 h14, memRead4_snd]
    simp only [Vector.getElem_set, number, listed, and_true, eq_comm]
  · rw [if_neg listed, List.append_nil, if_neg fun both => listed both.2]

/-- Each listed register below slot `n` takes the word at its slot. -/
theorem loadRegs_regsBelow_general (hs : s.implemented) {n : Nat} (eight : n ≤ 8) (i : Nat) (hi : i < 16) :
    (loadRegs (regsBelow slots n) a s).2.general[i] =
      if i < n ∧ slots.getLsbD i = true then s.mapWord (slotAddr a slots i) else s.general[i] := by
  induction n with
  | zero => rw [if_neg (by omega)]; rfl
  | succ n ih =>
    rw [loadRegs_regsBelow_succ_general s a slots hs eight, ih (by omega)]
    obtain rfl | other := eq_or_ne i n
    · simp
    · have below : i < n + 1 ↔ i < n := by omega
      simp only [other, below, false_and, if_false]

variable {slots} {list : BitVec 8} (h : ∀ i < 8, slots.getLsbD i = list.getLsbD i)

include h in
/-- All that the load loop of an instruction does: its address ends above the listed words, each listed register takes
the word at its slot in the implemented mode, and nothing else changes but the read counter. -/
theorem loadRegs_regList : ∃ g k,
    loadRegs (regList list) a s = (slotAddr a slots 8, { s with general := g, reads := k }) ∧
    (¬ s.implemented → g = s.general) ∧
    (s.implemented → ∀ (i : Nat) (hi : i < 16), g[i] =
      if i < 8 ∧ list.getLsbD i = true then s.mapWord (slotAddr a slots i) else s.general[i]) := by
  rw [← regsBelow_eight h]
  have shadow := loadRegs_shadow (regsBelow slots 8) a s fun r hr => by
    rw [regsBelow_eight h] at hr
    obtain ⟨h13, h14, -⟩ := regList_low hr
    exact ⟨h13, h14⟩
  refine ⟨(loadRegs (regsBelow slots 8) a s).2.general, (loadRegs (regsBelow slots 8) a s).2.reads, ?_, ?_, ?_⟩
  · refine Prod.ext (loadRegs_regsBelow_fst s a slots 8) ((loadRegs_snd _ _ _).trans ?_)
    rw [shadow.1, shadow.2]
  · exact fun hs => loadRegs_general_unimplemented s a hs _
  · intro hs i hi
    rw [loadRegs_regsBelow_general s a slots hs le_rfl]
    exact if_congr (and_congr_right fun hi => by rw [h i hi]) rfl rfl

end Loads

/-- Settles O47: the base is written after the loop, over what the loop loaded if it is listed. -/
theorem loadMultiple : Obligations.LoadMultiple := by
  intro s rn list base slots
  obtain ⟨g, k, loaded, dropped, entries⟩ := loadRegs_regList s base (getLsbD_setWidth_nine list)
  obtain ⟨h13, h14⟩ := low_ne_shadow rn
  have answer : exec (.ldmia rn list) s =
      .next ({ s with general := g, reads := k }.writeReg (low rn) (slotAddr base slots 8)) := by
    simp only [exec, execLdmia, loaded, base, slots]
  by_cases hs : s.implemented
  · refine ⟨_, k, answer.trans (congrArg _ (writeReg_shared _ _ _ hs h13 h14)), fun other => absurd hs other,
      fun _ i hi => ?_⟩
    simp only [Vector.getElem_set, low_toNat, entries hs, eq_comm (a := rn.toNat)]
    rfl
  · exact ⟨g, k, answer.trans (congrArg _ (writeReg_unimplemented _ _ _ hs)), fun _ => dropped hs,
      fun same => absurd same hs⟩

/-- The counter and the stack pointer are two places of the state, the one in the shared bank, the other beside it. -/
theorem writeReg_counter_sp (s : State) (v p : Word) (hs : s.implemented) :
    (s.writeReg 15#4 v).writeReg 13#4 p = { s with general := s.general.set 15 v, shadow13 := p } := by
  rw [writeReg_13 _ _ ((implemented_writeReg s _ _).2 hs), writeReg_shared s _ _ hs (by decide) (by decide)]
  rfl

theorem writeReg_counter_sp_unimplemented (s : State) (v p : Word) (hs : ¬ s.implemented) :
    (s.writeReg 15#4 v).writeReg 13#4 p = s := by
  rw [writeReg_unimplemented s _ _ hs, writeReg_unimplemented s _ _ hs]

section Pop

variable {s t : State} {list : BitVec 8} {a : Word}

theorem exec_pop_without_counter (loaded : loadRegs (regList list) (s.readReg 13#4) s = (a, t)) :
    exec (.pop false list) s = .next (t.writeReg 13#4 a) := by
  simp only [exec, execPop, spReg, loaded, Bool.false_eq_true, if_false]

theorem exec_pop_with_counter (loaded : loadRegs (regList list) (s.readReg 13#4) s = (a, t)) :
    exec (.pop true list) s = .next
      (({ t with reads := (memRead4 t a).2.reads }.writeReg 15#4 (t.mapWord a + 2#32)).writeReg 13#4 (a + 4#32)) := by
  rw [← memRead4_snd, ← memRead4_fst_eq]
  simp only [exec, execPop, spReg, pcReg, loaded, if_true]

/-- A POP whose loop ended in `t` with the address `a`, in the implemented mode. -/
theorem exec_pop (r : Bool) (loaded : loadRegs (regList list) (s.readReg 13#4) s = (a, t)) (ht : t.implemented) :
    ∃ k, exec (.pop r list) s = .next
      { t with
        general := if r then t.general.set 15 (t.mapWord a + 2#32) else t.general
        shadow13 := if r then a + 4#32 else a
        reads := k } := by
  cases r with
  | false => exact ⟨_, (exec_pop_without_counter loaded).trans (congrArg _ (writeReg_13 _ _ ht))⟩
  | true => exact ⟨_, (exec_pop_with_counter loaded).trans (congrArg _ (writeReg_counter_sp _ _ _ ht))⟩

theorem exec_pop_unimplemented (r : Bool) (loaded : loadRegs (regList list) (s.readReg 13#4) s = (a, t))
    (ht : ¬ t.implemented) : ∃ k, exec (.pop r list) s = .next { t with reads := k } := by
  cases r with
  | false => exact ⟨_, (exec_pop_without_counter loaded).trans (congrArg _ (writeReg_unimplemented _ _ _ ht))⟩
  | true => exact ⟨_, (exec_pop_with_counter loaded).trans (congrArg _ (writeReg_counter_sp_unimplemented _ _ _ ht))⟩

end Pop

/-- Settles O50: the counter and the stack pointer are written after the loop, each in a place of its own. -/
theorem popLoadsRegisters : Obligations.PopLoadsRegisters := by
  intro s r list slots sp
  have ninth : slots.getLsbD 8 = r := getLsbD_ofBool_append_eight r list
  have top : slotAddr sp slots 9 = _ := slotAddr_succ sp slots 8
  obtain ⟨g, k, loaded, dropped, entries⟩ := loadRegs_regList (slots := slots) s sp (getLsbD_ofBool_append r list)
  rw [ninth] at top
  by_cases hs : s.implemented
  · obtain ⟨k, answer⟩ := exec_pop r loaded hs
    refine ⟨_, _, k, answer, fun other => absurd hs other, fun _ => ⟨top.symm, fun i hi => ?_⟩⟩
    cases r with
    | false => simp only [entries hs, Bool.false_eq_true, and_false, if_false]
    | true =>
      simp only [if_true, Vector.getElem_set, entries hs, and_true, eq_comm (a := 15)]
      by_cases counter : i = 15
      · rw [if_pos counter, if_neg (by omega), if_pos counter]
        rfl
      · rw [if_neg counter, if_neg counter]
  · obtain ⟨k, answer⟩ := exec_pop_unimplemented r loaded hs
    exact ⟨_, _, k, answer, fun _ => ⟨dropped hs, rfl⟩, fun same => absurd same hs⟩

/-! ### Stores -/

section Stores

variable (s : State) (base : Word) (slots : BitVec 9) (value : Nat → Word)

/-- `s` after storing `value i` at each listed slot `i` below a bound, ascending. -/
def storeSlots : Nat → State
  | 0 => s
  | n + 1 =>
    if slots.getLsbD n then memWrite4 (storeSlots n) (slotAddr base slots n) (value n) else storeSlots n

/-- Storing the slots changes nothing but memory, MAMCR and the write counter. -/
theorem storeSlots_eq (n : Nat) : storeSlots s base slots value n =
    { s with
      mem := (storeSlots s base slots value n).mem
      mamcr := (storeSlots s base slots value n).mamcr
      writes := (storeSlots s base slots value n).writes } := by
  induction n with
  | zero => rfl
  | succ n ih =>
    unfold storeSlots
    split_ifs
    · rw [memWrite4_eq, ih]
    · exact ih

theorem storeSlots_readReg (n : Nat) (m : RegNo) : (storeSlots s base slots value n).readReg m = s.readReg m := by
  rw [storeSlots_eq]
  exact readReg_congr rfl rfl rfl rfl rfl m

theorem storeSlots_wf (wf : s.mem.wf) (n : Nat) : (storeSlots s base slots value n).mem.wf := by
  induction n with
  | zero => exact wf
  | succ n ih =>
    unfold storeSlots
    split_ifs
    · exact memWrite4_wf _ _ _ ih
    · exact ih

theorem storeRegs_append (l m : List RegNo) (a : Word) :
    storeRegs (l ++ m) a s = storeRegs m (storeRegs l a s).1 (storeRegs l a s).2 := by
  induction l generalizing a s with
  | nil => rfl
  | cons r l ih => exact ih _ _

theorem storeRegs_regsBelow_fst (n : Nat) : (storeRegs (regsBelow slots n) base s).1 = slotAddr base slots n := by
  rw [storeRegs_fst, length_regsBelow, slotAddr]

/-- The store loop stores each listed register's value before the instruction to its slot. -/
theorem storeRegs_regsBelow_snd {n : Nat} (values : ∀ i < n, value i = s.readReg (BitVec.ofNat 4 i)) :
    (storeRegs (regsBelow slots n) base s).2 = storeSlots s base slots value n := by
  induction n with
  | zero => rfl
  | succ n ih =>
    rw [regsBelow_succ, storeRegs_append, storeRegs_regsBelow_fst, ih fun i hi => values i (by omega), storeSlots,
      values n (by omega), ← storeSlots_readReg s base slots value n]
    split_ifs <;> rfl

/-! What a run of stores leaves is seen through one byte, or through MAMCR: a view that a word store at an address which
hits it sets, and every other keeps. -/

/-- `view` takes `put a v` from a word store of `v` at an address `a` that hits it, which is one address at most, and is
kept by every other word store. -/
structure StoreView {α : Type} (view : State → α) (hits : Word → Prop) (put : Word → Word → α) : Prop where
  hit : ∀ (s : State) (a v : Word), s.mem.wf → hits a → view (memWrite4 s a v) = put a v
  miss : ∀ (s : State) (a v : Word), s.mem.wf → ¬ hits a → view (memWrite4 s a v) = view s
  unique : ∀ a b, hits a → hits b → a = b

theorem storeView_byte (k : Nat) :
    StoreView (·.mem.byte k) (wordCovers · k) (fun a v => byteOf v (k - a.toNat)) where
  hit s a v wf h := (memWrite4_byte s a v k wf).trans (if_pos h)
  miss s a v wf h := (memWrite4_byte s a v k wf).trans (if_neg h)
  unique a b ha hb := by
    unfold wordCovers at ha hb
    exact BitVec.eq_of_toNat_eq (by omega)

theorem storeView_mamcr : StoreView (·.mamcr) (fun a => a.toNat = mamcrAt) (fun _ v => v) where
  hit s a v _ h := (memWrite4_mamcr s a v).trans (if_pos h)
  miss s a v _ h := (memWrite4_mamcr s a v).trans (if_neg h)
  unique _ _ ha hb := BitVec.eq_of_toNat_eq (ha.trans hb.symm)

section View

variable {s base slots value} {α : Type} {view : State → α} {hits : Word → Prop} {put : Word → Word → α}

theorem StoreView.storeSlots_miss (V : StoreView view hits put) (wf : s.mem.wf) {n : Nat}
    (missed : ∀ i, i < n → slots.getLsbD i → ¬ hits (slotAddr base slots i)) :
    view (storeSlots s base slots value n) = view s := by
  induction n with
  | zero => rfl
  | succ n ih =>
    have before := ih fun i hi => missed i (by omega)
    unfold storeSlots
    split_ifs with listed
    · rw [V.miss _ _ _ (storeSlots_wf s base slots value wf n) (missed n (by omega) listed), before]
    · exact before

theorem StoreView.storeSlots_hit (V : StoreView view hits put) (wf : s.mem.wf) {i n : Nat} (nine : n ≤ 9)
    (below : i < n) (listed : slots.getLsbD i) (hit : hits (slotAddr base slots i)) :
    view (storeSlots s base slots value n) = put (slotAddr base slots i) (value i) := by
  induction n with
  | zero => omega
  | succ n ih =>
    have wf := storeSlots_wf s base slots value wf n
    unfold storeSlots
    obtain rfl | earlier : i = n ∨ i < n := by omega
    · rw [if_pos listed, V.hit _ _ _ wf hit]
    · have miss : ¬ hits (slotAddr base slots n) := fun other =>
        slotAddr_ne listed earlier (by omega) (V.unique _ _ hit other)
      split_ifs
      · rw [V.miss _ _ _ wf miss, ih (by omega) earlier]
      · exact ih (by omega) earlier

end View

theorem storeSlots_slotsStored (wf : s.mem.wf) :
    SlotsStored s base slots value (storeSlots s base slots value 9) :=
  ⟨fun _ k below listed hit => (storeView_byte k).storeSlots_hit wf le_rfl below listed hit,
   fun k missed => (storeView_byte k).storeSlots_miss wf missed,
   fun _ below listed hit => storeView_mamcr.storeSlots_hit wf le_rfl below listed hit,
   fun missed => storeView_mamcr.storeSlots_miss wf missed⟩

/-- A register write after the stores is one before them. -/
theorem storeSlots_writeReg (n : Nat) (r : RegNo) (v : Word) : (storeSlots s base slots value n).writeReg r v =
    { s.writeReg r v with
      mem := (storeSlots s base slots value n).mem
      mamcr := (storeSlots s base slots value n).mamcr
      writes := (storeSlots s base slots value n).writes } := by
  rw [storeSlots_eq, writeReg_with_bus]

variable {slots value} {list : BitVec 8}

/-- All that the store loop of an instruction does. -/
theorem storeRegs_regList (h : ∀ i < 8, slots.getLsbD i = list.getLsbD i)
    (values : ∀ i < 8, value i = s.readReg (BitVec.ofNat 4 i)) :
    storeRegs (regList list) base s = (slotAddr base slots 8, storeSlots s base slots value 8) := by
  rw [← regsBelow_eight h]
  exact Prod.ext (storeRegs_regsBelow_fst s base slots 8) (storeRegs_regsBelow_snd s base slots value values)

end Stores

/-- Settles O48: the loop stores before the base is written, so a listed base is stored as it was. -/
theorem storeMultiple : Obligations.StoreMultiple := by
  intro s rn list wf base slots
  let value (i : Nat) := s.readReg (BitVec.ofNat 4 i)
  have stored : storeRegs (regList list) base s = (slotAddr base slots 8, storeSlots s base slots value 8) :=
    storeRegs_regList s base (getLsbD_setWidth_nine list) fun _ _ => rfl
  have noNinth : storeSlots s base slots value 9 = storeSlots s base slots value 8 :=
    if_neg (Bool.eq_false_iff.1 (getLsbD_setWidth_nine_eight list))
  have answer : exec (.stmia rn list) s =
      .next ((storeSlots s base slots value 9).writeReg (low rn) (slotAddr base slots 8)) := by
    rw [noNinth]
    simp only [exec, execStmia, stored, base]
  rw [storeSlots_writeReg] at answer
  exact ⟨_, _, _, answer, storeSlots_slotsStored s base slots value wf⟩

/-- The stack pointer of a PUSH is lower by four bytes a slot. -/
theorem pushedSp_eq (s : State) (r : Bool) (list : BitVec 8) : s.pushedSp r list =
    s.readReg 13#4 - BitVec.ofNat 32 (4 * countBelow (BitVec.ofBool r ++ list) 9) := by
  have words : popcount list + r.toNat = countBelow (BitVec.ofBool r ++ list) 9 := by
    rw [countBelow_succ, getLsbD_ofBool_append_eight, popcount, ← regsBelow_eight (getLsbD_ofBool_append r list),
      length_regsBelow]
    cases r <;> rfl
  rw [State.pushedSp, words, BitVec.ofNat_mul, spReg]

/-- Settles O49: the link register is the ninth slot's value, above those of the loop. -/
theorem pushStoresRegisters : Obligations.PushStoresRegisters := by
  intro s r list wf slots sp
  let value (i : Nat) := if i = 8 then s.readReg 14#4 else s.readReg (BitVec.ofNat 4 i)
  have stored : storeRegs (regList list) sp s = (slotAddr sp slots 8, storeSlots s sp slots value 8) :=
    storeRegs_regList s sp (getLsbD_ofBool_append r list) fun i hi => if_neg hi.ne
  have ninth : slots.getLsbD 8 = r := getLsbD_ofBool_append_eight r list
  have answer : exec (.push r list) s = .next ((storeSlots s sp slots value 9).writeReg 13#4 sp) := by
    rw [storeSlots, ninth]
    simp only [exec, execPush, stored, storeSlots_readReg, spReg, lrReg, sp, value, if_true]
  rw [storeSlots_writeReg] at answer
  exact ⟨pushedSp_eq s r list, _, _, _, answer, storeSlots_slotsStored s sp slots value wf⟩

/-! ### PUSH, then POP (R233 (d)) -/

theorem append_byteOf (v : Word) : (byteOf v 3 ++ byteOf v 2) ++ (byteOf v 1 ++ byteOf v 0) = v := by
  have high : byteOf v 3 ++ byteOf v 2 = v.extractLsb' 16 16 := by
    rw [byteOf_eq_extract, byteOf_eq_extract]
    exact BitVec.extractLsb'_append_extractLsb'_eq_extractLsb' rfl
  have halves : v.extractLsb' 16 16 ++ v.extractLsb' 0 16 = v.extractLsb' 0 32 :=
    BitVec.extractLsb'_append_extractLsb'_eq_extractLsb' rfl
  rw [high, byteOf_append_low]
  exact halves.trans (BitVec.extractLsb'_eq_self)

/-- A word of the arrays is what its four bytes say. -/
theorem mapWord_of_bytes {s : State} {a v : Word} (aligned : a.toNat % 4 = 0) (readable : readableKey a.toNat)
    (bytes : ∀ j < 4, s.mem.byte (a.toNat + j) = byteOf v j) : s.mapWord a = v := by
  have next := add2_toNat_of_aligned aligned
  have low : s.mapHalf a = byteOf v 1 ++ byteOf v 0 := by
    rw [mapHalf_even s (by omega), if_pos readable, Memory.cell, bytes 1 (by decide)]
    exact congrArg (byteOf v 1 ++ ·) (bytes 0 (by decide))
  have high : s.mapHalf (a + 2#32) = byteOf v 3 ++ byteOf v 2 := by
    have nextReadable : readableKey (a + 2#32).toNat := by omega
    rw [mapHalf_even s (by omega), if_pos nextReadable, Memory.cell, next, Nat.add_assoc, bytes 2 (by decide),
      bytes 3 (by decide)]
  rw [State.mapWord, if_neg (not_not.2 aligned), if_neg (by unfold mamcrAt; omega), low, high, append_byteOf]

/-- Where the words of all slots end within the address space, no slot's address wraps. -/
theorem slotAddr_toNat {base : Word} {slots : BitVec 9} {i : Nat} (listed : slots.getLsbD i = true) (nine : i < 9)
    (fits : base.toNat + 4 * countBelow slots 9 < 2 ^ 32) :
    (slotAddr base slots i).toNat = base.toNat + 4 * countBelow slots i := by
  have := countBelow_lt listed nine
  rw [slotAddr, BitVec.toNat_add, BitVec.toNat_ofNat]
  omega

/-- A state that holds the bytes of stored slots reads the stored values back. -/
theorem mapWord_of_slotsStored {s t u : State} {base : Word} {slots : BitVec 9} {value : Nat → Word}
    (stored : SlotsStored s base slots value t) (aligned : base.toNat % 4 = 0)
    (fits : base.toNat + 4 * countBelow slots 9 < 2 ^ 32)
    (writable : ∀ k, base.toNat ≤ k → k < base.toNat + 4 * countBelow slots 9 → writableKey k)
    (kept : ∀ k, base.toNat ≤ k → k < base.toNat + 4 * countBelow slots 9 → u.mem.byte k = t.mem.byte k)
    {i : Nat} (nine : i < 9) (listed : slots.getLsbD i = true) : u.mapWord (slotAddr base slots i) = value i := by
  obtain ⟨bytes, -⟩ := stored
  have place := slotAddr_toNat listed nine fits
  have inside := countBelow_lt listed nine
  have lowest := writable (slotAddr base slots i).toNat (by omega) (by omega)
  refine mapWord_of_bytes (by omega) (by omega) fun j hj => ?_
  have covered : wordCovers (slotAddr base slots i) ((slotAddr base slots i).toNat + j) :=
    ⟨by omega, by omega, by omega, writable _ (by omega) (by omega)⟩
  rw [kept _ (by omega) (by omega), bytes i _ nine listed covered, Nat.add_sub_cancel_left]

/-- Settles O51: POP finds every slot where PUSH stored it, and raises the stack pointer by what PUSH lowered it. -/
theorem pushThenPop : Obligations.PushThenPop := by
  intro s t u r list wf hs aligned writable noWrap pushed hu spKept bytesKept
  obtain ⟨lowered, _, _, _, push, stored⟩ := pushStoresRegisters s r list wf
  obtain ⟨g, _, _, pop, -, entries⟩ := popLoadsRegisters u r list
  obtain ⟨raised, entries⟩ := entries hu
  have lists := getLsbD_ofBool_append r list
  have ninth := getLsbD_ofBool_append_eight r list
  rw [push, writeReg_13 _ _ hs] at pushed
  cases pushed
  have sp : u.readReg 13#4 = s.pushedSp r list := (readReg_13 u hu).trans spKept
  rw [readReg_13 s hs] at lowered
  rw [sp] at raised entries
  generalize BitVec.ofBool r ++ list = slots at lowered stored raised entries lists ninth
  have few := countBelow_le slots 9
  have area : (s.pushedSp r list).toNat + 4 * countBelow slots 9 = s.shadow13.toNat := by
    have difference := congrArg BitVec.toNat lowered
    rw [BitVec.toNat_sub, BitVec.toNat_ofNat] at difference
    omega
  rw [← area] at writable bytesKept
  have restored (i : Nat) (nine : i < 9) (listed : slots.getLsbD i = true) :=
    mapWord_of_slotsStored stored (by omega) (by omega) writable bytesKept nine listed
  refine ⟨_, pop, ?sp, fun i hi listed => ?listed, ?counter⟩
  case sp => exact raised.trans (by rw [lowered, BitVec.sub_add_cancel])
  case listed =>
    obtain ⟨h13, h14⟩ := ne_shadow_of_toNat_lt (n := BitVec.ofNat 4 i) (by rwa [ofNat_toNat_of_lt_eight hi])
    calc g[i] = u.mapWord (slotAddr (s.pushedSp r list) slots i) :=
          (entries i (by omega)).trans (if_pos ⟨hi, listed⟩)
      _ = s.readReg (BitVec.ofNat 4 i) := (restored i (by omega) ((lists i hi).trans listed)).trans (if_neg hi.ne)
      _ = s.general[i] := by
          rw [readReg_shared _ _ hs h13 h14]
          simp only [ofNat_toNat_of_lt_eight hi]
  case counter =>
    rintro rfl
    calc g[15] = u.mapWord (slotAddr (s.pushedSp true list) slots 8) + 2#32 := entries 15 (by decide)
      _ = s.readReg 14#4 + 2#32 := by rw [restored 8 (by decide) ninth, if_pos rfl]
      _ = s.shadow14 + 2#32 := by rw [readReg_14 s hs]

end Sys2Proof.Machine
end

