-- ==== Sys2Proof/Proofs/Branch.lean ====
section
/-! The branches (48_branch.md R240 to R245): the targets as exact sums modulo 2^32, the two halves of BL, the two exits
of BX and BLX(2), and the return from a call. -/

namespace Sys2Proof.Machine

variable (s : State)

/-! ### Branches by a displacement (R240, R241) -/

/-- A word with a signed offset added is the exact sum, narrowed. -/
theorem add_eq_ofInt (a offset : Word) : a + offset = BitVec.ofInt 32 (a.toNat + offset.toInt) := by
  rw [BitVec.ofInt_add, BitVec.ofInt_natCast, BitVec.ofInt_toInt, BitVec.ofNat_toNat, BitVec.setWidth_eq]

theorem pc_add_displacement {n : Nat} (h : n ≤ 31) (imm : BitVec n) :
    s.pc + 2#32 + displacement imm = BitVec.ofInt 32 ((s.readReg 15#4).toNat + 2 + 2 * imm.toInt) := by
  have advanced : s.pc + 2#32 = BitVec.ofInt 32 ((s.readReg 15#4).toNat + 2) := add_eq_ofInt _ _
  have offset : displacement imm = BitVec.ofInt 32 (2 * imm.toInt) := by
    rw [← displacement_toInt h, BitVec.ofInt_toInt]
  rw [advanced, offset, ← BitVec.ofInt_add]

/-- Settles O52: the condition by its truth table, the targets as exact sums. -/
theorem branchTargets : Obligations.BranchTargets := by
  intro s c imm8 imm11 passes pc
  have passed : condPassed s.cpsr c = passes := conditionTable s.cpsr c
  have target8 : s.pc + 2#32 + displacement imm8 = BitVec.ofInt 32 (pc + 2 + 2 * imm8.toInt) :=
    pc_add_displacement s (by decide) imm8
  have target11 : s.pc + 2#32 + displacement imm11 = BitVec.ofInt 32 (pc + 2 + 2 * imm11.toInt) :=
    pc_add_displacement s (by decide) imm11
  simp only [exec, execB1, execB2, passed, target8, target11, pcReg, and_self]

/-! ### Branch with link (R242, R243) -/

theorem blPrefixOpcode_eq_ofNat (imm11 : BitVec 11) :
    blPrefixOpcode imm11 = BitVec.ofNat 16 (0xF000 + imm11.toNat) := by
  have narrow := imm11.isLt
  apply BitVec.eq_of_toNat_eq
  simp only [blPrefixOpcode, append_toNat, BitVec.toNat_ofNat]
  omega

theorem exec_blSuffix_of_latched {s : State} {w : Half} (imm11 : BitVec 11) (h : s.latch = some w) :
    exec (.blSuffix imm11) s =
      .next { (s.writeReg lrReg (s.pc - 2#32)).writeReg pcReg (s.pc + blOffset w imm11) with latch := none } := by
  simp only [exec, execBlSuffix, h]

theorem exec_blSuffix_of_empty {s : State} (imm11 : BitVec 11) (h : s.latch = none) :
    exec (.blSuffix imm11) s = .refused .blSuffixLatchEmpty := by
  simp only [exec, execBlSuffix, h]

/-- Settles O53: the suffix by what the latch holds, its target as an exact sum. -/
theorem branchWithLink : Obligations.BranchWithLink := by
  intro s imm11 w pc offset
  refine ⟨?latches, fun full => ?branches, exec_blSuffix_of_empty imm11⟩
  case latches => rw [← blPrefixOpcode_eq_ofNat]; rfl
  case branches =>
    have value : (blOffset w imm11).toInt = offset := by rw [blOffset_toInt]; ring
    rw [exec_blSuffix_of_latched imm11 full, add_eq_ofInt, value]
    rfl

/-! ### Branch and exchange (R244, R245) -/

section Exchange

variable {s : State} {rm : RegNo}

theorem exec_bx_of_odd (h : (s.readReg rm).toNat % 2 = 1) :
    exec (.bx rm) s = .next (s.writeReg 15#4 (s.readReg rm + 2#32)) :=
  if_pos ((bit0_iff _).2 h)

theorem exec_blx2_of_odd (h : (s.readReg rm).toNat % 2 = 1) :
    exec (.blx2 rm) s =
      .next ((s.writeReg 14#4 (s.readReg 15#4 - 2#32)).writeReg 15#4 (s.readReg rm + 2#32)) :=
  if_pos ((bit0_iff _).2 h)

theorem exec_bx_of_even (h : (s.readReg rm).toNat % 2 = 0) :
    exec (.bx rm) s = .next (s.terminate (.exitThumb .bx)) :=
  if_neg (bit0_of_even h)

theorem exec_blx2_of_even (h : (s.readReg rm).toNat % 2 = 0) :
    exec (.blx2 rm) s = .next (s.terminate (.exitThumb .blx)) :=
  if_neg (bit0_of_even h)

end Exchange

/-- Settles O54: each form by bit 0 of its target. -/
theorem branchExchange : Obligations.BranchExchange := fun _ _ =>
  ⟨fun odd => ⟨exec_bx_of_odd odd, exec_blx2_of_odd odd⟩, fun even => ⟨exec_bx_of_even even, exec_blx2_of_even even⟩⟩

/-! ### The return from a call (R24, R243, R245) -/

/-- A BL suffix links to the instruction after itself, bit 0 as in the counter. -/
theorem exec_blSuffix_link {s t : State} {imm11 : BitVec 11} (hs : s.implemented)
    (h : exec (.blSuffix imm11) s = .next t) : t.readReg 14#4 = s.readReg 15#4 - 2#32 := by
  cases hl : s.latch with
  | none => rw [exec_blSuffix_of_empty imm11 hl] at h; cases h
  | some w =>
    rw [exec_blSuffix_of_latched imm11 hl] at h
    cases h
    have linked := readReg_writeReg_self s lrReg (s.pc - 2#32) hs
    rw [← readReg_writeReg_ne _ pcReg lrReg (s.pc + blOffset w imm11) (by decide)] at linked
    exact linked

/-- Settles O55: the link is the counter less 2, of the same parity, and BX adds the 2 back. -/
theorem callReturns : Obligations.CallReturns := by
  intro s t u w imm11 hs odd call hu kept back
  have link : u.readReg 14#4 = s.readReg 15#4 - 2#32 := kept.trans (exec_blSuffix_link hs call)
  have linkOdd : (u.readReg 14#4).toNat % 2 = 1 := by
    have := (s.readReg 15#4).isLt
    rw [link, BitVec.toNat_sub, BitVec.toNat_ofNat]
    omega
  rw [exec_bx_of_odd linkOdd] at back
  cases back
  refine ⟨?_, writeReg_terminated _ _ _⟩
  rw [readReg_writeReg_self _ _ _ hu, link, BitVec.sub_add_cancel]

end Sys2Proof.Machine
end

