-- ==== Sys2Proof/Proofs/Termination.lean ====
section
/-! How a run ends (49_termination.md, 60_exceptions.md): the one change a terminating instruction makes, the state that a
terminating step leaves, and the two ends of the run loop. -/

namespace Sys2Proof.Machine

variable {s t : State}

/-- Settles O56: each rule is the termination with its reason. -/
theorem terminatingForms : Obligations.TerminatingForms := fun _ _ _ _ _ _ _ _ => ⟨rfl, rfl, rfl, rfl, rfl⟩

/-- An instruction keeps the termination, or ends the run with a reason of its own, never the ceiling, and does nothing
else (60_exceptions.md R271, R272). -/
theorem exec_terminated {i : Instr} (h : exec i s = .next t) :
    t.terminated = s.terminated ∨ ∃ r, r ≠ .ceiling ∧ t = s.terminate r := by
  cases i with
  | bkpt _ | swi _ | cps _ _ _ _ | setend _ | blx1Suffix _ => cases h; exact .inr ⟨_, by nofun, rfl⟩
  | bx rm =>
    obtain even | odd := Nat.mod_two_eq_zero_or_one (s.readReg rm).toNat
    · rw [exec_bx_of_even even] at h; cases h; exact .inr ⟨_, by nofun, rfl⟩
    · rw [exec_bx_of_odd odd] at h; cases h; exact .inl (writeReg_terminated _ _ _)
  | blx2 rm =>
    obtain even | odd := Nat.mod_two_eq_zero_or_one (s.readReg rm).toNat
    · rw [exec_blx2_of_even even] at h; cases h; exact .inr ⟨_, by nofun, rfl⟩
    · rw [exec_blx2_of_odd odd] at h; cases h; exact .inl (by simp only [writeReg_terminated])
  | _ => exact .inl ((exec_statusFrame h).terminated rfl)

/-- The same of what a step dispatches to, an unmatched opcode among it (49_termination.md R260, R261). -/
theorem dispatch_terminated {w : Half} (h : dispatch w s = .next t) :
    t.terminated = s.terminated ∨ ∃ r, r ≠ .ceiling ∧ t = s.terminate r := by
  obtain ⟨_, _, h⟩ | ⟨_, rfl⟩ := dispatch_cases h
  · exact exec_terminated h
  · exact .inr ⟨_, by nofun, rfl⟩

theorem fetchAdvance_terminated (s : State) : (fetchAdvance s).2.terminated = s.terminated := by simp [fetchAdvance_snd]

theorem step_of_ended (h : s.terminated ≠ none) : step s = .fault .runEnded := by
  obtain ⟨r, ended⟩ := Option.ne_none_iff_exists'.1 h
  simp only [step, loopPass, ended]

/-- Settles O9: at the ceiling the pass ends the run, and a run that has ended takes no step. -/
theorem loopEnds : Obligations.LoopEnds := fun _ => ⟨step_at_ceiling, step_of_ended⟩

/-- Settles O8: the step dispatches what it fetched, and an unmatched opcode is the termination with it. -/
theorem unmatchedTerminates : Obligations.UnmatchedTerminates := by
  intro s running below unmatched
  rw [step_of_running running below, fetchAdvance_fst,
    dispatch_of_unmatched (by rwa [fetchAdvance_params]), fetchAdvance_snd]
  rfl

/-- Below the ceiling a step that ends the run is its own actions and the termination, for another reason than the
ceiling. -/
theorem step_ends {r : Termination} (running : s.terminated = none) (below : s.instructions < insnCeiling)
    (h : step s = .next t) (ended : t.terminated = some r) :
    r ≠ .ceiling ∧ t = (fetchAdvance s).2.terminate r := by
  rw [step_of_running running below] at h
  obtain same | ⟨reason, other, rfl⟩ := dispatch_terminated h
  · rw [fetchAdvance_terminated, running, ended] at same
    cases same
  · cases ended
    exact ⟨other, rfl⟩

/-- Settles O11: the step's own actions, then the termination alone. -/
theorem terminatingStep : Obligations.TerminatingStep := by
  intro s t r running below h ended
  obtain ⟨-, rfl⟩ := step_ends running below h ended
  rw [fetchAdvance_snd]
  rfl

end Sys2Proof.Machine
end

