-- ==== Sys2Proof/Proofs/ResetAndRun.lean ====
section
/-! Reset and the run loop (70_reset_and_hazards.md R290, R294). -/

namespace Sys2Proof.Machine

/-- Settles O19: every field that reset sets, and register by register what it leaves of the shared bank. -/
theorem resetAction : Obligations.ResetAction := by
  intro s
  refine ⟨rfl, rfl, rfl, rfl, rfl, rfl, rfl, rfl, rfl, rfl, Vector.getElem_set_self _, rfl, rfl, rfl, rfl, rfl, rfl, rfl,
    rfl, fun k hk => Vector.getElem_set_ne (by decide) _ hk.ne'⟩

/-- The state of a run that has ended within the ceiling, and at it if the ceiling is the reason. -/
def State.EndedInTime (s : State) : Prop :=
  ∃ r, s.terminated = some r ∧ s.instructions ≤ insnCeiling ∧ (r = .ceiling → s.instructions = insnCeiling)

/-- Below the ceiling a step counts one instruction. -/
theorem step_instructions {s t : State} (below : s.instructions < insnCeiling) (h : step s = .next t) :
    t.instructions = s.instructions + 1 := by
  obtain ⟨-, ⟨reached, -⟩ | ⟨-, hd⟩⟩ := step_cases h
  · omega
  · rw [(dispatch_kept hd).instructions, fetchAdvance_snd]

theorem runLoop_of_ended {s : State} (h : s.terminated ≠ none) (k : Nat) : runLoop k s = .next s := by
  cases k with
  | zero => rfl
  | succ k =>
    obtain ⟨r, ended⟩ := Option.ne_none_iff_exists'.1 h
    simp only [runLoop, ended]

theorem runLoop_of_next {s t : State} (running : s.terminated = none) (h : step s = .next t) (k : Nat) :
    runLoop (k + 1) s = runLoop k t := by
  simp only [runLoop, running, h]

theorem runLoop_of_refused {s : State} {r : Refusal} (running : s.terminated = none) (h : step s = .refused r)
    (k : Nat) : runLoop (k + 1) s = .refused r := by
  simp only [runLoop, running, h]

/-- With one pass left for every instruction below the ceiling, and one more, a running state's loop ends in time or is
refused. -/
theorem runLoop_ends (k : Nat) (s : State) (running : s.terminated = none) (left : s.instructions + k = insnCeiling) :
    (∃ t, runLoop (k + 1) s = .next t ∧ t.EndedInTime) ∨ runLoop (k + 1) s = .refused .blSuffixLatchEmpty := by
  induction k generalizing s with
  | zero =>
    have reached : s.instructions = insnCeiling := left
    rw [runLoop_of_next running (step_at_ceiling running reached.ge)]
    exact .inl ⟨_, rfl, .ceiling, rfl, reached.le, fun _ => reached⟩
  | succ k ih =>
    have below : s.instructions < insnCeiling := by omega
    obtain ⟨t, next⟩ | ⟨refused, -⟩ := stepTotal s running
    swap
    · exact .inr (runLoop_of_refused running refused _)
    have counted := step_instructions below next
    rw [runLoop_of_next running next]
    cases ended : t.terminated with
    | none => exact ih t ended (by omega)
    | some r =>
      obtain ⟨other, -⟩ := step_ends running below next ended
      exact .inl ⟨t, runLoop_of_ended (by simp [ended]) _, r, ended, by omega, fun ceiling => absurd ceiling other⟩

/-- Settles O18: reset leaves a running state with no instruction counted, and the passes that `run` allows are one more
than the ceiling. -/
theorem runEnds : Obligations.RunEnds := by
  intro s
  obtain ⟨t, ran, r, ended, counted, ceiling⟩ | refused :=
    runLoop_ends insnCeiling s.resetAction rfl (Nat.zero_add _)
  · exact .inl ⟨t, r, ran, ended, counted, ceiling⟩
  · exact .inr refused

end Sys2Proof.Machine
end
